-- ==== Sys2Proof/Word.lean ====
section
/-! DEFINITION. The word and byte types of the unit and the one plain arithmetic function its rules share. -/

namespace Sys2Proof

/-- An interface register and a word of a word array: 32 bits (R8, R9, R21). -/
abbrev Word := BitVec 32

/-- One byte of memory or of a byte string (R50). -/
abbrev Byte := BitVec 8

/-- `ceil(a / b)` on naturals, `(a + b - 1) div b` (00_scope.md, section 4). -/
def ceilDiv (a b : Nat) : Nat := (a + b - 1) / b

end Sys2Proof
end

