-- ==== Sys2Proof/Syntax.lean ====
section
/-! DEFINITION. The commands of the unit: one constructor per row of spec/opcode_table.json (R3, R81). -/

namespace Sys2Proof

/-- The element widths of the `EW` field (R82): 8, 16 and 32 bits (`.B`, `.H`, `.W` of R86). -/
inductive ElemWidth where
  | b
  | h
  | w
deriving DecidableEq, Repr

/-- `EWB`: bytes of one element (R82). -/
def ElemWidth.bytes : ElemWidth → Nat
  | .b => 1
  | .h => 2
  | .w => 4

/-- `EW`: bits of one element (R82). -/
def ElemWidth.bits (ew : ElemWidth) : Nat := 8 * ew.bytes

/-- A decoded command word. Every other argument is in the operand registers (R80, R88). `bw` is the number the
six-bit `BW` field holds; values that are no legal field width decode and then fault (R83). -/
inductive Instr where
  | hbi
  | pack (ew : ElemWidth) (bw : Nat)
  | unpack (ew : ElemWidth) (bw : Nat)
  | gvci
  | gvdi
  | gvc
  | gvd
  | pfbits (ew : ElemWidth)
  | pfenc (ew : ElemWidth)
  | pfdec (ew : ElemWidth)
  | pfcomp (ew : ElemWidth)
  | pfdecomp (ew : ElemWidth)
deriving DecidableEq, Repr

end Sys2Proof
end

