-- ==== Sys2Proof/WellFormed.lean ====
section
/-! DEFINITION. Which terms of `Instr` a command word can hold (R80, R83). -/

namespace Sys2Proof

/-- The bit width of a `PACK` or `UNPACK` fits the six-bit `BW` field (R80, R83); every other term is a word. -/
def Instr.wellFormed : Instr → Bool
  | .hbi => true
  | .pack _ bw => decide (bw < 64)
  | .unpack _ bw => decide (bw < 64)
  | .gvci => true
  | .gvdi => true
  | .gvc => true
  | .gvd => true
  | .pfbits _ => true
  | .pfenc _ => true
  | .pfdec _ => true
  | .pfcomp _ => true
  | .pfdecomp _ => true

end Sys2Proof
end

