-- ==== Sys2Proof/Decode.lean ====
section
/-! DEFINITION. The decoder of the command word, total on all `2^32` words (R80 to R85), and the encoder. -/

namespace Sys2Proof

/-- Why a word selects no command. All of them are the fault `E_ILLEGAL` (R84, R265). -/
inductive DecodeError where
  /-- A reserved bit (15:10 or 31:22) is 1. -/
  | reservedBit
  /-- `EW = 3`. -/
  | reservedWidth
  /-- `OP` is not in the table of R81. -/
  | unknownOp
  /-- `EW ≠ 2` on `HBI`, `GVCI`, `GVDI`, `GVC` or `GVD`. -/
  | widthNotWord
  /-- `BW ≠ 0` on a command other than `PACK` and `UNPACK`. -/
  | bitWidthNotZero
deriving DecidableEq, Repr

/-- The fields of the format `CMDW` (R80). -/
def opField (w : Word) : BitVec 8 := w.extractLsb' 0 8
/-- `EW`, bits 9:8 (R80). -/
def ewField (w : Word) : BitVec 2 := w.extractLsb' 8 2
/-- Reserved bits 15:10 (R80). -/
def reservedLow (w : Word) : BitVec 6 := w.extractLsb' 10 6
/-- `BW`, bits 21:16 (R80). -/
def bwField (w : Word) : BitVec 6 := w.extractLsb' 16 6
/-- Reserved bits 31:22 (R80). -/
def reservedHigh (w : Word) : BitVec 10 := w.extractLsb' 22 10

/-- The `EW` codes (R82); code 3 is reserved. -/
def decodeWidth (c : BitVec 2) : Option ElemWidth :=
  match c.toNat with
  | 0 => some .b
  | 1 => some .h
  | 2 => some .w
  | _ => none

/-- A command whose `EW` is free and whose `BW` must be 0 (R81). -/
def decodeSized (bw : BitVec 6) (i : Instr) : Except DecodeError Instr :=
  if bw = 0 then .ok i else .error .bitWidthNotZero

/-- A command on 32-bit values, whose `EW` must be 2 and whose `BW` must be 0 (R81, R82). -/
def decodeFixed (ew : ElemWidth) (bw : BitVec 6) (i : Instr) : Except DecodeError Instr :=
  if ew = .w then decodeSized bw i else .error .widthNotWord

/-- The table of R81. -/
def decodeOp (op : BitVec 8) (ew : ElemWidth) (bw : BitVec 6) : Except DecodeError Instr :=
  match op.toNat with
  | 0x01 => decodeFixed ew bw .hbi
  | 0x02 => .ok (.pack ew bw.toNat)
  | 0x03 => .ok (.unpack ew bw.toNat)
  | 0x10 => decodeFixed ew bw .gvci
  | 0x11 => decodeFixed ew bw .gvdi
  | 0x12 => decodeFixed ew bw .gvc
  | 0x13 => decodeFixed ew bw .gvd
  | 0x20 => decodeSized bw (.pfbits ew)
  | 0x21 => decodeSized bw (.pfenc ew)
  | 0x22 => decodeSized bw (.pfdec ew)
  | 0x30 => decodeSized bw (.pfcomp ew)
  | 0x31 => decodeSized bw (.pfdecomp ew)
  | _ => .error .unknownOp

/-- Decoding a word (R85): each word selects one of the twelve commands or is illegal. -/
def decode (w : Word) : Except DecodeError Instr :=
  if reservedLow w = 0 ∧ reservedHigh w = 0 then
    match decodeWidth (ewField w) with
    | some ew => decodeOp (opField w) ew (bwField w)
    | none => .error .reservedWidth
  else .error .reservedBit

/-- `CMD <- OP | EW << 8 | bw << 16` (R86). -/
def commandWord (op : BitVec 8) (ew : BitVec 2) (bw : BitVec 6) : Word :=
  0#10 ++ bw ++ 0#6 ++ ew ++ op

/-- The `EW` code of a width (R82). -/
def encodeWidth : ElemWidth → BitVec 2
  | .b => 0
  | .h => 1
  | .w => 2

/-- The word of a command (R80, R81). -/
def encode : Instr → Word
  | .hbi => commandWord 0x01 (encodeWidth .w) 0
  | .pack ew bw => commandWord 0x02 (encodeWidth ew) (BitVec.ofNat 6 bw)
  | .unpack ew bw => commandWord 0x03 (encodeWidth ew) (BitVec.ofNat 6 bw)
  | .gvci => commandWord 0x10 (encodeWidth .w) 0
  | .gvdi => commandWord 0x11 (encodeWidth .w) 0
  | .gvc => commandWord 0x12 (encodeWidth .w) 0
  | .gvd => commandWord 0x13 (encodeWidth .w) 0
  | .pfbits ew => commandWord 0x20 (encodeWidth ew) 0
  | .pfenc ew => commandWord 0x21 (encodeWidth ew) 0
  | .pfdec ew => commandWord 0x22 (encodeWidth ew) 0
  | .pfcomp ew => commandWord 0x30 (encodeWidth ew) 0
  | .pfdecomp ew => commandWord 0x31 (encodeWidth ew) 0

/-- The instruction the decoder reads from the `nbits` low bits of `w` (every command is one 32-bit word, R80). -/
def decodeTableWord (nbits w : Nat) : Option Instr :=
  match decode (BitVec.ofNat 32 (w % 2 ^ nbits)) with
  | .ok i => some i
  | .error _ => none

end Sys2Proof
end

