-- ==== Sys2Proof/Config.lean ====
section
/-! DEFINITION. The named parameters of the unit (R8, R9) and the one free value of the spec (R269). -/

namespace Sys2Proof

/-- `ADDR_BITS`: the width of a memory address (R9, R50). -/
abbrev Config.addrBits : Nat := 32

/-- The number of bytes of the one address space, `2^ADDR_BITS` (R50). -/
abbrev Config.memoryBytes : Nat := 2 ^ Config.addrBits

/-- `BLOCK`: the most integers a PForDelta block holds (R8). -/
abbrev Config.blockSize : Nat := 128

/-- The sentinel of header byte 3, "no exceptions" (R8, R94). -/
abbrev Config.sentinel : Nat := 128

/-- DESIGN CHOICE (log 3), safe: the bytes the spec calls unspecified after a fault (R269: "each byte of the
named range may hold any value after the command"). The `n`-th byte drawn since reset is `freeByte n`; it has
no body, so nothing can be proved of it. -/
opaque Config.freeByte : Nat → Byte

end Sys2Proof
end

