-- ==== Sys2Proof/Machine/State.lean ====
section
/-! DEFINITION. The state of the unit (R20, R21, R50), its reset value (R36), and the reasons a step can stop. -/

namespace Sys2Proof.Machine

/-- One access of the host to the unit or to the memory they share: what drives the unit (R27, R31, R62, R293).
DESIGN CHOICE (log 1). -/
inductive HostAccess where
  /-- `WR index, value`: a write of an interface register (R31, R86); index 0 starts a command (R27). -/
  | write (index : Nat) (value : Word)
  /-- `RD index`: a read of an interface register (R31, R86). -/
  | read (index : Nat)
  /-- The host stores one byte into the shared memory (R62, R293). -/
  | store (addr : Nat) (value : Byte)
  /-- The host loads one byte of the shared memory (R62). -/
  | load (addr : Nat)
  /-- The platform asserts reset (`RESET_SOURCE`, R291). -/
  | reset
deriving DecidableEq, Repr

/-- The codes of a command's fault, `STATUS.ERR` (R261). Not a stop of the machine: the command ends, the unit goes
on (R260, R268). -/
inductive ErrCode where
  /-- "destination buffer too small for the computed output" (R262). -/
  | capacity
  /-- A corrupt stream (R263). -/
  | corrupt
  /-- An operand register or `BW` holds a value the operation is not defined for (R264). -/
  | param
  /-- The command word selects no command (R265). -/
  | illegal
deriving DecidableEq, Repr

/-- Why the machine can stop. The spec's four faults are not here: they end one command and leave a next state
(R260, R267). -/
inductive Fault where
  /-- Raised by a host load or store at an address of `2^32` or more, which does not exist (R50). No command raises
  it (R58). Safe: the model stops where no such access can be made (log 8). -/
  | noSuchAddress
deriving DecidableEq, Repr

/-- Why the machine can have no meaning for an instruction. -/
inductive Refusal where
  /-- Raised by an arm of `exec` whose instruction has no meaning yet. No arm raises it now. Safe. -/
  | notModelled (mnemonic : String)
deriving DecidableEq, Repr

/-- The memory: address and byte pairs. An address that is not listed reads 0 (log 2). -/
abbrev Memory := List Host.Cell

/-- What an unlisted address reads as. DESIGN CHOICE (log 2), unsafe: the spec does not give the contents of the
memory at power-on; its test programs start from a memory of zeros (95_test_vectors.md, section 3). -/
def Memory.unlisted : Byte := 0

/-- The canonical form: addresses strictly rising and inside the address space (R50), no entry equal to what an
unlisted address reads as. -/
abbrev Memory.wf (m : Memory) : Prop :=
  m.Pairwise (fun c d => c.1 < d.1) ∧ ∀ c ∈ m, c.1 < Config.memoryBytes ∧ c.2 ≠ Memory.unlisted

/-- The whole state: the nine interface registers (R21), the memory (R50), and three fields of the MODEL's own:
`pending` (log 1), `readData` (log 4), `drawn` (log 3). -/
structure State where
  /-- `CMD`, index 0 (R27): the last command word written. -/
  cmd : Word
  /-- `DST`, index 1 (R22): address of the destination region. -/
  dst : Word
  /-- `DCAP`, index 2 (R23): capacity of the destination region, in the command's destination unit. -/
  dcap : Word
  /-- `SRC`, index 3 (R24): address of the source region. -/
  src : Word
  /-- `SLEN`, index 4 (R25): length of the source region, in the command's source unit. -/
  slen : Word
  /-- `ARG`, index 5 (R26): the extra argument. -/
  arg : Word
  /-- `STATUS`, index 6 (R28): the outcome of the last command. -/
  status : Word
  /-- `RCNT`, index 7 (R29): the primary result of the last command. -/
  rcnt : Word
  /-- `RCONS`, index 8 (R30): the source bytes the last command consumed. -/
  rcons : Word
  /-- The memory the host shares with the unit (R50). -/
  mem : Memory
  /-- The model's own: the accesses the host is about to make, oldest first (log 1). -/
  pending : List HostAccess
  /-- The model's own: what the host's last read or load returned (log 4). -/
  readData : Word
  /-- The model's own: how many free bytes have been drawn (log 3). -/
  drawn : Nat
deriving DecidableEq, Repr

/-- Right after reset every interface register is 0 (R36, R290) and no host access is pending. The memory lists
nothing (log 2); the model's own fields start empty or 0 (log 1, log 3, log 4). -/
def State.reset : State where
  cmd := 0
  dst := 0
  dcap := 0
  src := 0
  slen := 0
  arg := 0
  status := 0
  rcnt := 0
  rcons := 0
  mem := []
  pending := []
  readData := 0
  drawn := 0

end Sys2Proof.Machine
end

