-- ==== Sys2Proof/Machine/Flags.lean ====
section
/-! DEFINITION. The `STATUS` register: its fields and the words a command leaves in it (R28, R267). -/

namespace Sys2Proof.Machine

/-- `STATUS.ERR` of a fault (R261). -/
def ErrCode.code : ErrCode → Nat
  | .capacity => 1
  | .corrupt => 2
  | .param => 3
  | .illegal => 4

/-- `STATUS.STATE`, bits 1:0 (R28): 0 `IDLE`, 1 `DONE_OK`, 2 `DONE_ERR`. -/
def statusState (w : Word) : Nat := (w.extractLsb' 0 2).toNat

/-- `STATUS.ERR`, bits 6:4 (R28). -/
def statusErr (w : Word) : Nat := (w.extractLsb' 4 3).toNat

/-- `STATUS` after a command that succeeded: `STATE = DONE_OK`, `ERR = 0` (R28, R267). -/
def statusOk : Word := 1

/-- `STATUS` after a fault with code `c`: `2 | c << 4` (R267). -/
def statusFault (e : ErrCode) : Word := BitVec.ofNat 32 (2 ||| (e.code <<< 4))

end Sys2Proof.Machine
end

