-- ==== Sys2Proof/Machine/Ops.lean ====
section
/-! DEFINITION. The named operations over memory and registers: bytes and numbers (R51), memory accesses (R52, R53),
host access to the registers (R21, R31), how a command ends and how it faults (R267, R269), reset (R36, R292). -/

namespace Sys2Proof.Machine

/-! ### Bytes and numbers -/

/-- `Σ_j b[j] * 256^j`: the little-endian value of a byte string (R51, R52). -/
def leValue : List Byte → Nat
  | [] => 0
  | b :: bs => b.toNat + 256 * leValue bs

/-- The `n` low bytes of `v`, lowest-order byte first (R51, R53). -/
def leBytes : Nat → Nat → List Byte
  | 0, _ => []
  | n + 1, v => BitVec.ofNat 8 v :: leBytes n (v / 256)

/-! ### The memory -/

/-- One byte of memory: the entry at the address, or what an unlisted address reads as (R50). -/
def Memory.read (m : Memory) (a : Nat) : Byte :=
  match m with
  | [] => Memory.unlisted
  | c :: rest => if c.1 = a then c.2 else Memory.read rest a

/-- Puts an entry at its place in a list of rising addresses. -/
def Memory.insert (c : Host.Cell) (m : Memory) : Memory :=
  match m with
  | [] => [c]
  | d :: rest => if c.1 < d.1 then c :: d :: rest else d :: Memory.insert c rest

/-- One byte stored: the canonical form has no entry for a byte that reads as an unlisted one. -/
def Memory.write (m : Memory) (a : Nat) (v : Byte) : Memory :=
  let others := m.filter (fun c => c.1 != a)
  if v = Memory.unlisted then others else Memory.insert (a, v) others

/-- The `n` bytes from `a` on: a byte stream (R56). -/
def Memory.readBytes (m : Memory) (a : Nat) : Nat → List Byte
  | 0 => []
  | n + 1 => m.read a :: Memory.readBytes m (a + 1) n

/-- The bytes stored from `a` on, in order (R56). -/
def Memory.writeBytes (m : Memory) (a : Nat) : List Byte → Memory
  | [] => m
  | b :: bs => Memory.writeBytes (m.write a b) (a + 1) bs

/-- `MemRead(addr, n)` (R52). -/
def Memory.readLe (m : Memory) (a n : Nat) : Nat := leValue (m.readBytes a n)

/-- `MemWrite(addr, n, v)` (R53). -/
def Memory.writeLe (m : Memory) (a n v : Nat) : Memory := m.writeBytes a (leBytes n v)

/-! ### How a command ends -/

/-- A command that succeeds: `RCNT`, `RCONS` and `STATUS` written, nothing else (R28, R29, R30). -/
def State.complete (s : State) (rcnt rcons : Nat) : State :=
  { s with status := statusOk, rcnt := BitVec.ofNat 32 rcnt, rcons := BitVec.ofNat 32 rcons }

/-- Fault entry (R267): `STATUS <- 2 | c << 4`, `RCNT <- 0`, `RCONS <- 0`; nothing else is saved and control goes
nowhere (R260). There is nothing to return from: the next write of `CMD` starts a new command (R268). -/
def State.raise (s : State) (e : ErrCode) : State :=
  { s with status := statusFault e, rcnt := 0, rcons := 0 }

/-- `k` free bytes, the first of them the `d`-th drawn since reset (R269, log 3). -/
def freeBytes (d : Nat) : Nat → List Byte
  | 0 => []
  | k + 1 => Config.freeByte d :: freeBytes (d + 1) k

/-- The `k` bytes from `DST` on hold unspecified values (R269). -/
def State.spoil (s : State) (k : Nat) : State :=
  { s with mem := s.mem.writeBytes s.dst.toNat (freeBytes s.drawn k), drawn := s.drawn + k }

/-- What the own part of a command answers, once its regions are legal. -/
inductive Reply where
  /-- Success: the bytes stored from `DST` on, `RCNT`, `RCONS`. -/
  | done (out : List Byte) (rcnt rcons : Nat)
  /-- A fault, and how many bytes from `DST` on it leaves unspecified (R269). -/
  | fail (e : ErrCode) (spoiled : Nat)
deriving DecidableEq, Repr

/-- The state a command's answer leaves (R267, R269). -/
def State.finish (s : State) : Reply → State
  | .done out rcnt rcons => { s with mem := s.mem.writeBytes s.dst.toNat out }.complete rcnt rcons
  | .fail e spoiled => (s.spoil spoiled).raise e

/-! ### The registers, as the host reaches them -/

/-- A host read of an interface register; an index above 8 reads 0 (R21, U22). -/
def State.readReg (s : State) (index : Nat) : Word :=
  match index with
  | 0 => s.cmd
  | 1 => s.dst
  | 2 => s.dcap
  | 3 => s.src
  | 4 => s.slen
  | 5 => s.arg
  | 6 => s.status
  | 7 => s.rcnt
  | 8 => s.rcons
  | _ => 0

/-- A host write of an interface register as storage: 0 to 5 are writable, a write of 6, 7, 8 or of an index above
is ignored (R21, R31). That a write of `CMD` also starts a command is in Machine/HostBus.lean (R27). -/
def State.writeReg (s : State) (index : Nat) (v : Word) : State :=
  match index with
  | 0 => { s with cmd := v }
  | 1 => { s with dst := v }
  | 2 => { s with dcap := v }
  | 3 => { s with src := v }
  | 4 => { s with slen := v }
  | 5 => { s with arg := v }
  | _ => s

/-- Reset: every interface register 0, memory unchanged, no command started (R36, R290, R292). The model's own
fields are kept (log 6). -/
def State.resetRegisters (s : State) : State :=
  { s with cmd := 0, dst := 0, dcap := 0, src := 0, slen := 0, arg := 0, status := 0, rcnt := 0, rcons := 0 }

end Sys2Proof.Machine
end

