-- ==== Sys2Proof/Machine/Operands.lean ====
section
/-! DEFINITION. The operands of a command: the units of its regions (R32), what makes regions legal (R58, R59), and
the arrays in them (R54, R55, R56). -/

namespace Sys2Proof.Machine

/-- Bytes of one unit of `SLEN`; 0 where the command has no source region (the table of R32). -/
def sourceUnit : Instr → Nat
  | .hbi => 0
  | .pack ew _ => ew.bytes
  | .unpack _ _ => 4
  | .gvci => 4
  | .gvdi => 1
  | .gvc => 4
  | .gvd => 1
  | .pfbits ew => ew.bytes
  | .pfenc ew => ew.bytes
  | .pfdec _ => 1
  | .pfcomp ew => ew.bytes
  | .pfdecomp _ => 1

/-- Bytes of one unit of `DCAP`; 0 where the command has no destination region (the table of R32). -/
def destUnit : Instr → Nat
  | .hbi => 0
  | .pack _ _ => 4
  | .unpack ew _ => ew.bytes
  | .gvci => 1
  | .gvdi => 4
  | .gvc => 1
  | .gvd => 4
  | .pfbits _ => 0
  | .pfenc _ => 1
  | .pfdec ew => ew.bytes
  | .pfcomp _ => 1
  | .pfdecomp ew => ew.bytes

/-- Bytes of the source region, `SLEN * su` (R58). -/
def sourceBytes (i : Instr) (s : State) : Nat := s.slen.toNat * sourceUnit i

/-- Bytes of the destination region, `DCAP * du` (R58). -/
def destBytes (i : Instr) (s : State) : Nat := s.dcap.toNat * destUnit i

/-- A non-empty region passes the top of the address space, computed without wrap (R58). -/
def passesTop (base len : Nat) : Bool := decide (0 < len ∧ Config.memoryBytes < base + len)

/-- Two non-empty regions share at least one byte (R59). -/
def overlap (a la b lb : Nat) : Bool := decide (0 < la ∧ 0 < lb ∧ a < b + lb ∧ b < a + la)

/-- The region checks of R266, steps 4 and 5: no region passes the top, and the regions are disjoint. All of them
are `E_PARAM`, so their order does not show. -/
def regionsLegal (i : Instr) (s : State) : Bool :=
  !passesTop s.src.toNat (sourceBytes i s) &&
  !passesTop s.dst.toNat (destBytes i s) &&
  !overlap s.src.toNat (sourceBytes i s) s.dst.toNat (destBytes i s)

/-- The `n` elements of `w` bytes each from `base` on: element `i` is `MemRead(base + i*w, w)` (R54, R55). -/
def loadElems (m : Memory) (w base : Nat) : Nat → List Nat
  | 0 => []
  | n + 1 => m.readLe base w :: loadElems m w (base + w) n

/-- The bytes of an element or word array: each value in its `w` low bytes, low byte first (R51, R54, R55). -/
def elemBytes (w : Nat) (vs : List Nat) : List Byte := vs.flatMap (leBytes w)

/-- The source region as `SLEN` elements of `w` bytes. -/
def sourceElems (w : Nat) (s : State) : List Nat := loadElems s.mem w s.src.toNat s.slen.toNat

/-- The source region as a byte string. A rule's `(B, off, avail)` is, everywhere in the model, the list of the
`avail` bytes from `off` on. -/
def sourceStream (s : State) : List Byte := s.mem.readBytes s.src.toNat s.slen.toNat

end Sys2Proof.Machine
end

