-- ==== Sys2Proof/Machine/BitPack.lean ====
section
/-! DEFINITION. The bit packer family (40_bitpack.md): `HBI`, `PACK`, `UNPACK`. -/

namespace Sys2Proof.Machine

/-- `HBI(v) = 1 + floor(log2(v))`, and 0 maps to 1 (R120). -/
def highBitIdx (v : Nat) : Nat := if v = 0 then 1 else v.log2 + 1

/-- Words that hold `n` fields of `bw` bits: `ceil(n*bw / 32)` (R122, R127). -/
def wordsFor (n bw : Nat) : Nat := ceilDiv (n * bw) 32

/-- The bit string of the fields as a number: `S = Σ_i (V[i] mod 2^bw) * 2^(i*bw)` (R122, R129). -/
def fieldSum (bw : Nat) : List Nat → Nat
  | [] => 0
  | v :: vs => v % 2 ^ bw + 2 ^ bw * fieldSum bw vs

/-- The bit string of a list of words as a number: `S = Σ_k Wd[k] * 2^(32k)` (R123). -/
def wordSum : List Nat → Nat
  | [] => 0
  | w :: ws => w + 2 ^ 32 * wordSum ws

/-- Cuts the `n` lowest groups of `bw` bits out of a number, lowest first. -/
def cutFields (bw : Nat) : Nat → Nat → List Nat
  | 0, _ => []
  | n + 1, x => x % 2 ^ bw :: cutFields bw n (x / 2 ^ bw)

/-- `PackBits(V, bw)` in the form without a loop: `Wd[k] = (S div 2^(32k)) mod 2^32` (R122). -/
def packBits (vs : List Nat) (bw : Nat) : List Nat :=
  cutFields 32 (wordsFor vs.length bw) (fieldSum bw vs)

/-- `UnpackBits(Wd, bw, n)` in the form without a loop: `F[i] = (S div 2^(i*bw)) mod 2^bw` (R123). -/
def unpackBits (wd : List Nat) (bw n : Nat) : List Nat := cutFields bw n (wordSum wd)

/-- `HBI` (R121). -/
def execHbi (s : State) : Host.Outcome State Fault Refusal :=
  .next (s.complete (highBitIdx s.arg.toNat) 0)

/-- `BW` is a field width (R83): 1 to 32. -/
def legalBitWidth (bw : Nat) : Bool := decide (1 ≤ bw ∧ bw ≤ 32)

/-- The own part of `PACK` (R124). -/
def packReply (ew : ElemWidth) (bw : Nat) (s : State) : Reply :=
  let nw := wordsFor s.slen.toNat bw
  if s.dcap.toNat < nw then .fail .capacity 0
  else .done (elemBytes 4 (packBits (sourceElems ew.bytes s) bw)) nw 0

/-- `PACK` (R124), its checks in the order of R266. -/
def execPack (ew : ElemWidth) (bw : Nat) (s : State) : Host.Outcome State Fault Refusal :=
  if !legalBitWidth bw then .next (s.raise .param)
  else if !regionsLegal (.pack ew bw) s then .next (s.raise .param)
  else .next (s.finish (packReply ew bw s))

/-- The own part of `UNPACK` (R125): source too short before destination too small (R266). -/
def unpackReply (ew : ElemWidth) (bw : Nat) (s : State) : Reply :=
  let n := s.arg.toNat
  let nw := wordsFor n bw
  if s.slen.toNat < nw then .fail .corrupt 0
  else if s.dcap.toNat < n then .fail .capacity 0
  else .done (elemBytes ew.bytes (unpackBits (loadElems s.mem 4 s.src.toNat nw) bw n)) n (4 * nw)

/-- `UNPACK` (R125), its checks in the order of R266. -/
def execUnpack (ew : ElemWidth) (bw : Nat) (s : State) : Host.Outcome State Fault Refusal :=
  if !legalBitWidth bw then .next (s.raise .param)
  else if !regionsLegal (.unpack ew bw) s then .next (s.raise .param)
  else .next (s.finish (unpackReply ew bw s))

end Sys2Proof.Machine
end

