-- ==== Sys2Proof/Machine/GroupVarint.lean ====
section
/-! DEFINITION. The GroupVarint family (41_groupvarint.md): `GVCI`, `GVDI`, `GVC`, `GVD`, and the tail varint
(30_encoding.md, R97 and R98). -/

namespace Sys2Proof.Machine

/-- `ByteLen(v)` (R150). -/
def byteLen (v : Nat) : Nat :=
  if v < 256 then 1 else if v < 65536 then 2 else if v < 16777216 then 3 else 4

/-- The selector of four byte lengths: `L_i - 1` in bits `2i+1:2i` (R90, R151). -/
def selectorOf (l0 l1 l2 l3 : Nat) : Nat :=
  (l0 - 1) ||| (l1 - 1) <<< 2 ||| (l2 - 1) <<< 4 ||| (l3 - 1) <<< 6

/-- The four byte lengths of a selector: `L_i = s[2i+1:2i] + 1` (R90, R91, R92). -/
def selectorLengths (s : Nat) : List Nat :=
  [s % 4 + 1, s / 4 % 4 + 1, s / 16 % 4 + 1, s / 64 % 4 + 1]

/-- `GvItemEnc(v0, v1, v2, v3)` (R151). -/
def gvItemEnc (v0 v1 v2 v3 : Nat) : List Byte :=
  BitVec.ofNat 8 (selectorOf (byteLen v0) (byteLen v1) (byteLen v2) (byteLen v3)) ::
    (leBytes (byteLen v0) v0 ++ leBytes (byteLen v1) v1 ++ leBytes (byteLen v2) v2 ++ leBytes (byteLen v3) v3)

/-- The values of consecutive slots of the given byte lengths (R91). -/
def slotValues : List Nat → List Byte → List Nat
  | [], _ => []
  | l :: ls, bs => leValue (bs.take l) :: slotValues ls (bs.drop l)

/-- `GvItemDec` on the bytes available (R153): the four values and the bytes consumed. -/
def gvItemDec (bs : List Byte) : Except ErrCode (List Nat × Nat) :=
  match bs with
  | [] => .error .corrupt
  | s :: body =>
    let lens := selectorLengths s.toNat
    if body.length < lens.sum then .error .corrupt
    else .ok (slotValues lens body, 1 + lens.sum)

/-- The loop of `VarintEnc`: at most `fuel` bytes with bit 7 set, then the last byte (R97). -/
def varintEncFrom : Nat → Nat → List Byte
  | 0, v => [BitVec.ofNat 8 v]
  | fuel + 1, v =>
    if v < 128 then [BitVec.ofNat 8 v]
    else BitVec.ofNat 8 (v % 128 + 128) :: varintEncFrom fuel (v / 128)

/-- `VarintEnc(v)` for `v < 2^32`, 1 to 5 bytes (R97). -/
def varintEnc (v : Nat) : List Byte := varintEncFrom 4 v

/-- The loop of `VarintDec`: `fuel` more bytes may be read, `j` are read, `v` is their value (R98). -/
def varintDecFrom : Nat → Nat → Nat → List Byte → Except ErrCode (Nat × Nat)
  | 0, _, _, _ => .error .corrupt
  | _ + 1, _, _, [] => .error .corrupt
  | fuel + 1, j, v, c :: bs =>
    let v' := v + c.toNat % 128 * 128 ^ j
    if c.toNat < 128 then
      if 2 ^ 32 ≤ v' then .error .corrupt else .ok (v', j + 1)
    else varintDecFrom fuel (j + 1) v' bs

/-- `VarintDec` on the bytes available (R98): the value and the bytes consumed. -/
def varintDec (bs : List Byte) : Except ErrCode (Nat × Nat) := varintDecFrom 5 0 0 bs

/-- `GvEnc(V)` (R155): groups of four, then a varint for each of the last `n mod 4` values. -/
def gvEnc : List Nat → List Byte
  | v0 :: v1 :: v2 :: v3 :: rest => gvItemEnc v0 v1 v2 v3 ++ gvEnc rest
  | tail => tail.flatMap varintEnc

/-- The groups of `GvDec` (R156): `g` of them. -/
def gvDecGroups : Nat → List Byte → Except ErrCode (List Nat × Nat)
  | 0, _ => .ok ([], 0)
  | g + 1, bs =>
    match gvItemDec bs with
    | .error e => .error e
    | .ok (vs, used) =>
      match gvDecGroups g (bs.drop used) with
      | .error e => .error e
      | .ok (ws, more) => .ok (vs ++ ws, used + more)

/-- The tail of `GvDec` (R156): `t` varints. -/
def gvDecTail : Nat → List Byte → Except ErrCode (List Nat × Nat)
  | 0, _ => .ok ([], 0)
  | t + 1, bs =>
    match varintDec bs with
    | .error e => .error e
    | .ok (v, used) =>
      match gvDecTail t (bs.drop used) with
      | .error e => .error e
      | .ok (ws, more) => .ok (v :: ws, used + more)

/-- `GvDec` of `n` values on the bytes available (R156): the values and the bytes consumed. -/
def gvDec (bs : List Byte) (n : Nat) : Except ErrCode (List Nat × Nat) :=
  match gvDecGroups (n / 4) bs with
  | .error e => .error e
  | .ok (vs, used) =>
    match gvDecTail (n % 4) (bs.drop used) with
    | .error e => .error e
    | .ok (ws, more) => .ok (vs ++ ws, used + more)

/-- A byte string that must fit `DCAP` bytes whole or is not written at all (R152, R157, R196, R262). -/
def streamReply (s : State) (out : List Byte) : Reply :=
  if s.dcap.toNat < out.length then .fail .capacity 0 else .done out out.length 0

/-- The own part of `GVCI` (R152). -/
def gvciReply (s : State) : Reply :=
  let v := fun k => s.mem.readLe (s.src.toNat + 4 * k) 4
  streamReply s (gvItemEnc (v 0) (v 1) (v 2) (v 3))

/-- `GVCI` (R152), its checks in the order of R266. -/
def execGvci (s : State) : Host.Outcome State Fault Refusal :=
  if s.slen.toNat ≠ 4 then .next (s.raise .param)
  else if !regionsLegal .gvci s then .next (s.raise .param)
  else .next (s.finish (gvciReply s))

/-- The own part of `GVDI` (R154): capacity before corruption (R266). -/
def gvdiReply (s : State) : Reply :=
  if s.dcap.toNat < 4 then .fail .capacity 0
  else
    match gvItemDec (sourceStream s) with
    | .error e => .fail e 0
    | .ok (vs, used) => .done (elemBytes 4 vs) 4 used

/-- `GVDI` (R154). -/
def execGvdi (s : State) : Host.Outcome State Fault Refusal :=
  if !regionsLegal .gvdi s then .next (s.raise .param)
  else .next (s.finish (gvdiReply s))

/-- The own part of `GVC` (R157). -/
def gvcReply (s : State) : Reply := streamReply s (gvEnc (sourceElems 4 s))

/-- `GVC` (R157). -/
def execGvc (s : State) : Host.Outcome State Fault Refusal :=
  if !regionsLegal .gvc s then .next (s.raise .param)
  else .next (s.finish (gvcReply s))

/-- The own part of `GVD` (R158): after `E_CORRUPT` the `n` elements from `DST` on are unspecified (R269). -/
def gvdReply (s : State) : Reply :=
  let n := s.arg.toNat
  if s.dcap.toNat < n then .fail .capacity 0
  else
    match gvDec (sourceStream s) n with
    | .error e => .fail e (4 * n)
    | .ok (vs, used) => .done (elemBytes 4 vs) n used

/-- `GVD` (R158). -/
def execGvd (s : State) : Host.Outcome State Fault Refusal :=
  if !regionsLegal .gvd s then .next (s.raise .param)
  else .next (s.finish (gvdReply s))

end Sys2Proof.Machine
end

