-- ==== Sys2Proof/Machine/PForBlock.lean ====
section
/-! DEFINITION. The PForDelta block family (42_pfordelta_block.md): `PFBITS`, `PFENC`, `PFDEC`. -/

namespace Sys2Proof.Machine

/-! ### Bit-width selection -/

/-- `hist[b]`: how many values have `HBI` equal to `b` (R190). -/
def histogram (vs : List Nat) (b : Nat) : Nat := vs.countP (fun v => highBitIdx v == b)

/-- The threshold `T = (9*len + 9) div 10` (R190, 90_conflicts.md C1). -/
def coverage (len : Nat) : Nat := (9 * len + 9) / 10

/-- The loop of `MaxBitNum` from width `b` on, with `fuel` wider widths left; `cum` counts the values of fewer than
`b` bits (R190). -/
def maxBitNumFrom (vs : List Nat) : Nat → Nat → Nat → Nat
  | 0, b, _ => b
  | fuel + 1, b, cum =>
    let cum' := cum + histogram vs b
    if coverage vs.length ≤ cum' then b else maxBitNumFrom vs fuel (b + 1) cum'

/-- `MaxBitNum(V)` (R190): widths 1 to 32; at 32 every value is counted and the loop returns. -/
def maxBitNum (vs : List Nat) : Nat := maxBitNumFrom vs 31 1 0

/-! ### Block encode -/

/-- `maxNum` of a first bit width (R192). -/
def maxNumOf (b0 : Nat) : Nat := if b0 < 32 then 2 ^ b0 - 1 else 0xFFFFFFFF

/-- The exception scan (R193): the indices of the values above `maxNum`, ascending. -/
def exceptionIndices (vs : List Nat) (maxNum : Nat) : List Nat :=
  (List.range vs.length).filter (fun i => decide (maxNum < vs.getD i 0))

/-- What the exception slots hold (R194): the gap to the next exception, 0 in the last. -/
def chainGaps : List Nat → List Nat
  | [] => []
  | [_] => [0]
  | i :: j :: rest => (j - i) :: chainGaps (j :: rest)

/-- Overwrites the slots of a list, one after another (R194). -/
def rewriteSlots (vs : List Nat) (slots : List (Nat × Nat)) : List Nat :=
  slots.foldl (fun w p => w.set p.1 p.2) vs

/-- `maxGap` (R194), 0 when there is none. -/
def maxOf (gaps : List Nat) : Nat := gaps.foldl max 0

/-- The exceptions of a block by its first bit width (R195, steps 1 and 2). -/
def blockExceptions (vs : List Nat) : List Nat := exceptionIndices vs (maxNumOf (maxBitNum vs))

/-- The width the payload is packed with (R195, step 4; 90_conflicts.md C7). -/
def blockWidth (vs : List Nat) : Nat :=
  highBitIdx (max (maxOf (chainGaps (blockExceptions vs))) (maxNumOf (maxBitNum vs)))

/-- The working copy of a block with the gaps in its exception slots (R194). -/
def blockFields (vs : List Nat) : List Nat :=
  rewriteSlots vs ((blockExceptions vs).zip (chainGaps (blockExceptions vs)))

/-- The header bytes `[n, bw, k, first]` (R94, R195 step 7). -/
def blockHeader (vs : List Nat) : List Byte :=
  let e := blockExceptions vs
  [BitVec.ofNat 8 vs.length, BitVec.ofNat 8 (blockWidth vs), BitVec.ofNat 8 e.length,
    BitVec.ofNat 8 (e.headD Config.sentinel)]

/-- The side buffer: the true exception values, GroupVarint-coded in order (R195, step 6). -/
def blockSide (vs : List Nat) : List Byte := gvEnc ((blockExceptions vs).map (fun i => vs.getD i 0))

/-- `PfBlockEnc(V)` (R195). -/
def pfBlockEnc (vs : List Nat) : List Byte :=
  blockHeader vs ++ elemBytes 4 (packBits (blockFields vs) (blockWidth vs)) ++ blockSide vs

/-! ### Block decode -/

/-- Why a block does not decode: the code, and how many elements of the destination it leaves unspecified (R269:
none for the header checks and the payload-length check, `numInts` after them). -/
structure BlockFailure where
  /-- The fault. -/
  code : ErrCode
  /-- How many elements of the destination hold unspecified values. -/
  spoiled : Nat
deriving DecidableEq, Repr

/-- The chain walk (R202, R205): one step for each true value, by count alone; `none` when `cur` leaves the block. -/
def chainWalk : List Nat → Nat → List Nat → Option (List Nat)
  | [], _, w => some w
  | x :: xs, cur, w =>
    if w.length ≤ cur then none else chainWalk xs (cur + w.getD cur 0) (w.set cur x)

/-- Header validation against the capacity left (R200), in the order of the rule. -/
def headerFailure (n bw k first cap : Nat) : Option ErrCode :=
  if Config.blockSize < n then some .corrupt
  else if bw < 1 ∨ 32 < bw then some .corrupt
  else if n < k then some .corrupt
  else if n < first ∧ first ≠ Config.sentinel then some .corrupt
  else if cap < n then some .capacity
  else none

/-- The rest of a block once its header is accepted (R201, R202, R207): the values, and the bytes of payload and
side buffer consumed. -/
def blockBodyDec (n bw k first : Nat) (body : List Byte) (ew : ElemWidth) :
    Except BlockFailure (List Nat × Nat) :=
  let nw := wordsFor n bw
  if body.length < 4 * nw then .error ⟨.corrupt, 0⟩
  else
    match gvDec (body.drop (4 * nw)) k with
    | .error e => .error ⟨e, n⟩
    | .ok (xs, side) =>
      match chainWalk xs first (unpackBits (slotValues (List.replicate nw 4) body) bw n) with
      | none => .error ⟨.corrupt, n⟩
      | some w =>
        if w.all (fun v => decide (v < 2 ^ ew.bits)) then .ok (w, 4 * nw + side)
        else .error ⟨.corrupt, n⟩

/-- `PfBlockDec` on the bytes available (R203): the values and the block's length. -/
def pfBlockDec (bs : List Byte) (cap : Nat) (ew : ElemWidth) : Except BlockFailure (List Nat × Nat) :=
  match bs with
  | n :: bw :: k :: first :: body =>
    match headerFailure n.toNat bw.toNat k.toNat first.toNat cap with
    | some e => .error ⟨e, 0⟩
    | none =>
      match blockBodyDec n.toNat bw.toNat k.toNat first.toNat body ew with
      | .error f => .error f
      | .ok (w, used) => .ok (w, 4 + used)
  | _ => .error ⟨.corrupt, 0⟩

/-! ### Commands -/

/-- `PFBITS` (R191), its checks in the order of R266. It writes no memory. -/
def execPfbits (ew : ElemWidth) (s : State) : Host.Outcome State Fault Refusal :=
  if Config.blockSize < s.slen.toNat then .next (s.raise .param)
  else if !regionsLegal (.pfbits ew) s then .next (s.raise .param)
  else .next (s.complete (maxBitNum (sourceElems ew.bytes s)) 0)

/-- The own part of `PFENC` (R196). -/
def pfencReply (ew : ElemWidth) (s : State) : Reply := streamReply s (pfBlockEnc (sourceElems ew.bytes s))

/-- `PFENC` (R196), its checks in the order of R266. -/
def execPfenc (ew : ElemWidth) (s : State) : Host.Outcome State Fault Refusal :=
  if s.slen.toNat < 1 ∨ Config.blockSize < s.slen.toNat then .next (s.raise .param)
  else if !regionsLegal (.pfenc ew) s then .next (s.raise .param)
  else .next (s.finish (pfencReply ew s))

/-- The own part of `PFDEC` (R204, R269). -/
def pfdecReply (ew : ElemWidth) (s : State) : Reply :=
  match pfBlockDec (sourceStream s) s.dcap.toNat ew with
  | .error f => .fail f.code (f.spoiled * ew.bytes)
  | .ok (w, blockLen) => .done (elemBytes ew.bytes w) w.length blockLen

/-- `PFDEC` (R204). -/
def execPfdec (ew : ElemWidth) (s : State) : Host.Outcome State Fault Refusal :=
  if !regionsLegal (.pfdec ew) s then .next (s.raise .param)
  else .next (s.finish (pfdecReply ew s))

end Sys2Proof.Machine
end

