-- ==== Sys2Proof/Machine/PForStream.lean ====
section
/-! DEFINITION. The PForDelta stream family (43_pfordelta_stream.md): `PFCOMP`, `PFDECOMP`. -/

namespace Sys2Proof.Machine

/-- The blocks of `k` consecutive 128-element windows (R240). -/
def pfWindowsEnc : Nat → List Nat → List Byte
  | 0, _ => []
  | k + 1, vs => pfBlockEnc (vs.take Config.blockSize) ++ pfWindowsEnc k (vs.drop Config.blockSize)

/-- `PfStreamEnc(V)` (R240): `ceil(len(V)/128)` blocks. -/
def pfStreamEnc (vs : List Nat) : List Byte := pfWindowsEnc (ceilDiv vs.length Config.blockSize) vs

/-- The loop of `PfStreamDec` (R242) on the bytes left and the capacity left. A block takes at least 4 bytes, so
as many rounds as there are bytes always suffice: the arm without rounds left is never reached. -/
def pfBlocksDec (ew : ElemWidth) : Nat → List Byte → Nat → Except ErrCode (List Nat × Nat)
  | _, [], _ => .ok ([], 0)
  | 0, _ :: _, _ => .error .corrupt
  | fuel + 1, b :: bs, cap =>
    match pfBlockDec (b :: bs) cap ew with
    | .error f => .error f.code
    | .ok (w, blockLen) =>
      match pfBlocksDec ew fuel ((b :: bs).drop blockLen) (cap - w.length) with
      | .error e => .error e
      | .ok (ws, more) => .ok (w ++ ws, blockLen + more)

/-- `PfStreamDec` on the bytes of the stream (R242): the values and the bytes consumed. -/
def pfStreamDec (bs : List Byte) (cap : Nat) (ew : ElemWidth) : Except ErrCode (List Nat × Nat) :=
  pfBlocksDec ew bs.length bs cap

/-- The own part of `PFCOMP` (R241). A block that does not fit what is left of `DCAP` exists exactly when the whole
stream does not fit `DCAP` (log 9); then the whole destination region is unspecified (R244, R269). -/
def pfcompReply (ew : ElemWidth) (s : State) : Reply :=
  let out := pfStreamEnc (sourceElems ew.bytes s)
  if s.dcap.toNat < out.length then .fail .capacity (destBytes (.pfcomp ew) s)
  else .done out out.length 0

/-- `PFCOMP` (R241). -/
def execPfcomp (ew : ElemWidth) (s : State) : Host.Outcome State Fault Refusal :=
  if !regionsLegal (.pfcomp ew) s then .next (s.raise .param)
  else .next (s.finish (pfcompReply ew s))

/-- The own part of `PFDECOMP` (R243): after any fault of a block the whole destination region is unspecified
(R244, R269). -/
def pfdecompReply (ew : ElemWidth) (s : State) : Reply :=
  match pfStreamDec (sourceStream s) s.dcap.toNat ew with
  | .error e => .fail e (destBytes (.pfdecomp ew) s)
  | .ok (vs, used) => .done (elemBytes ew.bytes vs) vs.length used

/-- `PFDECOMP` (R243). -/
def execPfdecomp (ew : ElemWidth) (s : State) : Host.Outcome State Fault Refusal :=
  if !regionsLegal (.pfdecomp ew) s then .next (s.raise .param)
  else .next (s.finish (pfdecompReply ew s))

end Sys2Proof.Machine
end

