-- ==== Sys2Proof/Machine/Dispatch.lean ====
section
/-! DEFINITION. The meaning of every command: one arm per constructor of `Instr`. -/

namespace Sys2Proof.Machine

def exec (i : Instr) (s : State) : Host.Outcome State Fault Refusal :=
  match i with
  -- 40_bitpack.md
  | .hbi => Sys2Proof.Machine.execHbi s
  | .pack ew bw => Sys2Proof.Machine.execPack ew bw s
  | .unpack ew bw => Sys2Proof.Machine.execUnpack ew bw s
  -- 41_groupvarint.md
  | .gvci => Sys2Proof.Machine.execGvci s
  | .gvdi => Sys2Proof.Machine.execGvdi s
  | .gvc => Sys2Proof.Machine.execGvc s
  | .gvd => Sys2Proof.Machine.execGvd s
  -- 42_pfordelta_block.md
  | .pfbits ew => Sys2Proof.Machine.execPfbits ew s
  | .pfenc ew => Sys2Proof.Machine.execPfenc ew s
  | .pfdec ew => Sys2Proof.Machine.execPfdec ew s
  -- 43_pfordelta_stream.md
  | .pfcomp ew => Sys2Proof.Machine.execPfcomp ew s
  | .pfdecomp ew => Sys2Proof.Machine.execPfdecomp ew s

end Sys2Proof.Machine
end

