-- ==== Sys2Proof/Machine/HostBus.lean ====
section
/-! DEFINITION. What each access of the host does to the unit (R27, R31, R62), and the host-program notation
(R86). -/

namespace Sys2Proof.Machine

/-- A write of `CMD`: the value is stored, decoded and executed to its end in one step; a word that selects no
command faults `E_ILLEGAL`, touches no memory and examines no operand register (R27, R31, R84, R265). -/
def startCommand (w : Word) (s : State) : Host.Outcome State Fault Refusal :=
  match decode w with
  | .ok i => exec i (s.writeReg 0 w)
  | .error _ => .next ((s.writeReg 0 w).raise .illegal)

/-- One access of the host (R31, R62). The value read lands in `readData` (log 4). -/
def hostAccess (a : HostAccess) (s : State) : Host.Outcome State Fault Refusal :=
  match a with
  | .write 0 v => startCommand v s
  | .write index v => .next (s.writeReg index v)
  | .read index => .next { s with readData := s.readReg index }
  | .store addr v =>
    if addr < Config.memoryBytes then .next { s with mem := s.mem.write addr v } else .fault .noSuchAddress
  | .load addr =>
    if addr < Config.memoryBytes then .next { s with readData := (s.mem.read addr).setWidth 32 }
    else .fault .noSuchAddress
  | .reset => .next s.resetRegisters

/-- The operands of one line of a host program (R86). -/
structure LineOperands where
  /-- `dst` -/
  dst : Word
  /-- `dcap` -/
  dcap : Word
  /-- `src` -/
  src : Word
  /-- `slen` -/
  slen : Word
  /-- `arg`, the count of `UNPACK` and `GVD` and the value of `HBI` -/
  arg : Word
deriving DecidableEq, Repr

/-- The operand-register writes of a line: each only if the operand is present, ignored ones omitted (R86). -/
def operandWrites (i : Instr) (o : LineOperands) : List HostAccess :=
  match i with
  | .hbi => [.write 5 o.arg]
  | .pfbits _ => [.write 3 o.src, .write 4 o.slen]
  | .unpack _ _ => [.write 1 o.dst, .write 2 o.dcap, .write 3 o.src, .write 4 o.slen, .write 5 o.arg]
  | .gvd => [.write 1 o.dst, .write 2 o.dcap, .write 3 o.src, .write 4 o.slen, .write 5 o.arg]
  | .pack _ _ => [.write 1 o.dst, .write 2 o.dcap, .write 3 o.src, .write 4 o.slen]
  | .gvci => [.write 1 o.dst, .write 2 o.dcap, .write 3 o.src, .write 4 o.slen]
  | .gvdi => [.write 1 o.dst, .write 2 o.dcap, .write 3 o.src, .write 4 o.slen]
  | .gvc => [.write 1 o.dst, .write 2 o.dcap, .write 3 o.src, .write 4 o.slen]
  | .pfenc _ => [.write 1 o.dst, .write 2 o.dcap, .write 3 o.src, .write 4 o.slen]
  | .pfdec _ => [.write 1 o.dst, .write 2 o.dcap, .write 3 o.src, .write 4 o.slen]
  | .pfcomp _ => [.write 1 o.dst, .write 2 o.dcap, .write 3 o.src, .write 4 o.slen]
  | .pfdecomp _ => [.write 1 o.dst, .write 2 o.dcap, .write 3 o.src, .write 4 o.slen]

/-- One line of a host program: the operand writes, then the write of `CMD` (R86, R297). -/
def commandLine (i : Instr) (o : LineOperands) : List HostAccess := operandWrites i o ++ [.write 0 (encode i)]

end Sys2Proof.Machine
end

