-- ==== Sys2Proof/Machine/Step.lean ====
section
/-! DEFINITION. One step of the machine: the host's oldest pending access (log 1). -/

namespace Sys2Proof.Machine

/-- The unit acts only when the host does: a step takes the host's oldest pending access and carries it out whole
(R27, R31). With none pending the unit is idle and nothing changes (R276, log 11). -/
def step (s : State) : Host.Outcome State Fault Refusal :=
  match s.pending with
  | [] => .next s
  | a :: rest => hostAccess a { s with pending := rest }

/-- The same state with a write of `CMD` as the very next access: the command word is taken from the value written
to `CMD`, never from memory (R64). -/
def State.withFetchWord (s : State) (nbits w : Nat) : State :=
  { s with pending := .write 0 (BitVec.ofNat 32 (w % 2 ^ nbits)) :: s.pending }

end Sys2Proof.Machine
end

