-- ==== Sys2Proof/Safety.lean ====
section
/-! DEFINITION. The terms the statements use: what a command may touch, how it answers, what every step keeps, and
the spec's loops in their own form, to hold the model's loop-free definitions against. -/

namespace Sys2Proof.Machine

/-! ### What stays, and what is stored -/

/-- `CMD`, the five operand registers and the model's own host side are as before: no command writes them (R22 to
R27). -/
def KeepsHostSide (s t : State) : Prop :=
  t.cmd = s.cmd ∧ t.dst = s.dst ∧ t.dcap = s.dcap ∧ t.src = s.src ∧ t.slen = s.slen ∧ t.arg = s.arg ∧
    t.pending = s.pending ∧ t.readData = s.readData

/-- Every byte outside the `len` bytes from `base` on reads as before. -/
def UnchangedOutside (s t : State) (base len : Nat) : Prop :=
  ∀ a, ¬(base ≤ a ∧ a < base + len) → t.mem.read a = s.mem.read a

/-- Every byte of memory reads as before. -/
def MemoryUnchanged (s t : State) : Prop := ∀ a, t.mem.read a = s.mem.read a

/-- The bytes `out` stand from `DST` on, and every other byte reads as before. -/
def StoredAtDst (s t : State) (out : List Byte) : Prop :=
  (∀ j, j < out.length → t.mem.read (s.dst.toNat + j) = out.getD j 0) ∧
    UnchangedOutside s t s.dst.toNat out.length

/-- A command that succeeds (R267: `STATUS = 0x01`): its results, the bytes it stored, and nothing else. -/
def Succeeds (s t : State) (out : List Byte) (rcnt rcons : Nat) : Prop :=
  t.status = 0x01 ∧ t.rcnt.toNat = rcnt ∧ t.rcons.toNat = rcons ∧ KeepsHostSide s t ∧ t.drawn = s.drawn ∧
    StoredAtDst s t out

/-- A command that faults with code `c` (R267): `STATUS = 2 | c << 4`, both results 0, the host side kept. What
memory holds is said beside it (R269). -/
def EndsInFault (s t : State) (e : ErrCode) : Prop :=
  t.status = BitVec.ofNat 32 (2 ||| (e.code <<< 4)) ∧ t.rcnt = 0 ∧ t.rcons = 0 ∧ KeepsHostSide s t

/-- A fault that leaves every byte of memory as it was, and draws no free byte. -/
def FaultsUntouched (s t : State) (e : ErrCode) : Prop :=
  EndsInFault s t e ∧ MemoryUnchanged s t ∧ t.drawn = s.drawn

/-- The values of an element or word array in memory: element `i` is `MemRead(base + i*w, w)` (R54, R55). -/
abbrev ElemsAt (m : Memory) (base w : Nat) (vs : List Nat) : Prop :=
  ∀ i, i < vs.length → m.readLe (base + i * w) w = vs.getD i 0

/-- An address of the source region (R58). -/
def InSource (i : Instr) (s : State) (a : Nat) : Prop :=
  s.src.toNat ≤ a ∧ a < s.src.toNat + sourceBytes i s

/-- An address of the destination region (R58). -/
def InDest (i : Instr) (s : State) (a : Nat) : Prop :=
  s.dst.toNat ≤ a ∧ a < s.dst.toNat + destBytes i s

/-- All values are below `2^b`. -/
abbrev AllBelow (b : Nat) (vs : List Nat) : Prop := ∀ v ∈ vs, v < 2 ^ b

/-- The conditions of R84 on a word: unknown `OP`, a reserved bit set, `EW = 3`, `EW ≠ 2` where it must be 2,
`BW ≠ 0` where it must be 0. -/
abbrev IllegalWord (w : Word) : Prop :=
  w.toNat % 256 ∉ [0x01, 0x02, 0x03, 0x10, 0x11, 0x12, 0x13, 0x20, 0x21, 0x22, 0x30, 0x31] ∨
    w.toNat / 1024 % 64 ≠ 0 ∨ w.toNat / 4194304 ≠ 0 ∨ w.toNat / 256 % 4 = 3 ∨
    (w.toNat % 256 ∈ [0x01, 0x10, 0x11, 0x12, 0x13] ∧ w.toNat / 256 % 4 ≠ 2) ∨
    (w.toNat % 256 ∉ [0x02, 0x03] ∧ w.toNat / 65536 % 64 ≠ 0)

/-- An operand a command is not defined for, before its regions are looked at (R264). -/
abbrev ParamOwnCause (i : Instr) (s : State) : Prop :=
  match i with
  | .hbi => False
  | .pack _ bw => bw = 0 ∨ 32 < bw
  | .unpack _ bw => bw = 0 ∨ 32 < bw
  | .gvci => s.slen.toNat ≠ 4
  | .gvdi => False
  | .gvc => False
  | .gvd => False
  | .pfbits _ => 128 < s.slen.toNat
  | .pfenc _ => s.slen.toNat = 0 ∨ 128 < s.slen.toNat
  | .pfdec _ => False
  | .pfcomp _ => False
  | .pfdecomp _ => False

/-- Every cause of `E_PARAM` (R264): an operand the command is not defined for, a non-empty region past the top of
the address space (R58), an address in both regions (R59). -/
def ParamCause (i : Instr) (s : State) : Prop :=
  ParamOwnCause i s ∨
    (0 < sourceBytes i s ∧ 2 ^ 32 < s.src.toNat + sourceBytes i s) ∨
    (0 < destBytes i s ∧ 2 ^ 32 < s.dst.toNat + destBytes i s) ∨
    ∃ a, InSource i s a ∧ InDest i s a

/-- The state after the operand writes of a line of a host program (R86). -/
def afterOperandWrites (s : State) (as : List HostAccess) : State :=
  as.foldl (fun s a => match a with | .write k v => s.writeReg k v | _ => s) s

/-- The elements of `w` bytes that `enc` encodes come back from `dec`: whenever `enc` succeeds at `s`, leaving `t`,
and `u` is any state whose source region is the bytes `enc` stored, with room for the elements and legal regions
(and, where `dec` is `GVD`, the right count, R300), `dec` at `u` succeeds, reports as many elements, consumes all of
those bytes, and stores the elements `s` held. -/
def Restores (enc dec : Instr) (w : Nat) : Prop :=
  ∀ s t u : State, exec enc s = .next t → t.status = 0x01 →
    (∀ a, s.dst.toNat ≤ a → a < s.dst.toNat + t.rcnt.toNat → u.mem.read a = t.mem.read a) →
    u.src = s.dst → u.slen = t.rcnt → s.slen.toNat ≤ u.dcap.toNat → (dec = .gvd → u.arg = s.slen) →
    regionsLegal dec u = true →
    ∃ v, exec dec u = .next v ∧ v.status = 0x01 ∧ v.rcnt = s.slen ∧ v.rcons = t.rcnt ∧
      ∀ i, i < s.slen.toNat →
        v.mem.readLe (u.dst.toNat + i * w) w = s.mem.readLe (s.src.toNat + i * w) w

/-! ### What every step keeps -/

/-- The values `STATUS` takes (R28, R267, U13). -/
abbrev LegalStatus (w : Word) : Prop :=
  w = 0x00 ∨ w = 0x01 ∨ w = 0x12 ∨ w = 0x22 ∨ w = 0x32 ∨ w = 0x42

/-- The invariant of the unit: the memory is in its canonical form, inside the address space (R50); `STATUS` holds
one of its six values (R28); and `RCNT` and `RCONS` are 0 unless the last command succeeded (R29, R30). -/
def State.Inv (s : State) : Prop :=
  s.mem.wf ∧ LegalStatus s.status ∧ (s.status ≠ 0x01 → s.rcnt = 0 ∧ s.rcons = 0)

/-! ### The loops of the rules, in their own form -/

/-- One round of the loop of `PackBits` (R122): the low part of field `i` into word `k`, the high part, if the field
straddles, into word `k+1`. -/
def packRound (bw : Nat) (wd : List Nat) (i v : Nat) : List Nat :=
  let f := v % 2 ^ bw
  let k := i * bw / 32
  let o := i * bw % 32
  let wd := wd.set k (wd.getD k 0 ||| ((f <<< o) % 2 ^ 32))
  if 32 < o + bw then wd.set (k + 1) (wd.getD (k + 1) 0 ||| (f >>> (32 - o))) else wd

/-- The loop of `PackBits` from field `i` on (R122). -/
def packRounds (bw : Nat) : List Nat → Nat → List Nat → List Nat
  | wd, _, [] => wd
  | wd, i, v :: vs => packRounds bw (packRound bw wd i v) (i + 1) vs

/-- `PackBits(V, bw)` as the loop of R122. -/
def packLoop (vs : List Nat) (bw : Nat) : List Nat :=
  packRounds bw (List.replicate (ceilDiv (vs.length * bw) 32) 0) 0 vs

/-- Field `i` as the loop of `UnpackBits` computes it (R123). -/
def unpackRound (wd : List Nat) (bw i : Nat) : Nat :=
  let k := i * bw / 32
  let o := i * bw % 32
  let f := wd.getD k 0 >>> o
  (if 32 < o + bw then f ||| (wd.getD (k + 1) 0 <<< (32 - o)) else f) % 2 ^ bw

/-- `UnpackBits(Wd, bw, n)` as the loop of R123. -/
def unpackLoop (wd : List Nat) (bw n : Nat) : List Nat := (List.range n).map (unpackRound wd bw)

/-- The block loop of `PFCOMP` (R241): `off` bytes are written; `none` when a block does not fit what is left of
`cap`, else the bytes of the remaining windows. -/
def pfcompRounds (cap : Nat) : Nat → Nat → List Nat → Option (List Byte)
  | 0, _, _ => some []
  | k + 1, off, vs =>
    let blk := pfBlockEnc (vs.take Config.blockSize)
    if cap < off + blk.length then none
    else (pfcompRounds cap k (off + blk.length) (vs.drop Config.blockSize)).map (blk ++ ·)

/-- The block loop of `PFCOMP` over a whole sequence (R241). -/
def pfcompLoop (vs : List Nat) (cap : Nat) : Option (List Byte) :=
  pfcompRounds cap (ceilDiv vs.length Config.blockSize) 0 vs

end Sys2Proof.Machine
end

