-- ==== Sys2Proof/Certificates/Slice0/Obligations.lean ====
section
/-! DEFINITION. The statements for the provers. Each docstring names the rules of spec/ it formalises; OBLIGATIONS.json
says of each whether a rule states it or it is derived. -/

open Sys2Proof Sys2Proof.Machine

/-! ### The command word -/

/-- Decoding the word of a well-formed command gives the command back, for every element width and every value the
`BW` field holds (R80 to R85). -/
def Obligations.DecodeInvertsEncode : Prop :=
  ∀ i : Instr, i.wellFormed = true → decode (encode i) = .ok i

/-- A word that decodes is the word of the command it decodes to, and that command is well-formed: no two words mean
the same command and no bit is dropped (R80 to R85). -/
def Obligations.EncodeInvertsDecode : Prop :=
  ∀ (w : Word) (i : Instr), decode w = .ok i → i.wellFormed = true ∧ encode i = w

/-- R265: the words of R84, and no others, fault `E_ILLEGAL`, whatever memory and the operand registers hold; no
memory is touched. Every other word runs the command it decodes to. -/
def Obligations.IllegalWordsFault : Prop :=
  ∀ (s : State) (w : Word) (rest : List HostAccess), s.pending = .write 0 w :: rest →
    (IllegalWord w →
      step s = .next { s with pending := rest, cmd := w, status := 0x42, rcnt := 0, rcons := 0 }) ∧
    (¬IllegalWord w → ∃ i, decode w = .ok i ∧ step s = exec i { s with pending := rest, cmd := w })

/-- Words written out from the table of R81 and the fields of R80 (95_test_vectors.md, section 2.5) decode to their
commands. -/
def Obligations.TableWordsDecode : Prop :=
  decode 0x00000201 = .ok .hbi ∧ decode 0x00030002 = .ok (.pack .b 3) ∧ decode 0x00200202 = .ok (.pack .w 32) ∧
    decode 0x000C0103 = .ok (.unpack .h 12) ∧ decode 0x003F0002 = .ok (.pack .b 63) ∧
    decode 0x00000210 = .ok .gvci ∧ decode 0x00000211 = .ok .gvdi ∧ decode 0x00000212 = .ok .gvc ∧
    decode 0x00000213 = .ok .gvd ∧ decode 0x00000120 = .ok (.pfbits .h) ∧ decode 0x00000221 = .ok (.pfenc .w) ∧
    decode 0x00000022 = .ok (.pfdec .b) ∧ decode 0x00000130 = .ok (.pfcomp .h) ∧
    decode 0x00000231 = .ok (.pfdecomp .w)

/-! ### The step and the host's accesses -/

/-- A step whose access is a write of `CMD` with the word of a command runs that command, on the state with the word
in `CMD` and the access taken (R27, R31, R85; the queue of accesses is the model's own, log 1). -/
def Obligations.StepRunsTheCommandWritten : Prop :=
  ∀ (s : State) (w : Word) (i : Instr) (rest : List HostAccess),
    s.pending = .write 0 w :: rest → decode w = .ok i →
    step s = exec i { s with pending := rest, cmd := w }

/-- A line of a host program (R86) is the writes of the operands its command has and then the command, run on the
state those writes leave. -/
def Obligations.HostLineRunsItsCommand : Prop :=
  ∀ (i : Instr) (o : LineOperands) (s : State) (rest : List HostAccess), i.wellFormed = true →
    s.pending = commandLine i o ++ rest →
    core.run (commandLine i o).length s =
      exec i { afterOperandWrites s (operandWrites i o) with pending := rest, cmd := encode i }

/-- R21 and R31: a host write of register 1 to 5 changes that register and no other, a write of 6, 7, 8 or of an
index above 8 changes nothing; a host read returns the register, 0 for an index above 8, and changes nothing. Writes
of `CMD` are `StepRunsTheCommandWritten` and `IllegalWordsFault`. -/
def Obligations.HostReachesTheRegisters : Prop :=
  (∀ (s : State) (index : Nat) (v : Word) (rest : List HostAccess),
    s.pending = .write index v :: rest → index ≠ 0 →
    ∃ t, step s = .next t ∧
      (∀ j, t.readReg j = if j = index ∧ index ≤ 5 then v else s.readReg j) ∧
      t.mem = s.mem ∧ t.pending = rest ∧ t.readData = s.readData ∧ t.drawn = s.drawn) ∧
  (∀ (s : State) (index : Nat) (rest : List HostAccess), s.pending = .read index :: rest →
    ∃ v, step s = .next { s with pending := rest, readData := v } ∧
      (index = 0 → v = s.cmd) ∧ (index = 1 → v = s.dst) ∧ (index = 2 → v = s.dcap) ∧ (index = 3 → v = s.src) ∧
      (index = 4 → v = s.slen) ∧ (index = 5 → v = s.arg) ∧ (index = 6 → v = s.status) ∧
      (index = 7 → v = s.rcnt) ∧ (index = 8 → v = s.rcons) ∧ (9 ≤ index → v = 0))

/-- A host store changes the one byte it names, a host load returns the byte (R50, R62). At an address outside the
address space both stop: that stop is the model's choice (log 8). -/
def Obligations.HostReachesTheMemory : Prop :=
  (∀ (s : State) (b : Nat) (v : Byte) (rest : List HostAccess), s.pending = .store b v :: rest →
    (b < 2 ^ 32 → ∃ m, step s = .next { s with pending := rest, mem := m } ∧
      ∀ a, m.read a = if a = b then v else s.mem.read a) ∧
    (2 ^ 32 ≤ b → step s = .fault .noSuchAddress)) ∧
  (∀ (s : State) (b : Nat) (rest : List HostAccess), s.pending = .load b :: rest →
    (b < 2 ^ 32 → ∃ v, step s = .next { s with pending := rest, readData := v } ∧ v.toNat = (s.mem.read b).toNat) ∧
    (2 ^ 32 ≤ b → step s = .fault .noSuchAddress))

/-- R36: after reset every interface register reads 0, `STATE` is `IDLE` and `ERR` is 0; reset starts no command and
changes no byte of memory. Said of the state the model starts in and of a reset at any time (log 6). -/
def Obligations.ResetClearsTheRegisters : Prop :=
  ((∀ j, State.reset.readReg j = 0) ∧ statusState State.reset.status = 0 ∧ statusErr State.reset.status = 0) ∧
  ∀ (s : State) (rest : List HostAccess), s.pending = .reset :: rest →
    ∃ t, step s = .next t ∧ (∀ j, t.readReg j = 0) ∧ statusState t.status = 0 ∧ statusErr t.status = 0 ∧
      t.mem = s.mem ∧ t.pending = rest

/-! ### What every step and every command keeps -/

/-- The reset state meets the invariant (R36, R28 to R30; the memory's form is the model's, log 2). -/
def Obligations.ResetMeetsTheInvariant : Prop := State.reset.Inv

/-- Every step from a state that meets the invariant leaves one that does: the memory keeps its canonical form inside
the address space (R50, R58), `STATUS` holds one of its six values (R28), and `RCNT` and `RCONS` are 0 unless the last
command succeeded (R29, R30). -/
def Obligations.StepKeepsTheInvariant : Prop :=
  ∀ s t : State, s.Inv → step s = .next t → t.Inv

/-- R267: every word written to `CMD` ends in a next state; it succeeds with `STATUS = 0x01`, or faults with a code
`c` of 1 to 4, `STATUS = 2 | c << 4`, and both results 0; `CMD` and the operand registers are kept. -/
def Obligations.EveryCommandEnds : Prop :=
  ∀ (w : Word) (s : State), ∃ t, startCommand w s = .next t ∧ KeepsHostSide { s with cmd := w } t ∧
    (t.status = 0x01 ∨
      ∃ c, 1 ≤ c ∧ c ≤ 4 ∧ t.status = BitVec.ofNat 32 (2 ||| (c <<< 4)) ∧ t.rcnt = 0 ∧ t.rcons = 0)

/-- Whatever a command does and however it ends, no byte outside `[DST, DST + DCAP * unit)` changes (R23, R60,
R269). -/
def Obligations.OnlyTheDestinationChanges : Prop :=
  ∀ (i : Instr) (s t : State), exec i s = .next t → UnchangedOutside s t s.dst.toNat (destBytes i s)

/-- A command depends on the five operand registers and on the bytes of its source region, and on nothing else: not
on the results of earlier commands, not on any other byte (R25, R35, R268, R292). Two states that agree there (and in
the count of free bytes drawn, log 3) end alike, and every byte they agreed on they agree on after. -/
def Obligations.OnlyOperandsAndSourceMatter : Prop :=
  ∀ (i : Instr) (s u : State),
    u.dst = s.dst → u.dcap = s.dcap → u.src = s.src → u.slen = s.slen → u.arg = s.arg → u.drawn = s.drawn →
    (∀ a, InSource i s a → u.mem.read a = s.mem.read a) →
    ∃ t v, exec i s = .next t ∧ exec i u = .next v ∧ v.status = t.status ∧ v.rcnt = t.rcnt ∧ v.rcons = t.rcons ∧
      v.drawn = t.drawn ∧ ∀ a, u.mem.read a = s.mem.read a → v.mem.read a = t.mem.read a

/-- The bytes consumed (R30, R32): a command that is no decoder reports 0; a decoder reports no more than its source
region holds; `PFDECOMP` reports all of it. -/
def Obligations.ConsumedBytes : Prop :=
  ∀ (i : Instr) (s t : State), exec i s = .next t → t.status = 0x01 →
    t.rcons.toNat ≤ sourceBytes i s ∧
    (∀ ew bw, i = .hbi ∨ i = .pack ew bw ∨ i = .gvci ∨ i = .gvc ∨ i = .pfbits ew ∨ i = .pfenc ew ∨ i = .pfcomp ew →
      t.rcons = 0) ∧
    (∀ ew, i = .pfdecomp ew → t.rcons = s.slen)

/-! ### Memory and regions -/

/-- R53: `MemWrite(addr, n, v)` stores byte `j` of `v` at `addr + j`, and no other byte changes. -/
def Obligations.MemWriteIsLittleEndian : Prop :=
  ∀ (m : Memory) (addr n v : Nat),
    (∀ j, j < n → ((m.writeLe addr n v).read (addr + j)).toNat = (v >>> (8 * j)) % 256) ∧
    ∀ b, ¬(addr ≤ b ∧ b < addr + n) → (m.writeLe addr n v).read b = m.read b

/-- `MemRead(addr, n)` is the sum `Σ_j mem[addr + j] * 256^j` (R52), and gives back what `MemWrite` stored there, in
its `8n` low bits. -/
def Obligations.MemReadIsTheByteSum : Prop :=
  ∀ (m : Memory) (addr n v : Nat),
    m.readLe addr n = ((List.range n).map (fun j => (m.read (addr + j)).toNat * 256 ^ j)).sum ∧
    (m.writeLe addr n v).readLe addr n = v % 256 ^ n

/-- Two memories in canonical form that read alike at every address are the same data. The form is the model's choice
(log 2). -/
def Obligations.CanonicalMemoriesAreEqualData : Prop :=
  ∀ m m' : Memory, m.wf → m'.wf → (∀ a, m.read a = m'.read a) → m = m'

/-- The region check accepts exactly the operands of R58 and R59: no non-empty region passes the top, and no address
is in both. -/
def Obligations.LegalRegionsAreApart : Prop :=
  ∀ (i : Instr) (s : State), regionsLegal i s = true ↔
    (0 < sourceBytes i s → s.src.toNat + sourceBytes i s ≤ 2 ^ 32) ∧
    (0 < destBytes i s → s.dst.toNat + destBytes i s ≤ 2 ^ 32) ∧
    ∀ a, ¬(InSource i s a ∧ InDest i s a)

/-! ### Faults of the operands -/

/-- The causes of `E_PARAM`, and no others; memory is unchanged (R264). For `PFCOMP` and `PFDECOMP` "memory is
unchanged" is the model's reading (log 5): R264, R58 and R59 say so, the last row of the table of R269 says otherwise. -/
def Obligations.ParameterFaults : Prop :=
  ∀ (i : Instr) (s t : State), exec i s = .next t →
    (t.status = 0x32 ↔ ParamCause i s) ∧
    (t.status = 0x32 → t = { s with status := 0x32, rcnt := 0, rcons := 0 })

/-- A destination too small is `E_CAPACITY` and nothing is written (R262, for the commands whose need is known from
their operands and source alone; `PFDEC` is in `BlockHeaderIsChecked`, the stream commands in
`StreamFaultsKeepTheRest` and `StreamThatDoesNotFit`). `UNPACK` looks at the source first (R266). -/
def Obligations.CapacityFaultsWriteNothing : Prop :=
  ∀ s : State,
    (∀ ew bw, 1 ≤ bw → bw ≤ 32 → regionsLegal (.pack ew bw) s = true →
      s.dcap.toNat < ceilDiv (s.slen.toNat * bw) 32 →
      exec (.pack ew bw) s = .next { s with status := 0x12, rcnt := 0, rcons := 0 }) ∧
    (∀ ew bw, 1 ≤ bw → bw ≤ 32 → regionsLegal (.unpack ew bw) s = true →
      ceilDiv (s.arg.toNat * bw) 32 ≤ s.slen.toNat → s.dcap.toNat < s.arg.toNat →
      exec (.unpack ew bw) s = .next { s with status := 0x12, rcnt := 0, rcons := 0 }) ∧
    (∀ v0 v1 v2 v3, regionsLegal .gvci s = true → s.slen.toNat = 4 →
      ElemsAt s.mem s.src.toNat 4 [v0, v1, v2, v3] → s.dcap.toNat < (gvItemEnc v0 v1 v2 v3).length →
      exec .gvci s = .next { s with status := 0x12, rcnt := 0, rcons := 0 }) ∧
    (regionsLegal .gvdi s = true → s.dcap.toNat < 4 →
      exec .gvdi s = .next { s with status := 0x12, rcnt := 0, rcons := 0 }) ∧
    (∀ vs, regionsLegal .gvc s = true → vs.length = s.slen.toNat → ElemsAt s.mem s.src.toNat 4 vs →
      s.dcap.toNat < (gvEnc vs).length →
      exec .gvc s = .next { s with status := 0x12, rcnt := 0, rcons := 0 }) ∧
    (regionsLegal .gvd s = true → s.dcap.toNat < s.arg.toNat →
      exec .gvd s = .next { s with status := 0x12, rcnt := 0, rcons := 0 }) ∧
    (∀ ew vs, regionsLegal (.pfenc ew) s = true → 1 ≤ vs.length → vs.length ≤ 128 → vs.length = s.slen.toNat →
      ElemsAt s.mem s.src.toNat ew.bytes vs → s.dcap.toNat < (pfBlockEnc vs).length →
      exec (.pfenc ew) s = .next { s with status := 0x12, rcnt := 0, rcons := 0 })

/-- A source too short for `UNPACK` or for one `GVDI` group is `E_CORRUPT`, found before any write (R263, R269);
`UNPACK` reports it before a destination too small, `GVDI` after (R266). -/
def Obligations.ShortSourceFaults : Prop :=
  ∀ s : State,
    (∀ ew bw, 1 ≤ bw → bw ≤ 32 → regionsLegal (.unpack ew bw) s = true →
      s.slen.toNat < ceilDiv (s.arg.toNat * bw) 32 →
      exec (.unpack ew bw) s = .next { s with status := 0x22, rcnt := 0, rcons := 0 }) ∧
    (regionsLegal .gvdi s = true → 4 ≤ s.dcap.toNat →
      (s.slen.toNat = 0 ∨
        s.slen.toNat < 1 + (selectorLengths (s.mem.read s.src.toNat).toNat).sum) →
      exec .gvdi s = .next { s with status := 0x22, rcnt := 0, rcons := 0 })

/-- A destination of the size R295 names always suffices for the encoders: `5 * SLEN` bytes for `GVC`, 576 for
`PFENC`, `576 * ceil(SLEN / 128)` for `PFCOMP`. -/
def Obligations.PreSizedDestinationSuffices : Prop :=
  ∀ s : State,
    (regionsLegal .gvc s = true → 5 * s.slen.toNat ≤ s.dcap.toNat →
      ∃ t, exec .gvc s = .next t ∧ t.status = 0x01) ∧
    (∀ ew, regionsLegal (.pfenc ew) s = true → 1 ≤ s.slen.toNat → s.slen.toNat ≤ 128 → 576 ≤ s.dcap.toNat →
      ∃ t, exec (.pfenc ew) s = .next t ∧ t.status = 0x01) ∧
    (∀ ew, regionsLegal (.pfcomp ew) s = true → 576 * ceilDiv s.slen.toNat 128 ≤ s.dcap.toNat →
      ∃ t, exec (.pfcomp ew) s = .next t ∧ t.status = 0x01)

/-! ### The bit packer -/

/-- R120: `HBI(v)` is the least width that represents `v`, 1 for 0, and `max(1, 32 - clz32(v))`. -/
def Obligations.HighBitIdxIsTheBitLength : Prop :=
  ∀ v : Nat, v < 2 ^ 32 →
    1 ≤ highBitIdx v ∧ highBitIdx v ≤ 32 ∧ (v = 0 → highBitIdx v = 1) ∧
    (v ≠ 0 → 2 ^ (highBitIdx v - 1) ≤ v ∧ v < 2 ^ highBitIdx v) ∧
    highBitIdx v = max 1 (32 - (BitVec.ofNat 32 v).clz.toNat) ∧
    (∀ k, v = 2 ^ k → highBitIdx v = k + 1) ∧ (∀ k, 1 ≤ k → v = 2 ^ k - 1 → highBitIdx v = k)

/-- `HBI` always succeeds; `RCNT` is the least width that represents `ARG`, `RCONS` is 0, and nothing else changes
(R121). -/
def Obligations.HbiReportsTheBitLength : Prop :=
  ∀ s : State, ∃ t, exec .hbi s = .next t ∧ Succeeds s t [] t.rcnt.toNat 0 ∧ t.mem = s.mem ∧
    1 ≤ t.rcnt.toNat ∧ t.rcnt.toNat ≤ 32 ∧ (s.arg = 0 → t.rcnt = 1) ∧
    (s.arg ≠ 0 → 2 ^ (t.rcnt.toNat - 1) ≤ s.arg.toNat ∧ s.arg.toNat < 2 ^ t.rcnt.toNat)

/-- R122: the loop of `PackBits` computes what its form without a loop says, `Wd[k] = (S div 2^(32k)) mod 2^32` with
`S` the sum of the fields at their places, a value of `2^bw` or more taken modulo `2^bw`. -/
def Obligations.PackLoopAgrees : Prop :=
  ∀ (vs : List Nat) (bw : Nat), 1 ≤ bw → bw ≤ 32 →
    packLoop vs bw = packBits vs bw ∧
    ∀ k, k < ceilDiv (vs.length * bw) 32 →
      (packBits vs bw).getD k 0 =
        ((List.range vs.length).map (fun i => vs.getD i 0 % 2 ^ bw * 2 ^ (i * bw))).sum / 2 ^ (32 * k) % 2 ^ 32

/-- R123: the loop of `UnpackBits` computes what its form without a loop says; words beyond the last needed one are
not read, and bits of the last word above the last field are ignored. -/
def Obligations.UnpackLoopAgrees : Prop :=
  ∀ (wd : List Nat) (bw n : Nat), 1 ≤ bw → bw ≤ 32 → AllBelow 32 wd → ceilDiv (n * bw) 32 ≤ wd.length →
    unpackLoop wd bw n = unpackBits wd bw n ∧
    (∀ i, i < n → (unpackBits wd bw n).getD i 0 =
      ((List.range wd.length).map (fun k => wd.getD k 0 * 2 ^ (32 * k))).sum / 2 ^ (i * bw) % 2 ^ bw) ∧
    unpackBits (wd.take (ceilDiv (n * bw) 32)) bw n = unpackBits wd bw n ∧
    ∀ wd', wordSum wd' % 2 ^ (n * bw) = wordSum wd % 2 ^ (n * bw) → unpackBits wd' bw n = unpackBits wd bw n

/-- Unpacking what was packed gives each value modulo `2^bw`, so the values themselves where they fit (the inference
the spec draws as R126, and R129). -/
def Obligations.UnpackInvertsPack : Prop :=
  ∀ (vs : List Nat) (bw : Nat), 1 ≤ bw → bw ≤ 32 →
    unpackBits (packBits vs bw) bw vs.length = vs.map (· % 2 ^ bw) ∧
    (AllBelow bw vs → unpackBits (packBits vs bw) bw vs.length = vs)

/-- Where every packed bit is: bit `t` of field `i` is bit `(i*bw + t) mod 32` of word `(i*bw + t) div 32`, for fields
that straddle as for others (the inference the spec draws as R128), the bits above the last field are 0 (R130), and
there are exactly `ceil(n*bw / 32)` words of 32 bits, at most 128 for a block (R127). -/
def Obligations.PackedBitsLieInOrder : Prop :=
  ∀ (vs : List Nat) (bw : Nat), 1 ≤ bw → bw ≤ 32 →
    (packBits vs bw).length = ceilDiv (vs.length * bw) 32 ∧ (vs = [] → packBits vs bw = []) ∧
    (vs.length ≤ 128 → (packBits vs bw).length ≤ 128) ∧ AllBelow 32 (packBits vs bw) ∧
    (∀ i t, i < vs.length → t < bw →
      ((packBits vs bw).getD ((i * bw + t) / 32) 0).testBit ((i * bw + t) % 32) = (vs.getD i 0).testBit t) ∧
    (∀ p, vs.length * bw ≤ p → ((packBits vs bw).getD (p / 32) 0).testBit (p % 32) = false)

/-- `PACK` with a legal `BW`, legal regions and room stores the packed words of its elements and reports their number
(R124). -/
def Obligations.PackStoresThePackedWords : Prop :=
  ∀ (ew : ElemWidth) (bw : Nat) (s : State) (vs : List Nat), 1 ≤ bw → bw ≤ 32 →
    regionsLegal (.pack ew bw) s = true → vs.length = s.slen.toNat → ElemsAt s.mem s.src.toNat ew.bytes vs →
    ceilDiv (vs.length * bw) 32 ≤ s.dcap.toNat →
    ∃ t, exec (.pack ew bw) s = .next t ∧
      Succeeds s t (elemBytes 4 (packBits vs bw)) (ceilDiv (vs.length * bw) 32) 0 ∧
      ElemsAt t.mem s.dst.toNat 4 (packBits vs bw)

/-- `UNPACK` with a legal `BW`, legal regions, enough words and room stores the low `EW` bits of each of the `ARG`
fields and reports them and the bytes of the words it needed (R125). -/
def Obligations.UnpackStoresTheFields : Prop :=
  ∀ (ew : ElemWidth) (bw : Nat) (s : State) (wd : List Nat), 1 ≤ bw → bw ≤ 32 →
    regionsLegal (.unpack ew bw) s = true → wd.length = ceilDiv (s.arg.toNat * bw) 32 →
    wd.length ≤ s.slen.toNat → ElemsAt s.mem s.src.toNat 4 wd → s.arg.toNat ≤ s.dcap.toNat →
    ∃ t, exec (.unpack ew bw) s = .next t ∧
      Succeeds s t (elemBytes ew.bytes (unpackBits wd bw s.arg.toNat)) s.arg.toNat (4 * wd.length) ∧
      ElemsAt t.mem s.dst.toNat ew.bytes ((unpackBits wd bw s.arg.toNat).map (· % 2 ^ ew.bits))

/-! ### GroupVarint -/

/-- R150: `ByteLen(v)` is the smallest of 1, 2, 3, 4 with `v < 256^len`, and `ceil(HBI(v) / 8)`. -/
def Obligations.ByteLenIsTheSmallest : Prop :=
  ∀ v : Nat, v < 2 ^ 32 →
    1 ≤ byteLen v ∧ byteLen v ≤ 4 ∧ v < 256 ^ byteLen v ∧ (∀ l, 1 ≤ l → l < byteLen v → 256 ^ l ≤ v) ∧
    byteLen v = ceilDiv (highBitIdx v) 8

/-- R159: one group decodes to the four values it was made of, whatever bytes follow. -/
def Obligations.GroupRoundTrip : Prop :=
  ∀ (v0 v1 v2 v3 : Nat) (more : List Byte), v0 < 2 ^ 32 → v1 < 2 ^ 32 → v2 < 2 ^ 32 → v3 < 2 ^ 32 →
    gvItemDec (gvItemEnc v0 v1 v2 v3 ++ more) = .ok ([v0, v1, v2, v3], (gvItemEnc v0 v1 v2 v3).length)

/-- A GroupVarint stream decodes to the values it was made of, whatever bytes follow (the inference the spec draws as
R160). -/
def Obligations.GroupVarintRoundTrip : Prop :=
  ∀ (vs : List Nat) (more : List Byte), AllBelow 32 vs →
    gvDec (gvEnc vs ++ more) vs.length = .ok (vs, (gvEnc vs).length)

/-- R98: the tail decoder accepts exactly one to five bytes, all but the last with bit 7 set, of a value below `2^32`
(non-minimal ones too), fails with `E_CORRUPT` on anything else, and inverts the encoder whatever bytes follow. -/
def Obligations.TailVarintDecodesExactly : Prop :=
  (∀ (bs : List Byte) (v used : Nat), varintDec bs = .ok (v, used) ↔
    1 ≤ used ∧ used ≤ 5 ∧ used ≤ bs.length ∧ (∀ j, j + 1 < used → 128 ≤ (bs.getD j 0).toNat) ∧
    (bs.getD (used - 1) 0).toNat < 128 ∧
    v = ((List.range used).map (fun j => (bs.getD j 0).toNat % 128 * 128 ^ j)).sum ∧ v < 2 ^ 32) ∧
  (∀ (bs : List Byte) (e : ErrCode), varintDec bs = .error e → e = .corrupt) ∧
  (∀ (v : Nat) (more : List Byte), v < 2 ^ 32 →
    varintDec (varintEnc v ++ more) = .ok (v, (varintEnc v).length))

/-- Sizes: a group is 5 to 17 bytes, a tail value 1 to 5, a stream at most 5 bytes a value (the inference the spec
draws as R161). -/
def Obligations.GroupVarintSizes : Prop :=
  (∀ v0 v1 v2 v3 : Nat, (gvItemEnc v0 v1 v2 v3).length = 1 + byteLen v0 + byteLen v1 + byteLen v2 + byteLen v3 ∧
    5 ≤ (gvItemEnc v0 v1 v2 v3).length ∧ (gvItemEnc v0 v1 v2 v3).length ≤ 17) ∧
  (∀ v : Nat, 1 ≤ (varintEnc v).length ∧ (varintEnc v).length ≤ 5) ∧
  (∀ vs : List Nat, (gvEnc vs).length ≤ 5 * vs.length)

/-- `GVCI` on four elements with room stores their group and reports its length (R152). -/
def Obligations.GvciStoresTheGroup : Prop :=
  ∀ (s : State) (v0 v1 v2 v3 : Nat), s.slen.toNat = 4 → regionsLegal .gvci s = true →
    ElemsAt s.mem s.src.toNat 4 [v0, v1, v2, v3] → (gvItemEnc v0 v1 v2 v3).length ≤ s.dcap.toNat →
    ∃ t, exec .gvci s = .next t ∧
      Succeeds s t (gvItemEnc v0 v1 v2 v3) (gvItemEnc v0 v1 v2 v3).length 0

/-- `GVDI` with room for four elements and a whole group in the source stores, for each slot, the little-endian value
of the slot's bytes, at the offset its selector gives (R90, R91, R154), and consumes the group. -/
def Obligations.GvdiStoresTheSlots : Prop :=
  ∀ (s : State) (len off : Nat → Nat),
    (∀ j, len j = (s.mem.read s.src.toNat).toNat / 4 ^ j % 4 + 1) →
    off 0 = 1 → (∀ j, off (j + 1) = off j + len j) →
    regionsLegal .gvdi s = true → 4 ≤ s.dcap.toNat → off 4 ≤ s.slen.toNat →
    ∃ t, exec .gvdi s = .next t ∧ t.status = 0x01 ∧ t.rcnt.toNat = 4 ∧ t.rcons.toNat = off 4 ∧
      KeepsHostSide s t ∧ t.drawn = s.drawn ∧ UnchangedOutside s t s.dst.toNat 16 ∧
      ∀ j, j < 4 → t.mem.readLe (s.dst.toNat + 4 * j) 4 = s.mem.readLe (s.src.toNat + off j) (len j)

/-- `GVC` with room stores the GroupVarint stream of its elements and reports its length (R157). -/
def Obligations.GvcStoresTheStream : Prop :=
  ∀ (s : State) (vs : List Nat), regionsLegal .gvc s = true → vs.length = s.slen.toNat →
    ElemsAt s.mem s.src.toNat 4 vs → (gvEnc vs).length ≤ s.dcap.toNat →
    ∃ t, exec .gvc s = .next t ∧ Succeeds s t (gvEnc vs) (gvEnc vs).length 0

/-- `GVD` with room, on a source whose bytes hold `ARG` values, stores those values and reports the bytes consumed
(R156, R158). -/
def Obligations.GvdStoresTheValues : Prop :=
  ∀ (s : State) (vs : List Nat) (used : Nat), regionsLegal .gvd s = true → s.arg.toNat ≤ s.dcap.toNat →
    gvDec (sourceStream s) s.arg.toNat = .ok (vs, used) →
    ∃ t, exec .gvd s = .next t ∧ Succeeds s t (elemBytes 4 vs) s.arg.toNat used ∧ vs.length = s.arg.toNat ∧
      ElemsAt t.mem s.dst.toNat 4 vs

/-- `GVD` with room for `ARG` elements ends in `E_CORRUPT` whenever its source does not decode to `ARG` values: on a
stream cut short, on a tail varint that does not decode, and on every failure of `GvDec`. At most the `ARG` elements
from `DST` on change (R98, R158, R263, R269). -/
def Obligations.GvdOnACutStreamFaults : Prop :=
  (∀ (s : State) (vs : List Nat) (k : Nat), regionsLegal .gvd s = true → AllBelow 32 vs →
    s.arg.toNat = vs.length → vs.length ≤ s.dcap.toNat → k < (gvEnc vs).length →
    sourceStream s = (gvEnc vs).take k →
    ∃ t, exec .gvd s = .next t ∧ EndsInFault s t .corrupt ∧ UnchangedOutside s t s.dst.toNat (4 * vs.length)) ∧
  (∀ (s : State) (vs : List Nat) (bad : List Byte) (e : ErrCode), regionsLegal .gvd s = true → AllBelow 32 vs →
    s.arg.toNat ≤ s.dcap.toNat → vs.length < s.arg.toNat → vs.length / 4 = s.arg.toNat / 4 →
    sourceStream s = gvEnc vs ++ bad → varintDec bad = .error e →
    ∃ t, exec .gvd s = .next t ∧ EndsInFault s t .corrupt ∧ UnchangedOutside s t s.dst.toNat (4 * s.arg.toNat)) ∧
  (∀ (s : State) (e : ErrCode), regionsLegal .gvd s = true → s.arg.toNat ≤ s.dcap.toNat →
    gvDec (sourceStream s) s.arg.toNat = .error e →
    ∃ t, exec .gvd s = .next t ∧ EndsInFault s t .corrupt ∧ UnchangedOutside s t s.dst.toNat (4 * s.arg.toNat))

/-! ### PForDelta blocks -/

/-- R190: `MaxBitNum(V)` is the smallest width of 1 to 32 that at least nine tenths of the values fit, in integer
arithmetic; 1 for the empty block. -/
def Obligations.MaxBitNumIsTheSmallestWidth : Prop :=
  ∀ vs : List Nat, vs.length ≤ 128 → AllBelow 32 vs →
    1 ≤ maxBitNum vs ∧ maxBitNum vs ≤ 32 ∧
    9 * vs.length ≤ 10 * vs.countP (fun v => decide (v < 2 ^ maxBitNum vs)) ∧
    (9 * vs.length + 9) / 10 ≤ vs.countP (fun v => decide (v < 2 ^ maxBitNum vs)) ∧
    (∀ b, 1 ≤ b → b < maxBitNum vs → 10 * vs.countP (fun v => decide (v < 2 ^ b)) < 9 * vs.length) ∧
    (vs = [] → maxBitNum vs = 1)

/-- `PFBITS` on at most 128 elements reports their bit width, 1 to `EW`, and writes no memory (R191). -/
def Obligations.PfbitsReportsTheWidth : Prop :=
  ∀ (ew : ElemWidth) (s : State) (vs : List Nat), s.slen.toNat ≤ 128 → regionsLegal (.pfbits ew) s = true →
    vs.length = s.slen.toNat → ElemsAt s.mem s.src.toNat ew.bytes vs →
    ∃ t, exec (.pfbits ew) s = .next t ∧ Succeeds s t [] (maxBitNum vs) 0 ∧ t.mem = s.mem ∧
      1 ≤ t.rcnt.toNat ∧ t.rcnt.toNat ≤ ew.bits

/-- R194: in the working copy each exception slot holds the gap to the next exception and the last one 0, every gap
but the last is 1 to 127, the other slots keep their values, and `maxGap` is the largest value written, 0 if none. -/
def Obligations.ChainHoldsTheGaps : Prop :=
  ∀ (vs : List Nat) (maxNum : Nat) (e w : List Nat), vs.length ≤ 128 →
    e = exceptionIndices vs maxNum → w = rewriteSlots vs (e.zip (chainGaps e)) →
    (∀ i, i ∈ e ↔ i < vs.length ∧ maxNum < vs.getD i 0) ∧ e.Pairwise (· < ·) ∧ w.length = vs.length ∧
    (∀ i, i < vs.length → i ∉ e → w.getD i 0 = vs.getD i 0) ∧
    (∀ j, j + 1 < e.length → w.getD (e.getD j 0) 0 = e.getD (j + 1) 0 - e.getD j 0 ∧
      1 ≤ e.getD (j + 1) 0 - e.getD j 0 ∧ e.getD (j + 1) 0 - e.getD j 0 ≤ 127) ∧
    (e ≠ [] → w.getD (e.getD (e.length - 1) 0) 0 = 0) ∧
    (∀ i, i ∈ e → w.getD i 0 ≤ maxOf (chainGaps e)) ∧
    (e ≠ [] → ∃ i, i ∈ e ∧ w.getD i 0 = maxOf (chainGaps e)) ∧ (e = [] → maxOf (chainGaps e) = 0)

/-- The shape of an encoded block (R94, R195, and the bounds the spec infers as R197): the four header bytes, the
payload of the header's width, a side buffer of at most 5 bytes an exception, 576 bytes at most. -/
def Obligations.EncodedBlockHasItsShape : Prop :=
  ∀ (vs : List Nat) (ew n b0 bw k first : Nat), 1 ≤ ew → ew ≤ 32 → AllBelow ew vs →
    1 ≤ vs.length → vs.length ≤ 128 → b0 = maxBitNum vs →
    n = ((pfBlockEnc vs).getD 0 0).toNat → bw = ((pfBlockEnc vs).getD 1 0).toNat →
    k = ((pfBlockEnc vs).getD 2 0).toNat → first = ((pfBlockEnc vs).getD 3 0).toNat →
    n = vs.length ∧ b0 ≤ ew ∧ b0 ≤ bw ∧ bw ≤ max b0 7 ∧
    k = vs.countP (fun v => decide (2 ^ b0 ≤ v)) ∧ k ≤ n / 10 ∧
    (k = 0 → first = 128 ∧ bw = b0) ∧
    (0 < k → first < n ∧ 2 ^ b0 ≤ vs.getD first 0 ∧ ∀ i, i < first → vs.getD i 0 < 2 ^ b0) ∧
    4 + 4 * ceilDiv (n * bw) 32 + k ≤ (pfBlockEnc vs).length ∧
    (pfBlockEnc vs).length ≤ 4 + 4 * ceilDiv (n * bw) 32 + 5 * k ∧ (pfBlockEnc vs).length ≤ 576

/-- A block decodes to the values it was made of, at their element width or a wider one, whatever bytes follow (the
inference the spec draws as R208). -/
def Obligations.BlockRoundTrip : Prop :=
  ∀ (ew : ElemWidth) (vs : List Nat) (more : List Byte) (cap : Nat), 1 ≤ vs.length → vs.length ≤ 128 →
    AllBelow ew.bits vs → vs.length ≤ cap →
    pfBlockDec (pfBlockEnc vs ++ more) cap ew = .ok (vs, (pfBlockEnc vs).length)

/-- `PFENC` on 1 to 128 elements with room stores their block and reports its length (R196). -/
def Obligations.PfencStoresTheBlock : Prop :=
  ∀ (ew : ElemWidth) (s : State) (vs : List Nat), 1 ≤ s.slen.toNat → s.slen.toNat ≤ 128 →
    regionsLegal (.pfenc ew) s = true → vs.length = s.slen.toNat → ElemsAt s.mem s.src.toNat ew.bytes vs →
    (pfBlockEnc vs).length ≤ s.dcap.toNat →
    ∃ t, exec (.pfenc ew) s = .next t ∧ Succeeds s t (pfBlockEnc vs) (pfBlockEnc vs).length 0

/-- `PFDEC` on a source that begins with a block that decodes stores its values and reports their number and the
block's length (R203, R204). -/
def Obligations.PfdecStoresTheValues : Prop :=
  ∀ (ew : ElemWidth) (s : State) (vs : List Nat) (blockLen : Nat), regionsLegal (.pfdec ew) s = true →
    pfBlockDec (sourceStream s) s.dcap.toNat ew = .ok (vs, blockLen) →
    ∃ t, exec (.pfdec ew) s = .next t ∧ Succeeds s t (elemBytes ew.bytes vs) vs.length blockLen ∧
      vs.length = (s.mem.read s.src.toNat).toNat ∧ ElemsAt t.mem s.dst.toNat ew.bytes vs

/-- The header checks and the payload-length check of `PFDEC`, in their order; each fault leaves memory unchanged
(R200, R201, R269). -/
def Obligations.BlockHeaderIsChecked : Prop :=
  ∀ (ew : ElemWidth) (s : State) (n bw k first : Nat), regionsLegal (.pfdec ew) s = true →
    n = (s.mem.read s.src.toNat).toNat → bw = (s.mem.read (s.src.toNat + 1)).toNat →
    k = (s.mem.read (s.src.toNat + 2)).toNat → first = (s.mem.read (s.src.toNat + 3)).toNat →
    (s.slen.toNat < 4 ∨ 128 < n ∨ bw < 1 ∨ 32 < bw ∨ n < k ∨ (n < first ∧ first ≠ 128) →
      exec (.pfdec ew) s = .next { s with status := 0x22, rcnt := 0, rcons := 0 }) ∧
    (4 ≤ s.slen.toNat → n ≤ 128 → 1 ≤ bw → bw ≤ 32 → k ≤ n → (first ≤ n ∨ first = 128) →
      (s.dcap.toNat < n → exec (.pfdec ew) s = .next { s with status := 0x12, rcnt := 0, rcons := 0 }) ∧
      (n ≤ s.dcap.toNat → s.slen.toNat < 4 + 4 * ceilDiv (n * bw) 32 →
        exec (.pfdec ew) s = .next { s with status := 0x22, rcnt := 0, rcons := 0 }))

/-- When and how `PFDEC` fails on a block. With a good header, room and the whole payload, it ends in `E_CORRUPT`
when the side buffer does not decode, when the chain leaves the block, or when a value does not fit `EW` (R202, R204,
R207, R263). Every failure of `PfBlockDec` ends the command with its code, `E_CAPACITY` leaving memory as it was. And
whenever `PFDEC` ends in `E_CORRUPT`, at most the `numInts` elements from `DST` on change (R269). -/
def Obligations.CorruptBlockKeepsTheRest : Prop :=
  (∀ (ew : ElemWidth) (s : State) (n bw k first : Nat) (wd : List Nat) (side : List Byte),
    regionsLegal (.pfdec ew) s = true →
    n = (s.mem.read s.src.toNat).toNat → bw = (s.mem.read (s.src.toNat + 1)).toNat →
    k = (s.mem.read (s.src.toNat + 2)).toNat → first = (s.mem.read (s.src.toNat + 3)).toNat →
    n ≤ 128 → 1 ≤ bw → bw ≤ 32 → k ≤ n → (first ≤ n ∨ first = 128) → n ≤ s.dcap.toNat →
    wd.length = ceilDiv (n * bw) 32 → 4 + 4 * wd.length ≤ s.slen.toNat → ElemsAt s.mem (s.src.toNat + 4) 4 wd →
    side = (sourceStream s).drop (4 + 4 * wd.length) →
    ((∃ e, gvDec side k = .error e) ∨
      (∃ xs used, gvDec side k = .ok (xs, used) ∧ chainWalk xs first (unpackBits wd bw n) = none) ∨
      (∃ xs used w v, gvDec side k = .ok (xs, used) ∧ chainWalk xs first (unpackBits wd bw n) = some w ∧ v ∈ w ∧
        2 ^ ew.bits ≤ v)) →
    ∃ t, exec (.pfdec ew) s = .next t ∧ EndsInFault s t .corrupt ∧
      UnchangedOutside s t s.dst.toNat (n * ew.bytes)) ∧
  (∀ (ew : ElemWidth) (s : State) (f : BlockFailure), regionsLegal (.pfdec ew) s = true →
    pfBlockDec (sourceStream s) s.dcap.toNat ew = .error f →
    ∃ t, exec (.pfdec ew) s = .next t ∧ EndsInFault s t f.code ∧
      (f.code = .corrupt ∨ f.code = .capacity ∧ MemoryUnchanged s t) ∧
      f.spoiled ≤ (s.mem.read s.src.toNat).toNat ∧
      UnchangedOutside s t s.dst.toNat (f.spoiled * ew.bytes)) ∧
  (∀ (ew : ElemWidth) (s t : State), exec (.pfdec ew) s = .next t → t.status = 0x22 →
    EndsInFault s t .corrupt ∧ UnchangedOutside s t s.dst.toNat ((s.mem.read s.src.toNat).toNat * ew.bytes))

/-- The chain ends by count alone (R205), and `first` is not cross-checked (the inference the spec draws as R206):
a zero gap is no end mark, the next step uses the value just written as its gap; the gap of the last slot does not
matter; without exceptions `first` does not matter; with exceptions a `first` outside the block never decodes. -/
def Obligations.ChainEndsByCount : Prop :=
  (∀ (x y : Nat) (xs : List Nat) (cur : Nat) (w : List Nat), cur < w.length → w.getD cur 0 = 0 →
    chainWalk (x :: y :: xs) cur w = chainWalk xs (cur + x) (w.set cur y)) ∧
  (∀ (x cur g : Nat) (w : List Nat), chainWalk [x] cur (w.set cur g) = chainWalk [x] cur w) ∧
  (∀ (n bw first first' : Byte) (body : List Byte) (cap : Nat) (ew : ElemWidth),
    (first.toNat ≤ n.toNat ∨ first.toNat = 128) → (first'.toNat ≤ n.toNat ∨ first'.toNat = 128) →
    pfBlockDec (n :: bw :: 0 :: first :: body) cap ew = pfBlockDec (n :: bw :: 0 :: first' :: body) cap ew) ∧
  (∀ (n bw k first : Byte) (body : List Byte) (cap : Nat) (ew : ElemWidth), n.toNat ≤ first.toNat → 0 < k.toNat →
    n.toNat ≤ cap → ∃ spoiled, pfBlockDec (n :: bw :: k :: first :: body) cap ew = .error ⟨.corrupt, spoiled⟩)

/-- The element width of the decode (R207, and the inference the spec draws as R299): a narrower width gives the same
values when all fit and `E_CORRUPT` otherwise, a wider one the same values. -/
def Obligations.DecodeWidthOnlyLimitsTheValues : Prop :=
  (∀ (bs : List Byte) (cap : Nat) (ew : ElemWidth) (vs : List Nat) (len : Nat),
    pfBlockDec bs cap .w = .ok (vs, len) →
    (AllBelow ew.bits vs → pfBlockDec bs cap ew = .ok (vs, len)) ∧
    (¬AllBelow ew.bits vs → pfBlockDec bs cap ew = .error ⟨.corrupt, vs.length⟩)) ∧
  (∀ (bs : List Byte) (cap : Nat) (ew : ElemWidth) (vs : List Nat) (len : Nat),
    pfBlockDec bs cap ew = .ok (vs, len) → AllBelow ew.bits vs ∧ pfBlockDec bs cap .w = .ok (vs, len))

/-! ### PForDelta streams -/

/-- The block loop of `PFCOMP` (R241) writes the whole stream when it fits and fails when it does not: the model's one
check over the whole stream (log 9) finds the same. -/
def Obligations.StreamThatDoesNotFit : Prop :=
  ∀ (vs : List Nat) (cap : Nat),
    pfcompLoop vs cap = if (pfStreamEnc vs).length ≤ cap then some (pfStreamEnc vs) else none

/-- Concatenation: at a multiple of 128 values streams concatenate (the inference the spec draws as R246). -/
def Obligations.StreamsConcatenate : Prop :=
  ∀ vs ws : List Nat, 128 ∣ vs.length → pfStreamEnc (vs ++ ws) = pfStreamEnc vs ++ pfStreamEnc ws

/-- A stream of any length decodes to the values it was made of (the inference the spec draws as R248). -/
def Obligations.StreamRoundTrip : Prop :=
  ∀ (ew : ElemWidth) (vs : List Nat) (cap : Nat), AllBelow ew.bits vs → vs.length ≤ cap →
    pfStreamDec (pfStreamEnc vs) cap ew = .ok (vs, (pfStreamEnc vs).length)

/-- `PFCOMP` with room stores the stream of its elements and reports its length (R241). -/
def Obligations.PfcompStoresTheStream : Prop :=
  ∀ (ew : ElemWidth) (s : State) (vs : List Nat), regionsLegal (.pfcomp ew) s = true →
    vs.length = s.slen.toNat → ElemsAt s.mem s.src.toNat ew.bytes vs → (pfStreamEnc vs).length ≤ s.dcap.toNat →
    ∃ t, exec (.pfcomp ew) s = .next t ∧ Succeeds s t (pfStreamEnc vs) (pfStreamEnc vs).length 0

/-- `PFDECOMP` on a source that is a stream of blocks that decode stores their values and reports their number and
all of the source (R242, R243). -/
def Obligations.PfdecompStoresTheValues : Prop :=
  ∀ (ew : ElemWidth) (s : State) (vs : List Nat) (used : Nat), regionsLegal (.pfdecomp ew) s = true →
    pfStreamDec (sourceStream s) s.dcap.toNat ew = .ok (vs, used) →
    ∃ t, exec (.pfdecomp ew) s = .next t ∧ Succeeds s t (elemBytes ew.bytes vs) vs.length s.slen.toNat ∧
      used = s.slen.toNat ∧ ElemsAt t.mem s.dst.toNat ew.bytes vs

/-- How the stream commands fail. `PFDECOMP` ends with the code of the first block that does not decode, and with the
code of every failure of `PfStreamDec`: so with `E_CORRUPT` after 1 to 3 stray bytes and with `E_CAPACITY` on more
values than `DCAP`. `PFCOMP` of a stream longer than `DCAP` is `E_CAPACITY`. Bytes outside the destination region keep
their values (R242, R243, R244, R263, R266, R269). -/
def Obligations.StreamFaultsKeepTheRest : Prop :=
  (∀ (ew : ElemWidth) (s : State) (vs : List Nat) (more : List Byte), regionsLegal (.pfdecomp ew) s = true →
    AllBelow ew.bits vs → sourceStream s = pfStreamEnc vs ++ more →
    (vs.length ≤ s.dcap.toNat → 1 ≤ more.length → more.length ≤ 3 →
      ∃ t, exec (.pfdecomp ew) s = .next t ∧ EndsInFault s t .corrupt ∧
        UnchangedOutside s t s.dst.toNat (s.dcap.toNat * ew.bytes)) ∧
    (s.dcap.toNat < vs.length →
      ∃ t, exec (.pfdecomp ew) s = .next t ∧ EndsInFault s t .capacity ∧
        UnchangedOutside s t s.dst.toNat (s.dcap.toNat * ew.bytes))) ∧
  (∀ (ew : ElemWidth) (s : State) (vs : List Nat) (bad : List Byte) (f : BlockFailure),
    regionsLegal (.pfdecomp ew) s = true → AllBelow ew.bits vs → vs.length ≤ s.dcap.toNat → bad ≠ [] →
    sourceStream s = pfStreamEnc vs ++ bad → pfBlockDec bad (s.dcap.toNat - vs.length) ew = .error f →
    ∃ t, exec (.pfdecomp ew) s = .next t ∧ EndsInFault s t f.code ∧
      UnchangedOutside s t s.dst.toNat (s.dcap.toNat * ew.bytes)) ∧
  (∀ (ew : ElemWidth) (s : State) (e : ErrCode), regionsLegal (.pfdecomp ew) s = true →
    pfStreamDec (sourceStream s) s.dcap.toNat ew = .error e →
    ∃ t, exec (.pfdecomp ew) s = .next t ∧ EndsInFault s t e ∧
      UnchangedOutside s t s.dst.toNat (s.dcap.toNat * ew.bytes)) ∧
  (∀ (ew : ElemWidth) (s : State) (vs : List Nat), regionsLegal (.pfcomp ew) s = true →
    vs.length = s.slen.toNat → ElemsAt s.mem s.src.toNat ew.bytes vs → s.dcap.toNat < (pfStreamEnc vs).length →
    ∃ t, exec (.pfcomp ew) s = .next t ∧ EndsInFault s t .capacity ∧
      UnchangedOutside s t s.dst.toNat s.dcap.toNat)

/-! ### What the unit is for -/

/-- `GVC` then `GVD`, and `PFENC` then `PFDEC`, give back the elements (R158, R160, R208). -/
def Obligations.GroupVarintAndBlocksRestore : Prop :=
  Restores .gvc .gvd 4 ∧ ∀ ew : ElemWidth, Restores (.pfenc ew) (.pfdec ew) ew.bytes

/-- R12: for every element width and every sequence, `PFDECOMP` applied to the bytes `PFCOMP` wrote writes the sequence
back and reports its length, given enough capacity on both sides. -/
def Obligations.CompressedSequencesAreRestored : Prop :=
  ∀ ew : ElemWidth, Restores (.pfcomp ew) (.pfdecomp ew) ew.bytes
end

