-- ==== Sys2Proof/Laws/Memory.lean ====
section
/-! SUPPORT. The laws of the memory operations: what a byte reads as after a store, and that every operation keeps
the canonical form. -/

namespace Sys2Proof.Machine

/-! ### One byte -/

@[simp] theorem Memory.read_nil (a : Nat) : Memory.read [] a = Memory.unlisted := rfl

theorem Memory.read_cons (c : Host.Cell) (m : Memory) (a : Nat) :
    Memory.read (c :: m) a = if c.1 = a then c.2 else Memory.read m a := rfl

theorem Memory.read_filter_ne (m : Memory) (a b : Nat) :
    Memory.read (m.filter (fun c => c.1 != a)) b = if b = a then Memory.unlisted else m.read b := by
  induction m with
  | nil => simp
  | cons c m ih =>
    by_cases hca : c.1 = a
    · simp only [List.filter_cons, hca, bne_self_eq_false, Bool.false_eq_true, if_false, ih, Memory.read_cons]
      by_cases hb : b = a
      · simp [hb]
      · simp [hb, Ne.symm hb]
    · by_cases hcb : c.1 = b
      · simp [Memory.read_cons, hcb, hcb ▸ hca]
      · simp [Memory.read_cons, hca, hcb, ih]

theorem Memory.read_insert (c : Host.Cell) (m : Memory) (b : Nat) (h : ∀ d ∈ m, d.1 ≠ c.1) :
    Memory.read (Memory.insert c m) b = if c.1 = b then c.2 else m.read b := by
  induction m with
  | nil => rfl
  | cons d m ih =>
    have hd : d.1 ≠ c.1 := h d (by simp)
    have ih := ih (fun e he => h e (by simp [he]))
    unfold Memory.insert
    split
    · rfl
    · by_cases hdb : d.1 = b
      · have : c.1 ≠ b := fun hc => hd (hdb.trans hc.symm)
        simp [Memory.read_cons, hdb, this]
      · simp [Memory.read_cons, hdb, ih]

/-- A byte stored is the byte read back, and every other byte reads as before (R53). -/
theorem Memory.read_write (m : Memory) (a b : Nat) (v : Byte) :
    (m.write a v).read b = if b = a then v else m.read b := by
  unfold Memory.write
  simp only
  split
  · next hv => simp [Memory.read_filter_ne, hv]
  · rw [Memory.read_insert _ _ _ (by simp), Memory.read_filter_ne]
    by_cases hb : b = a
    · simp [hb]
    · simp [hb, Ne.symm hb]

@[simp] theorem Memory.read_write_same (m : Memory) (a : Nat) (v : Byte) : (m.write a v).read a = v := by
  simp [Memory.read_write]

theorem Memory.read_write_other (m : Memory) {a b : Nat} (v : Byte) (h : b ≠ a) :
    (m.write a v).read b = m.read b := by
  simp [Memory.read_write, h]

/-! ### The canonical form -/

theorem Memory.mem_insert {c d : Host.Cell} {m : Memory} : d ∈ Memory.insert c m ↔ d = c ∨ d ∈ m := by
  induction m with
  | nil => simp [Memory.insert]
  | cons e m ih =>
    unfold Memory.insert
    split
    · simp
    · simp only [List.mem_cons, ih]
      tauto

theorem Memory.insert_rising {c : Host.Cell} {m : Memory} (hm : m.Pairwise (fun d e => d.1 < e.1))
    (hc : ∀ d ∈ m, d.1 ≠ c.1) : (Memory.insert c m).Pairwise (fun d e => d.1 < e.1) := by
  induction m with
  | nil => simp [Memory.insert]
  | cons d m ih =>
    obtain ⟨hd, hm⟩ := List.pairwise_cons.mp hm
    have hne : d.1 ≠ c.1 := hc d (by simp)
    unfold Memory.insert
    split
    · next hlt =>
      refine List.pairwise_cons.mpr ⟨fun e he => ?_, List.pairwise_cons.mpr ⟨hd, hm⟩⟩
      rcases List.mem_cons.mp he with rfl | he
      · exact hlt
      · exact hlt.trans (hd e he)
    · next hlt =>
      refine List.pairwise_cons.mpr ⟨fun e he => ?_, ih hm (fun e he => hc e (by simp [he]))⟩
      rcases Memory.mem_insert.mp he with rfl | he
      · omega
      · exact hd e he

/-- A store inside the address space keeps the canonical form. -/
theorem Memory.write_wf {m : Memory} {a : Nat} (v : Byte) (hm : m.wf) (ha : a < Config.memoryBytes) :
    (m.write a v).wf := by
  obtain ⟨hr, hv⟩ := hm
  have hf : Memory.wf (m.filter (fun c => c.1 != a)) :=
    ⟨hr.sublist List.filter_sublist, fun c hc => hv c (List.mem_filter.mp hc).1⟩
  unfold Memory.write
  simp only
  split
  · exact hf
  · next hne =>
    refine ⟨Memory.insert_rising hf.1 (by simp), fun c hc => ?_⟩
    rcases Memory.mem_insert.mp hc with rfl | hc
    · exact ⟨ha, hne⟩
    · exact hf.2 c hc

/-! ### Byte strings -/

@[simp] theorem Memory.length_readBytes (m : Memory) (a n : Nat) : (m.readBytes a n).length = n := by
  induction n generalizing a with
  | zero => rfl
  | succ n ih => simp [Memory.readBytes, ih]

theorem Memory.readBytes_getD (m : Memory) (a n j : Nat) (h : j < n) : (m.readBytes a n).getD j 0 = m.read (a + j) := by
  induction n generalizing a j with
  | zero => omega
  | succ n ih =>
    cases j with
    | zero => simp [Memory.readBytes]
    | succ j =>
      simp only [Memory.readBytes, List.getD_cons_succ]
      rw [ih (a + 1) j (by omega)]
      congr 1; omega

theorem Memory.readBytes_congr {m m' : Memory} {a n : Nat}
    (h : ∀ b, a ≤ b → b < a + n → m.read b = m'.read b) : m.readBytes a n = m'.readBytes a n := by
  induction n generalizing a with
  | zero => rfl
  | succ n ih =>
    simp only [Memory.readBytes]
    rw [h a (by omega) (by omega), ih (fun b h1 h2 => h b (by omega) (by omega))]

theorem Memory.readBytes_append (m : Memory) (a n k : Nat) :
    m.readBytes a (n + k) = m.readBytes a n ++ m.readBytes (a + n) k := by
  induction n generalizing a with
  | zero => simp [Memory.readBytes]
  | succ n ih =>
    rw [show n + 1 + k = (n + k) + 1 by omega]
    simp only [Memory.readBytes, List.cons_append]
    rw [ih, show a + 1 + n = a + (n + 1) by omega]

/-- What a byte reads as after a byte string is stored. -/
theorem Memory.read_writeBytes (m : Memory) (a : Nat) (bs : List Byte) (b : Nat) :
    (m.writeBytes a bs).read b = if a ≤ b ∧ b < a + bs.length then bs.getD (b - a) 0 else m.read b := by
  induction bs generalizing m a with
  | nil => simp [Memory.writeBytes]
  | cons v bs ih =>
    simp only [Memory.writeBytes, ih, Memory.read_write, List.length_cons]
    by_cases hba : b = a
    · subst hba
      simp
    · by_cases hin : a ≤ b ∧ b < a + (bs.length + 1)
      · have h1 : a + 1 ≤ b ∧ b < a + 1 + bs.length := by omega
        rw [if_pos h1, if_pos hin, show b - a = (b - (a + 1)) + 1 by omega, List.getD_cons_succ]
      · have h1 : ¬(a + 1 ≤ b ∧ b < a + 1 + bs.length) := by omega
        rw [if_neg h1, if_neg hin, if_neg hba]

theorem Memory.writeBytes_wf {m : Memory} {a : Nat} {bs : List Byte} (hm : m.wf)
    (h : bs ≠ [] → a + bs.length ≤ Config.memoryBytes) : (m.writeBytes a bs).wf := by
  induction bs generalizing m a with
  | nil => exact hm
  | cons v bs ih =>
    have h := h (by simp)
    simp only [List.length_cons] at h
    exact ih (Memory.write_wf v hm (by omega)) (fun _ => by omega)

@[simp] theorem Memory.readBytes_writeBytes (m : Memory) (a : Nat) (bs : List Byte) :
    (m.writeBytes a bs).readBytes a bs.length = bs := by
  refine List.ext_getElem (by simp) (fun j h1 h2 => ?_)
  have := Memory.readBytes_getD (m.writeBytes a bs) a bs.length j h2
  rw [List.getD_eq_getElem _ _ h1, Memory.read_writeBytes, if_pos (by omega)] at this
  rw [this, show a + j - a = j by omega, List.getD_eq_getElem _ _ h2]

@[simp] theorem length_freeBytes (d k : Nat) : (freeBytes d k).length = k := by
  induction k generalizing d with
  | zero => rfl
  | succ k ih => simp [freeBytes, ih]

/-! ### Bytes and numbers -/

@[simp] theorem length_leBytes (n v : Nat) : (leBytes n v).length = n := by
  induction n generalizing v with
  | zero => rfl
  | succ n ih => simp [leBytes, ih]

theorem leValue_lt (bs : List Byte) : leValue bs < 256 ^ bs.length := by
  induction bs with
  | nil => simp [leValue]
  | cons b bs ih =>
    have := b.isLt
    simp only [leValue, List.length_cons, Nat.pow_succ]
    omega

/-- The `n` low bytes of `v` are its value modulo `256^n`. -/
theorem leValue_leBytes (n v : Nat) : leValue (leBytes n v) = v % 256 ^ n := by
  induction n generalizing v with
  | zero => simp [leBytes, leValue, Nat.mod_one]
  | succ n ih =>
    simp only [leBytes, leValue, ih, BitVec.toNat_ofNat]
    rw [show (256 : Nat) ^ (n + 1) = 256 * 256 ^ n from Nat.pow_succ', Nat.mod_mul]

/-- A byte string of length `n` is the `n` bytes of its value. -/
theorem leBytes_leValue (bs : List Byte) : leBytes bs.length (leValue bs) = bs := by
  induction bs with
  | nil => rfl
  | cons b bs ih =>
    have h1 : (b.toNat + 256 * leValue bs) / 256 = leValue bs := by have := b.isLt; omega
    have h2 : BitVec.ofNat 8 (b.toNat + 256 * leValue bs) = b := by
      apply BitVec.eq_of_toNat_eq
      have := b.isLt
      simp only [BitVec.toNat_ofNat]
      omega
    simp only [List.length_cons, leBytes, leValue, h1, h2, ih]

end Sys2Proof.Machine
end

