-- ==== Sys2Proof/Laws/State.lean ====
section
/-! SUPPORT. One lemma per field of `State` and per update of it, so that no later proof unfolds a record update. -/

namespace Sys2Proof.Machine

variable (s : State)


@[simp] theorem State.complete_cmd (n c : Nat) : (s.complete n c).cmd = s.cmd := rfl
@[simp] theorem State.complete_dst (n c : Nat) : (s.complete n c).dst = s.dst := rfl
@[simp] theorem State.complete_dcap (n c : Nat) : (s.complete n c).dcap = s.dcap := rfl
@[simp] theorem State.complete_src (n c : Nat) : (s.complete n c).src = s.src := rfl
@[simp] theorem State.complete_slen (n c : Nat) : (s.complete n c).slen = s.slen := rfl
@[simp] theorem State.complete_arg (n c : Nat) : (s.complete n c).arg = s.arg := rfl
@[simp] theorem State.complete_status (n c : Nat) : (s.complete n c).status = statusOk := rfl
@[simp] theorem State.complete_rcnt (n c : Nat) : (s.complete n c).rcnt = BitVec.ofNat 32 n := rfl
@[simp] theorem State.complete_rcons (n c : Nat) : (s.complete n c).rcons = BitVec.ofNat 32 c := rfl
@[simp] theorem State.complete_mem (n c : Nat) : (s.complete n c).mem = s.mem := rfl
@[simp] theorem State.complete_pending (n c : Nat) : (s.complete n c).pending = s.pending := rfl
@[simp] theorem State.complete_readData (n c : Nat) : (s.complete n c).readData = s.readData := rfl
@[simp] theorem State.complete_drawn (n c : Nat) : (s.complete n c).drawn = s.drawn := rfl

@[simp] theorem State.raise_cmd (e : ErrCode) : (s.raise e).cmd = s.cmd := rfl
@[simp] theorem State.raise_dst (e : ErrCode) : (s.raise e).dst = s.dst := rfl
@[simp] theorem State.raise_dcap (e : ErrCode) : (s.raise e).dcap = s.dcap := rfl
@[simp] theorem State.raise_src (e : ErrCode) : (s.raise e).src = s.src := rfl
@[simp] theorem State.raise_slen (e : ErrCode) : (s.raise e).slen = s.slen := rfl
@[simp] theorem State.raise_arg (e : ErrCode) : (s.raise e).arg = s.arg := rfl
@[simp] theorem State.raise_status (e : ErrCode) : (s.raise e).status = statusFault e := rfl
@[simp] theorem State.raise_rcnt (e : ErrCode) : (s.raise e).rcnt = 0 := rfl
@[simp] theorem State.raise_rcons (e : ErrCode) : (s.raise e).rcons = 0 := rfl
@[simp] theorem State.raise_mem (e : ErrCode) : (s.raise e).mem = s.mem := rfl
@[simp] theorem State.raise_pending (e : ErrCode) : (s.raise e).pending = s.pending := rfl
@[simp] theorem State.raise_readData (e : ErrCode) : (s.raise e).readData = s.readData := rfl
@[simp] theorem State.raise_drawn (e : ErrCode) : (s.raise e).drawn = s.drawn := rfl

@[simp] theorem State.spoil_cmd (k : Nat) : (s.spoil k).cmd = s.cmd := rfl
@[simp] theorem State.spoil_dst (k : Nat) : (s.spoil k).dst = s.dst := rfl
@[simp] theorem State.spoil_dcap (k : Nat) : (s.spoil k).dcap = s.dcap := rfl
@[simp] theorem State.spoil_src (k : Nat) : (s.spoil k).src = s.src := rfl
@[simp] theorem State.spoil_slen (k : Nat) : (s.spoil k).slen = s.slen := rfl
@[simp] theorem State.spoil_arg (k : Nat) : (s.spoil k).arg = s.arg := rfl
@[simp] theorem State.spoil_status (k : Nat) : (s.spoil k).status = s.status := rfl
@[simp] theorem State.spoil_rcnt (k : Nat) : (s.spoil k).rcnt = s.rcnt := rfl
@[simp] theorem State.spoil_rcons (k : Nat) : (s.spoil k).rcons = s.rcons := rfl
@[simp] theorem State.spoil_mem (k : Nat) : (s.spoil k).mem = s.mem.writeBytes s.dst.toNat (freeBytes s.drawn k) := rfl
@[simp] theorem State.spoil_pending (k : Nat) : (s.spoil k).pending = s.pending := rfl
@[simp] theorem State.spoil_readData (k : Nat) : (s.spoil k).readData = s.readData := rfl
@[simp] theorem State.spoil_drawn (k : Nat) : (s.spoil k).drawn = s.drawn + k := rfl

@[simp] theorem State.finish_done_cmd (out : List Byte) (n c : Nat) : (s.finish (.done out n c)).cmd = s.cmd := rfl
@[simp] theorem State.finish_done_dst (out : List Byte) (n c : Nat) : (s.finish (.done out n c)).dst = s.dst := rfl
@[simp] theorem State.finish_done_dcap (out : List Byte) (n c : Nat) : (s.finish (.done out n c)).dcap = s.dcap := rfl
@[simp] theorem State.finish_done_src (out : List Byte) (n c : Nat) : (s.finish (.done out n c)).src = s.src := rfl
@[simp] theorem State.finish_done_slen (out : List Byte) (n c : Nat) : (s.finish (.done out n c)).slen = s.slen := rfl
@[simp] theorem State.finish_done_arg (out : List Byte) (n c : Nat) : (s.finish (.done out n c)).arg = s.arg := rfl
@[simp] theorem State.finish_done_status (out : List Byte) (n c : Nat) : (s.finish (.done out n c)).status = statusOk := rfl
@[simp] theorem State.finish_done_rcnt (out : List Byte) (n c : Nat) : (s.finish (.done out n c)).rcnt = BitVec.ofNat 32 n := rfl
@[simp] theorem State.finish_done_rcons (out : List Byte) (n c : Nat) : (s.finish (.done out n c)).rcons = BitVec.ofNat 32 c := rfl
@[simp] theorem State.finish_done_mem (out : List Byte) (n c : Nat) : (s.finish (.done out n c)).mem = s.mem.writeBytes s.dst.toNat out := rfl
@[simp] theorem State.finish_done_pending (out : List Byte) (n c : Nat) : (s.finish (.done out n c)).pending = s.pending := rfl
@[simp] theorem State.finish_done_readData (out : List Byte) (n c : Nat) : (s.finish (.done out n c)).readData = s.readData := rfl
@[simp] theorem State.finish_done_drawn (out : List Byte) (n c : Nat) : (s.finish (.done out n c)).drawn = s.drawn := rfl

@[simp] theorem State.finish_fail_cmd (e : ErrCode) (k : Nat) : (s.finish (.fail e k)).cmd = s.cmd := rfl
@[simp] theorem State.finish_fail_dst (e : ErrCode) (k : Nat) : (s.finish (.fail e k)).dst = s.dst := rfl
@[simp] theorem State.finish_fail_dcap (e : ErrCode) (k : Nat) : (s.finish (.fail e k)).dcap = s.dcap := rfl
@[simp] theorem State.finish_fail_src (e : ErrCode) (k : Nat) : (s.finish (.fail e k)).src = s.src := rfl
@[simp] theorem State.finish_fail_slen (e : ErrCode) (k : Nat) : (s.finish (.fail e k)).slen = s.slen := rfl
@[simp] theorem State.finish_fail_arg (e : ErrCode) (k : Nat) : (s.finish (.fail e k)).arg = s.arg := rfl
@[simp] theorem State.finish_fail_status (e : ErrCode) (k : Nat) : (s.finish (.fail e k)).status = statusFault e := rfl
@[simp] theorem State.finish_fail_rcnt (e : ErrCode) (k : Nat) : (s.finish (.fail e k)).rcnt = 0 := rfl
@[simp] theorem State.finish_fail_rcons (e : ErrCode) (k : Nat) : (s.finish (.fail e k)).rcons = 0 := rfl
@[simp] theorem State.finish_fail_mem (e : ErrCode) (k : Nat) : (s.finish (.fail e k)).mem = s.mem.writeBytes s.dst.toNat (freeBytes s.drawn k) := rfl
@[simp] theorem State.finish_fail_pending (e : ErrCode) (k : Nat) : (s.finish (.fail e k)).pending = s.pending := rfl
@[simp] theorem State.finish_fail_readData (e : ErrCode) (k : Nat) : (s.finish (.fail e k)).readData = s.readData := rfl
@[simp] theorem State.finish_fail_drawn (e : ErrCode) (k : Nat) : (s.finish (.fail e k)).drawn = s.drawn + k := rfl

@[simp] theorem State.resetRegisters_cmd : (s.resetRegisters).cmd = 0 := rfl
@[simp] theorem State.resetRegisters_dst : (s.resetRegisters).dst = 0 := rfl
@[simp] theorem State.resetRegisters_dcap : (s.resetRegisters).dcap = 0 := rfl
@[simp] theorem State.resetRegisters_src : (s.resetRegisters).src = 0 := rfl
@[simp] theorem State.resetRegisters_slen : (s.resetRegisters).slen = 0 := rfl
@[simp] theorem State.resetRegisters_arg : (s.resetRegisters).arg = 0 := rfl
@[simp] theorem State.resetRegisters_status : (s.resetRegisters).status = 0 := rfl
@[simp] theorem State.resetRegisters_rcnt : (s.resetRegisters).rcnt = 0 := rfl
@[simp] theorem State.resetRegisters_rcons : (s.resetRegisters).rcons = 0 := rfl
@[simp] theorem State.resetRegisters_mem : (s.resetRegisters).mem = s.mem := rfl
@[simp] theorem State.resetRegisters_pending : (s.resetRegisters).pending = s.pending := rfl
@[simp] theorem State.resetRegisters_readData : (s.resetRegisters).readData = s.readData := rfl
@[simp] theorem State.resetRegisters_drawn : (s.resetRegisters).drawn = s.drawn := rfl

@[simp] theorem State.writeReg_cmd_word_cmd (v : Word) : (s.writeReg 0 v).cmd = v := rfl
@[simp] theorem State.writeReg_cmd_word_dst (v : Word) : (s.writeReg 0 v).dst = s.dst := rfl
@[simp] theorem State.writeReg_cmd_word_dcap (v : Word) : (s.writeReg 0 v).dcap = s.dcap := rfl
@[simp] theorem State.writeReg_cmd_word_src (v : Word) : (s.writeReg 0 v).src = s.src := rfl
@[simp] theorem State.writeReg_cmd_word_slen (v : Word) : (s.writeReg 0 v).slen = s.slen := rfl
@[simp] theorem State.writeReg_cmd_word_arg (v : Word) : (s.writeReg 0 v).arg = s.arg := rfl
@[simp] theorem State.writeReg_cmd_word_status (v : Word) : (s.writeReg 0 v).status = s.status := rfl
@[simp] theorem State.writeReg_cmd_word_rcnt (v : Word) : (s.writeReg 0 v).rcnt = s.rcnt := rfl
@[simp] theorem State.writeReg_cmd_word_rcons (v : Word) : (s.writeReg 0 v).rcons = s.rcons := rfl
@[simp] theorem State.writeReg_cmd_word_mem (v : Word) : (s.writeReg 0 v).mem = s.mem := rfl
@[simp] theorem State.writeReg_cmd_word_pending (v : Word) : (s.writeReg 0 v).pending = s.pending := rfl
@[simp] theorem State.writeReg_cmd_word_readData (v : Word) : (s.writeReg 0 v).readData = s.readData := rfl
@[simp] theorem State.writeReg_cmd_word_drawn (v : Word) : (s.writeReg 0 v).drawn = s.drawn := rfl

/-- A register write reaches registers 0 to 5 only (R31): nothing else of the state moves. -/
@[simp] theorem State.writeReg_status (i : Nat) (v : Word) : (s.writeReg i v).status = s.status := by
  unfold State.writeReg; split <;> rfl
@[simp] theorem State.writeReg_rcnt (i : Nat) (v : Word) : (s.writeReg i v).rcnt = s.rcnt := by
  unfold State.writeReg; split <;> rfl
@[simp] theorem State.writeReg_rcons (i : Nat) (v : Word) : (s.writeReg i v).rcons = s.rcons := by
  unfold State.writeReg; split <;> rfl
@[simp] theorem State.writeReg_mem (i : Nat) (v : Word) : (s.writeReg i v).mem = s.mem := by
  unfold State.writeReg; split <;> rfl
@[simp] theorem State.writeReg_pending (i : Nat) (v : Word) : (s.writeReg i v).pending = s.pending := by
  unfold State.writeReg; split <;> rfl
@[simp] theorem State.writeReg_readData (i : Nat) (v : Word) : (s.writeReg i v).readData = s.readData := by
  unfold State.writeReg; split <;> rfl
@[simp] theorem State.writeReg_drawn (i : Nat) (v : Word) : (s.writeReg i v).drawn = s.drawn := by
  unfold State.writeReg; split <;> rfl

end Sys2Proof.Machine
end

