-- ==== Sys2Proof/Laws/Ops.lean ====
section
/-! SUPPORT. What each shared operation can do, said once: how a command ends, what a command answers, what a host
access does, what a step does. -/

namespace Sys2Proof.Machine

/-- A fault that spoils nothing is fault entry alone (R267). -/
theorem State.finish_fail_zero (s : State) (e : ErrCode) : s.finish (.fail e 0) = s.raise e := rfl

/-- A byte after a command that succeeded. -/
theorem State.finish_done_read (s : State) (out : List Byte) (n c a : Nat) :
    (s.finish (.done out n c)).mem.read a =
      if s.dst.toNat ≤ a ∧ a < s.dst.toNat + out.length then out.getD (a - s.dst.toNat) 0 else s.mem.read a := by
  simp [Memory.read_writeBytes]

/-- A byte outside the spoiled ones after a fault (R269). -/
theorem State.finish_fail_read_outside (s : State) (e : ErrCode) (k : Nat) {a : Nat}
    (h : ¬(s.dst.toNat ≤ a ∧ a < s.dst.toNat + k)) : (s.finish (.fail e k)).mem.read a = s.mem.read a := by
  rw [State.finish_fail_mem, Memory.read_writeBytes, length_freeBytes, if_neg h]

/-- A command that passes its checks answers its reply; each check that fails is fault entry. -/
theorem exec_finish (i : Instr) (s : State) : ∃ r : Reply, exec i s = .next (s.finish r) := by
  have hraise : ∀ e : ErrCode, s.raise e = s.finish (.fail e 0) := fun _ => rfl
  have hdone : ∀ n c, s.complete n c = s.finish (.done [] n c) := fun _ _ => rfl
  cases i <;>
    simp only [exec, execHbi, execPack, execUnpack, execGvci, execGvdi, execGvc, execGvd, execPfbits, execPfenc,
      execPfdec, execPfcomp, execPfdecomp, hraise, hdone] <;>
    (repeat' split) <;> exact ⟨_, rfl⟩

/-- The meaning of a command whose regions are not legal: `E_PARAM`, whatever its other operands (R58, R59, R266). -/
theorem exec_of_regions_illegal {i : Instr} {s : State} (hi : i ≠ .hbi) (h : regionsLegal i s = false) :
    exec i s = .next (s.raise .param) := by
  cases i <;>
    simp_all [exec, execPack, execUnpack, execGvci, execGvdi, execGvc, execGvd, execPfbits, execPfenc, execPfdec,
      execPfcomp, execPfdecomp]

/-- What a write of `CMD` can do (R27). -/
theorem startCommand_cases (w : Word) (s : State) :
    (∃ i, decode w = .ok i ∧ startCommand w s = exec i (s.writeReg 0 w)) ∨
    (∃ e, decode w = .error e ∧ startCommand w s = .next ((s.writeReg 0 w).raise .illegal)) := by
  unfold startCommand
  cases h : decode w with
  | ok i => exact .inl ⟨i, rfl, rfl⟩
  | error e => exact .inr ⟨e, rfl, rfl⟩

/-- What one access of the host can do when it answers a next state (R31, R62). -/
theorem hostAccess_cases {a : HostAccess} {s t : State} (h : hostAccess a s = .next t) :
    (∃ v, a = .write 0 v ∧ startCommand v s = .next t) ∨
    (∃ i v, a = .write i v ∧ i ≠ 0 ∧ t = s.writeReg i v) ∨
    (∃ i, a = .read i ∧ t = { s with readData := s.readReg i }) ∨
    (∃ b v, a = .store b v ∧ b < Config.memoryBytes ∧ t = { s with mem := s.mem.write b v }) ∨
    (∃ b, a = .load b ∧ b < Config.memoryBytes ∧ t = { s with readData := (s.mem.read b).setWidth 32 }) ∨
    (a = .reset ∧ t = s.resetRegisters) := by
  cases a with
  | write i v =>
    cases i with
    | zero => exact .inl ⟨v, rfl, h⟩
    | succ i =>
      refine .inr (.inl ⟨i + 1, v, rfl, by omega, ?_⟩)
      simpa [hostAccess] using h.symm
  | read i => exact .inr (.inr (.inl ⟨i, rfl, by simpa [hostAccess] using h.symm⟩))
  | store b v =>
    simp only [hostAccess] at h
    split at h
    · next hb =>
      refine .inr (.inr (.inr (.inl ⟨b, v, rfl, hb, ?_⟩)))
      simpa using h.symm
    · cases h
  | load b =>
    simp only [hostAccess] at h
    split at h
    · next hb =>
      refine .inr (.inr (.inr (.inr (.inl ⟨b, rfl, hb, ?_⟩))))
      simpa using h.symm
    · cases h
  | reset => exact .inr (.inr (.inr (.inr (.inr ⟨rfl, by simpa [hostAccess] using h.symm⟩))))

/-- What a step can do: nothing when no access is pending (log 11), else the oldest access (log 1). -/
theorem step_cases (s : State) :
    (s.pending = [] ∧ step s = .next s) ∨
    (∃ a rest, s.pending = a :: rest ∧ step s = hostAccess a { s with pending := rest }) := by
  unfold step
  cases h : s.pending with
  | nil => exact .inl ⟨rfl, rfl⟩
  | cons a rest => exact .inr ⟨a, rest, rfl, rfl⟩

end Sys2Proof.Machine
end

