-- ==== Sys2Proof/Laws/PerInstr.lean ====
section
/-! SUPPORT. Facts about the words of `encode`, one lemma per constructor of `Instr`. -/

namespace Sys2Proof.Laws.EncodeInFormat

open Sys2Proof

/-- The word of a command keeps the format `CMDW` (R80): its reserved bits are 0, and its `EW` code is not the
reserved one (R82). -/
def Statement (i : Instr) : Prop :=
  reservedLow (encode i) = 0 ∧ reservedHigh (encode i) = 0 ∧ ewField (encode i) ≠ 3

theorem ofFields (op : BitVec 8) (ew : ElemWidth) (bw : BitVec 6) :
    reservedLow (commandWord op (encodeWidth ew) bw) = 0 ∧ reservedHigh (commandWord op (encodeWidth ew) bw) = 0 ∧
      ewField (commandWord op (encodeWidth ew) bw) ≠ 3 := by
  refine ⟨?_, ?_, ?_⟩
  · ext j hj
    simp only [reservedLow, commandWord, BitVec.getElem_extractLsb', BitVec.getLsbD_append]
    have h1 : ¬(10 + j < 8) := by omega
    have h2 : ¬(10 + j - 8 < 2) := by omega
    have h3 : 10 + j - 8 - 2 < 6 := by omega
    simp [h1, h2, h3]
  · ext j hj
    simp only [reservedHigh, commandWord, BitVec.getElem_extractLsb', BitVec.getLsbD_append]
    have h1 : ¬(22 + j < 8) := by omega
    have h2 : ¬(22 + j - 8 < 2) := by omega
    have h3 : ¬(22 + j - 8 - 2 < 6) := by omega
    have h4 : ¬(22 + j - 8 - 2 - 6 < 6) := by omega
    simp [h1, h2, h3, h4]
  · have h : ewField (commandWord op (encodeWidth ew) bw) = encodeWidth ew := by
      ext j hj
      simp only [ewField, commandWord, BitVec.getElem_extractLsb', BitVec.getLsbD_append]
      have h1 : ¬(8 + j < 8) := by omega
      have h2 : j ≤ 1 := by omega
      simp [h1, h2]
    rw [h]
    cases ew <;> decide

theorem hbi : Statement .hbi := ofFields _ _ _
theorem pack (ew : ElemWidth) (bw : Nat) : Statement (.pack ew bw) := ofFields _ _ _
theorem unpack (ew : ElemWidth) (bw : Nat) : Statement (.unpack ew bw) := ofFields _ _ _
theorem gvci : Statement .gvci := ofFields _ _ _
theorem gvdi : Statement .gvdi := ofFields _ _ _
theorem gvc : Statement .gvc := ofFields _ _ _
theorem gvd : Statement .gvd := ofFields _ _ _
theorem pfbits (ew : ElemWidth) : Statement (.pfbits ew) := ofFields _ _ _
theorem pfenc (ew : ElemWidth) : Statement (.pfenc ew) := ofFields _ _ _
theorem pfdec (ew : ElemWidth) : Statement (.pfdec ew) := ofFields _ _ _
theorem pfcomp (ew : ElemWidth) : Statement (.pfcomp ew) := ofFields _ _ _
theorem pfdecomp (ew : ElemWidth) : Statement (.pfdecomp ew) := ofFields _ _ _

end Sys2Proof.Laws.EncodeInFormat
end

