-- ==== Sys2Proof/Tests/Slice0.lean ====
section
/-! SUPPORT. Tests of the model: ill-formed terms, words written out from the encoding table, the spec's vectors, and
for every statement with hypotheses values that meet them all. -/

namespace Sys2Proof.Tests

open Sys2Proof Sys2Proof.Machine

/-! ### Helpers -/

/-- A memory that holds these bytes from `base` on. -/
def bytesAt (base : Nat) (bs : List Nat) : Memory := Memory.writeBytes [] base (bs.map (BitVec.ofNat 8))

/-- A unit right after reset whose operand registers and memory have been set up. -/
def ready (dst dcap src slen arg : Word) (m : Memory) : State :=
  { State.reset with dst := dst, dcap := dcap, src := src, slen := slen, arg := arg, mem := m }

/-- The state a command leaves. -/
def after (i : Instr) (s : State) : State :=
  match exec i s with
  | .next t => t
  | .fault _ => s
  | .refused _ => s

theorem exec_after (i : Instr) (s : State) : exec i s = .next (after i s) := by
  obtain ⟨r, h⟩ := exec_finish i s
  simp [after, h]

/-- `STATUS`, `RCNT` and `RCONS` after a command, as numbers. -/
def results (i : Instr) (s : State) : Nat × Nat × Nat :=
  ((after i s).status.toNat, (after i s).rcnt.toNat, (after i s).rcons.toNat)

/-- The `n` bytes from `a` on after a command, as numbers. -/
def bytesAfter (i : Instr) (s : State) (a n : Nat) : List Nat :=
  ((after i s).mem.readBytes a n).map BitVec.toNat

/-! ### Well-formedness: each check refuses a term (R80, R83) -/

theorem test_pack_bit_width_too_wide : (Instr.pack .b 64).wellFormed = false := by decide
theorem test_unpack_bit_width_too_wide : (Instr.unpack .w 64).wellFormed = false := by decide
theorem test_pack_widest_field_accepted : (Instr.pack .b 63).wellFormed = true := by decide

/-! ### Decoding: words written out bit by bit from R80 and R81: reserved, `BW`, reserved, `EW`, `OP` -/

theorem test_decode_hbi : decode 0b0000000000_000000_000000_10_00000001 = .ok .hbi := by decide
theorem test_decode_pack : decode 0b0000000000_000011_000000_00_00000010 = .ok (.pack .b 3) := by decide
theorem test_decode_pack_widest : decode 0b0000000000_111111_000000_00_00000010 = .ok (.pack .b 63) := by decide
theorem test_decode_unpack : decode 0b0000000000_001100_000000_01_00000011 = .ok (.unpack .h 12) := by decide
theorem test_decode_gvci : decode 0b0000000000_000000_000000_10_00010000 = .ok .gvci := by decide
theorem test_decode_gvdi : decode 0b0000000000_000000_000000_10_00010001 = .ok .gvdi := by decide
theorem test_decode_gvc : decode 0b0000000000_000000_000000_10_00010010 = .ok .gvc := by decide
theorem test_decode_gvd : decode 0b0000000000_000000_000000_10_00010011 = .ok .gvd := by decide
theorem test_decode_pfbits : decode 0b0000000000_000000_000000_01_00100000 = .ok (.pfbits .h) := by decide
theorem test_decode_pfenc : decode 0b0000000000_000000_000000_10_00100001 = .ok (.pfenc .w) := by decide
theorem test_decode_pfdec : decode 0b0000000000_000000_000000_00_00100010 = .ok (.pfdec .b) := by decide
theorem test_decode_pfcomp : decode 0b0000000000_000000_000000_01_00110000 = .ok (.pfcomp .h) := by decide
theorem test_decode_pfdecomp : decode 0b0000000000_000000_000000_10_00110001 = .ok (.pfdecomp .w) := by decide

/-- The illegal words of 95_test_vectors.md, section 2.5, each for its reason. -/
theorem test_decode_zero_word : decode 0x00000000 = .error .unknownOp := by decide
theorem test_decode_unknown_op : decode 0x00000204 = .error .unknownOp := by decide
theorem test_decode_reserved_width : decode 0x00000321 = .error .reservedWidth := by decide
theorem test_decode_hbi_narrow : decode 0x00000101 = .error .widthNotWord := by decide
theorem test_decode_pfenc_with_bit_width : decode 0x00010221 = .error .bitWidthNotZero := by decide
theorem test_decode_reserved_bits :
    decode 0x00000621 = .error .reservedBit ∧ decode 0x00008221 = .error .reservedBit ∧
    decode 0x00400221 = .error .reservedBit ∧ decode 0x80000221 = .error .reservedBit := by decide

/-- The words of the examples of R86. -/
theorem test_encode_pack : encode (.pack .b 4) = 0x00040002 := by decide
theorem test_decodeTableWord_pfdecomp : decodeTableWord 32 0x231 = some (.pfdecomp .w) := by decide

/-! ### The commands, on the vectors of 95_test_vectors.md -/

/-- Eleven 8-bit elements at `0x100` and 12 bytes `EE` at `0x200` (P5). -/
def packReady (dcap : Word) : State :=
  ready 0x200 dcap 0x100 11 0
    (Memory.writeBytes (bytesAt 0x100 [1, 2, 3, 4, 5, 6, 7, 0, 1, 2, 3]) 0x200 (List.replicate 12 0xEE))

/-- The golden ten elements of P1 at `0x1000`, room for 64 bytes at `0x2000`. -/
def blockReady (dcap slen : Word) : State :=
  ready 0x2000 dcap 0x1000 slen 0
    (bytesAt 0x1000 ([1, 2, 3, 4, 5, 6, 7, 8, 9, 0xFFFF].flatMap (fun v => [v % 256, v / 256, 0, 0])))

/-- The golden block of section 1.2. -/
def goldenBlock : List Nat := [0x0A, 4, 1, 9, 0x21, 0x43, 0x65, 0x87, 9, 0, 0, 0, 0xFF, 0xFF, 3]

/-- A byte stream at `0x100`, room at `0x300`. -/
def streamReady (dcap arg : Word) (bs : List Nat) : State :=
  ready 0x300 dcap 0x100 (BitVec.ofNat 32 bs.length) arg (bytesAt 0x100 bs)

/-- The golden GroupVarint bytes of section 1.1. -/
def goldenGroups : List Nat := [0x40, 3, 0x0A, 0x14, 0x17, 1, 0x40, 3, 0x0A, 0x14, 0x17, 1]

/-- The golden eight elements of section 1.1 at `0x100`. -/
def groupsReady (dcap slen : Word) : State :=
  ready 0x200 dcap 0x100 slen 0
    (bytesAt 0x100 ([3, 10, 20, 279, 3, 10, 20, 279].flatMap (fun v => [v % 256, v / 256, 0, 0])))

theorem test_hbi : results .hbi (ready 0 0 0 0 0x117 []) = (1, 9, 0) := by decide +kernel
theorem test_hbi_of_zero : results .hbi (ready 0 0 0 0 0 []) = (1, 1, 0) := by decide +kernel

theorem test_pack : results (.pack .b 3) (packReady 2) = (1, 2, 0) ∧
    bytesAfter (.pack .b 3) (packReady 2) 0x200 9 = [0xD1, 0x58, 0x1F, 0xD1, 0, 0, 0, 0, 0xEE] := by decide +kernel
theorem test_pack_no_room : results (.pack .b 3) (packReady 1) = (0x12, 0, 0) ∧
    bytesAfter (.pack .b 3) (packReady 1) 0x200 2 = [0xEE, 0xEE] := by decide +kernel

theorem test_unpack_truncates : results (.unpack .b 12)
      (streamReady 5 5 [0x23, 0x61, 0x45, 0x89, 0xC7, 0xAB, 0xEF, 0x0D] |> fun s => { s with slen := 2 }) = (1, 5, 8) ∧
    bytesAfter (.unpack .b 12)
      (streamReady 5 5 [0x23, 0x61, 0x45, 0x89, 0xC7, 0xAB, 0xEF, 0x0D] |> fun s => { s with slen := 2 }) 0x300 6 =
      [0x23, 0x56, 0x89, 0xBC, 0xEF, 0] := by decide +kernel
theorem test_unpack_corrupt_before_capacity : results (.unpack .b 3)
      (streamReady 5 11 [0xD1, 0x58, 0x1F, 0xD1, 0, 0, 0, 0] |> fun s => { s with slen := 1 }) = (0x22, 0, 0) := by
  decide +kernel

theorem test_gvci : results .gvci (groupsReady 6 4) = (1, 6, 0) ∧
    bytesAfter .gvci (groupsReady 6 4) 0x200 6 = [0x40, 3, 0x0A, 0x14, 0x17, 1] := by decide +kernel
theorem test_gvci_needs_four : results .gvci (groupsReady 6 3) = (0x32, 0, 0) := by decide +kernel

theorem test_gvdi : results .gvdi (streamReady 4 0 [0xE4, 0x11, 0x22, 0x33, 0x44, 0x55, 0x66, 0x77, 0x88, 0x99, 0xAA]) =
      (1, 4, 11) ∧
    bytesAfter .gvdi (streamReady 4 0 [0xE4, 0x11, 0x22, 0x33, 0x44, 0x55, 0x66, 0x77, 0x88, 0x99, 0xAA]) 0x300 16 =
      [0x11, 0, 0, 0, 0x22, 0x33, 0, 0, 0x44, 0x55, 0x66, 0, 0x77, 0x88, 0x99, 0xAA] := by decide +kernel
theorem test_gvdi_cut_short : results .gvdi (streamReady 4 0 [0x40, 3, 0x0A, 0x14, 0x17]) = (0x22, 0, 0) := by
  decide +kernel

theorem test_gvc : results .gvc (groupsReady 12 8) = (1, 12, 0) ∧
    bytesAfter .gvc (groupsReady 12 8) 0x200 12 = goldenGroups := by decide +kernel
theorem test_gvc_no_room : results .gvc (groupsReady 11 8) = (0x12, 0, 0) := by decide +kernel

theorem test_gvd_wrong_count : results .gvd (streamReady 9 5 goldenGroups) = (1, 5, 7) ∧
    bytesAfter .gvd (streamReady 9 5 goldenGroups) 0x310 4 = [0x40, 0, 0, 0] := by decide +kernel
theorem test_gvd_exhausted : results .gvd (streamReady 9 9 goldenGroups) = (0x22, 0, 0) ∧
    (after .gvd (streamReady 9 9 goldenGroups)).drawn = 36 := by decide +kernel

theorem test_pfbits_golden : results (.pfbits .w) (blockReady 0 10) = (1, 4, 0) := by decide +kernel
theorem test_pfbits_too_long : results (.pfbits .w) (blockReady 0 129) = (0x32, 0, 0) := by decide +kernel

theorem test_pfenc_golden : results (.pfenc .w) (blockReady 15 10) = (1, 15, 0) ∧
    bytesAfter (.pfenc .w) (blockReady 15 10) 0x2000 16 = goldenBlock ++ [0] := by decide +kernel
theorem test_pfenc_widened_by_a_gap : (pfBlockEnc (100 :: (List.replicate 18 1 ++ [200]))).map BitVec.toNat =
    [0x14, 5, 2, 0, 0x33, 0x84, 0x10, 0x42, 8, 0x21, 0x84, 0x10, 0x42, 8, 0x21, 4, 0, 0, 0, 0, 0x64, 0xC8, 1] := by
  decide +kernel

theorem test_pfdec_zero_gap : results (.pfdec .w) (streamReady 4 0 [4, 8, 2, 0, 0, 5, 6, 7, 2, 0xAC, 2]) = (1, 4, 11) ∧
    bytesAfter (.pfdec .w) (streamReady 4 0 [4, 8, 2, 0, 0, 5, 6, 7, 2, 0xAC, 2]) 0x300 8 =
      [0x2C, 1, 0, 0, 5, 0, 0, 0] := by decide +kernel
theorem test_pfdec_value_too_wide : results (.pfdec .b) (streamReady 10 0 goldenBlock) = (0x22, 0, 0) ∧
    (after (.pfdec .b) (streamReady 10 0 goldenBlock)).drawn = 10 := by decide +kernel

theorem test_pfcomp_golden : results (.pfcomp .w) (blockReady 64 10) = (1, 15, 0) ∧
    bytesAfter (.pfcomp .w) (blockReady 64 10) 0x2000 15 = goldenBlock := by decide +kernel
theorem test_pfcomp_two_blocks : (pfStreamEnc (List.replicate 129 0)).map BitVec.toNat =
    [0x80, 1, 0, 0x80] ++ List.replicate 16 0 ++ [1, 1, 0, 0x80, 0, 0, 0, 0] := by decide +kernel

/-- The golden blocks of sections 1.2 and 1.3, one after the other (section 2.4, `X`). -/
def twoBlocks : List Nat := goldenBlock ++ [0x0A, 4, 0, 0x80, 0x21, 0x43, 0x65, 0x87, 0xA9, 0, 0, 0]

theorem test_pfdecomp : results (.pfdecomp .h) (streamReady 20 0 twoBlocks) = (1, 20, 27) ∧
    bytesAfter (.pfdecomp .h) (streamReady 20 0 twoBlocks) 0x310 8 = [9, 0, 0xFF, 0xFF, 1, 0, 2, 0] := by
  decide +kernel
theorem test_pfdecomp_no_room : results (.pfdecomp .w) (streamReady 19 0 twoBlocks) = (0x12, 0, 0) ∧
    (after (.pfdecomp .w) (streamReady 19 0 twoBlocks)).drawn = 76 := by decide +kernel

/-- Regions that touch but share no byte are legal; a destination that ends at `2^32` is legal; one byte more is not
(section 2.6). -/
theorem test_regions :
    results (.pfenc .w) (ready 0x128 15 0x100 10 0 []) = (1, 8, 0) ∧
    results (.pfenc .w) (ready 0x127 15 0x100 10 0 []) = (0x32, 0, 0) ∧
    results (.pfenc .w) (ready 0xFFFFFFF1 15 0x100 10 0 []) = (1, 8, 0) ∧
    results (.pfenc .w) (ready 0xFFFFFFF2 15 0x100 10 0 []) = (0x32, 0, 0) := by decide +kernel

/-- The end of P4, in the host's accesses: an illegal word, then `RD 9`, then an ignored write of `STATUS`. -/
theorem test_host_accesses :
    (match core.run 4 { State.reset with
        pending := [.write 0 0x321, .write 6 0xFFFFFFFF, .write 5 279, .write 0 0x201] } with
      | .next t => (State.status t, State.rcnt t, State.cmd t, State.arg t)
      | _ => (0, 0, 0, 0)) = (0x01, 9, 0x201, 279) := by decide +kernel

/-! ### Values that meet the hypotheses of each statement, together -/

theorem witness_DecodeInvertsEncode :
    (Instr.pack .h 63).wellFormed = true ∧ (Instr.unpack .w 0).wellFormed = true := by decide

theorem witness_EncodeInvertsDecode : decode 0x003F0002 = .ok (.pack .b 63) := by decide

theorem witness_IllegalWordsFault :
    ({ State.reset with pending := [.write 0 0x80000221] } : State).pending = .write 0 0x80000221 :: [] ∧
    IllegalWord 0x80000221 ∧ IllegalWord 0 ∧ IllegalWord 0x400221 ∧ IllegalWord 0x321 ∧ IllegalWord 0x101 ∧
    IllegalWord 0x10221 ∧ ¬IllegalWord 0x003F0002 ∧ ¬IllegalWord 0x201 :=
  ⟨rfl, by decide, by decide, by decide, by decide, by decide, by decide, by decide, by decide⟩

theorem witness_StepRunsTheCommandWritten :
    ({ State.reset with pending := [.write 0 0x201] } : State).pending = .write 0 0x201 :: [] ∧
    decode 0x201 = .ok .hbi := by decide

theorem witness_HostLineRunsItsCommand :
    (Instr.pfenc .w).wellFormed = true ∧
    ({ State.reset with pending := commandLine (.pfenc .w) ⟨0x2000, 64, 0x1000, 10, 0⟩ ++ [.read 6] } : State).pending =
      commandLine (.pfenc .w) ⟨0x2000, 64, 0x1000, 10, 0⟩ ++ [.read 6] := ⟨rfl, rfl⟩

theorem witness_HostReachesTheRegisters :
    (({ State.reset with pending := [.write 5 7] } : State).pending = .write 5 7 :: [] ∧ (5 : Nat) ≠ 0) ∧
    (({ State.reset with pending := [.write 6 7] } : State).pending = .write 6 7 :: [] ∧ (6 : Nat) ≠ 0) ∧
    (({ State.reset with pending := [.write 9 7] } : State).pending = .write 9 7 :: [] ∧ (9 : Nat) ≠ 0) ∧
    ({ State.reset with pending := [.read 8] } : State).pending = .read 8 :: [] ∧
    ({ State.reset with pending := [.read 9] } : State).pending = .read 9 :: [] ∧ 9 ≤ 9 := by decide

theorem witness_HostReachesTheMemory :
    (({ State.reset with pending := [.store 0xFFFFFFFF 7] } : State).pending = .store 0xFFFFFFFF 7 :: [] ∧
      0xFFFFFFFF < 2 ^ 32) ∧
    (({ State.reset with pending := [.store 0x100000000 7] } : State).pending = .store 0x100000000 7 :: [] ∧
      2 ^ 32 ≤ 0x100000000) ∧
    (({ State.reset with pending := [.load 0xFFFFFFFF] } : State).pending = .load 0xFFFFFFFF :: [] ∧
      0xFFFFFFFF < 2 ^ 32) ∧
    (({ State.reset with pending := [.load 0x100000000] } : State).pending = .load 0x100000000 :: [] ∧
      2 ^ 32 ≤ 0x100000000) := by decide

theorem witness_ResetClearsTheRegisters :
    ({ packReady 2 with pending := [.reset, .read 0] } : State).pending = .reset :: [.read 0] := rfl

theorem bytesAt_wf {base : Nat} {bs : List Nat} (h : base + bs.length ≤ Config.memoryBytes) : (bytesAt base bs).wf :=
  Memory.writeBytes_wf ⟨List.Pairwise.nil, by simp⟩ (fun _ => by simpa using h)

theorem witness_StepKeepsTheInvariant :
    ({ groupsReady 12 8 with pending := [.read 6] } : State).Inv ∧
    step { groupsReady 12 8 with pending := [.read 6] } = .next { groupsReady 12 8 with readData := 0 } :=
  ⟨⟨bytesAt_wf (by decide), .inl rfl, fun _ => ⟨rfl, rfl⟩⟩, rfl⟩

theorem witness_OnlyTheDestinationChanges :
    exec (.pack .b 3) (packReady 2) = .next (after (.pack .b 3) (packReady 2)) := exec_after _ _

theorem witness_OnlyOperandsAndSourceMatter :
    let s := groupsReady 12 8
    let u : State := { s with mem := s.mem.write 0x50 7, rcnt := 5, status := 0x22 }
    u.dst = s.dst ∧ u.dcap = s.dcap ∧ u.src = s.src ∧ u.slen = s.slen ∧ u.arg = s.arg ∧ u.drawn = s.drawn ∧
      ∀ a, InSource .gvc s a → u.mem.read a = s.mem.read a :=
  ⟨rfl, rfl, rfl, rfl, rfl, rfl, fun a h => by
    have ha : 0x100 ≤ a := h.1
    exact Memory.read_write_other (groupsReady 12 8).mem (a := 0x50) (b := a) 7 (by omega)⟩

theorem witness_ConsumedBytes :
    (exec .gvd (streamReady 8 8 goldenGroups) = .next (after .gvd (streamReady 8 8 goldenGroups)) ∧
      (after .gvd (streamReady 8 8 goldenGroups)).status = 0x01) ∧
    (exec (.pfdecomp .w) (streamReady 10 0 goldenBlock) = .next (after (.pfdecomp .w) (streamReady 10 0 goldenBlock)) ∧
      (after (.pfdecomp .w) (streamReady 10 0 goldenBlock)).status = 0x01) ∧
    (exec (.pack .b 3) (packReady 2) = .next (after (.pack .b 3) (packReady 2)) ∧
      (after (.pack .b 3) (packReady 2)).status = 0x01) :=
  ⟨⟨exec_after _ _, by decide +kernel⟩, ⟨exec_after _ _, by decide +kernel⟩, ⟨exec_after _ _, by decide +kernel⟩⟩

theorem witness_MemWriteIsLittleEndian : (3 : Nat) < 4 ∧ ¬(0x100 ≤ 0x104 ∧ 0x104 < 0x100 + 4) := by decide

theorem witness_CanonicalMemoriesAreEqualData :
    (bytesAt 0x100 [1, 2]).wf ∧ (Memory.write (bytesAt 0x100 [1]) 0x101 2).wf ∧
    ∀ a, (bytesAt 0x100 [1, 2]).read a = (Memory.write (bytesAt 0x100 [1]) 0x101 2).read a :=
  ⟨bytesAt_wf (by decide), Memory.write_wf _ (bytesAt_wf (by decide)) (by decide), fun _ => rfl⟩

theorem witness_ParameterFaults :
    (exec .gvci (groupsReady 6 3) = .next (after .gvci (groupsReady 6 3)) ∧
      (after .gvci (groupsReady 6 3)).status = 0x32) ∧
    (exec .gvci (groupsReady 6 4) = .next (after .gvci (groupsReady 6 4)) ∧
      (after .gvci (groupsReady 6 4)).status ≠ 0x32) :=
  ⟨⟨exec_after _ _, by decide +kernel⟩, ⟨exec_after _ _, by decide +kernel⟩⟩

/-- The bit widths next to the legal ones, 0 and 33, on legal regions, and the legal 1 and 32 (R83, R264). -/
theorem witness_ParameterFaults_bit_width :
    (exec (.pack .b 0) (packReady 12) = .next (after (.pack .b 0) (packReady 12)) ∧
      regionsLegal (.pack .b 0) (packReady 12) = true ∧ (after (.pack .b 0) (packReady 12)).status = 0x32 ∧
      (after (.pack .b 33) (packReady 12)).status = 0x32 ∧ (after (.pack .b 1) (packReady 12)).status = 0x01 ∧
      (after (.pack .b 32) (packReady 12)).status = 0x01) ∧
    (exec (.unpack .b 33) (streamReady 0 0 []) = .next (after (.unpack .b 33) (streamReady 0 0 [])) ∧
      regionsLegal (.unpack .b 33) (streamReady 0 0 []) = true ∧
      (after (.unpack .b 33) (streamReady 0 0 [])).status = 0x32 ∧
      (after (.unpack .b 0) (streamReady 0 0 [])).status = 0x32 ∧
      (after (.unpack .b 32) (streamReady 0 0 [])).status = 0x01) :=
  ⟨⟨exec_after _ _, by decide +kernel⟩, ⟨exec_after _ _, by decide +kernel⟩⟩

theorem witness_CapacityFaultsWriteNothing :
    (1 ≤ 3 ∧ 3 ≤ 32 ∧ regionsLegal (.pack .b 3) (packReady 1) = true ∧
      (packReady 1).dcap.toNat < ceilDiv ((packReady 1).slen.toNat * 3) 32) ∧
    (regionsLegal (.unpack .b 32) (streamReady 0 1 [0, 0, 0, 0]) = true ∧
      ceilDiv ((streamReady 0 1 [0, 0, 0, 0]).arg.toNat * 32) 32 ≤ (streamReady 0 1 [0, 0, 0, 0]).slen.toNat ∧
      (streamReady 0 1 [0, 0, 0, 0]).dcap.toNat < (streamReady 0 1 [0, 0, 0, 0]).arg.toNat) ∧
    (regionsLegal .gvci (groupsReady 5 4) = true ∧ (groupsReady 5 4).slen.toNat = 4 ∧
      ElemsAt (groupsReady 5 4).mem (groupsReady 5 4).src.toNat 4 [3, 10, 20, 279] ∧
      (groupsReady 5 4).dcap.toNat < (gvItemEnc 3 10 20 279).length) ∧
    (regionsLegal .gvdi (streamReady 3 0 goldenGroups) = true ∧ (streamReady 3 0 goldenGroups).dcap.toNat < 4) ∧
    (regionsLegal .gvc (groupsReady 11 8) = true ∧
      [3, 10, 20, 279, 3, 10, 20, 279].length = (groupsReady 11 8).slen.toNat ∧
      ElemsAt (groupsReady 11 8).mem (groupsReady 11 8).src.toNat 4 [3, 10, 20, 279, 3, 10, 20, 279] ∧
      (groupsReady 11 8).dcap.toNat < (gvEnc [3, 10, 20, 279, 3, 10, 20, 279]).length) ∧
    (regionsLegal .gvd (streamReady 8 9 goldenGroups) = true ∧
      (streamReady 8 9 goldenGroups).dcap.toNat < (streamReady 8 9 goldenGroups).arg.toNat) ∧
    (regionsLegal (.pfenc .w) (blockReady 14 10) = true ∧
      [1, 2, 3, 4, 5, 6, 7, 8, 9, 0xFFFF].length = (blockReady 14 10).slen.toNat ∧
      ElemsAt (blockReady 14 10).mem (blockReady 14 10).src.toNat ElemWidth.w.bytes [1, 2, 3, 4, 5, 6, 7, 8, 9, 0xFFFF] ∧
      (blockReady 14 10).dcap.toNat < (pfBlockEnc [1, 2, 3, 4, 5, 6, 7, 8, 9, 0xFFFF]).length) := by
  decide +kernel

theorem witness_ShortSourceFaults :
    (regionsLegal (.unpack .b 32) (streamReady 5 5 [0, 0, 0, 0]) = true ∧
      (streamReady 5 5 [0, 0, 0, 0]).slen.toNat < ceilDiv ((streamReady 5 5 [0, 0, 0, 0]).arg.toNat * 32) 32) ∧
    (regionsLegal .gvdi (streamReady 4 0 []) = true ∧ 4 ≤ (streamReady 4 0 []).dcap.toNat ∧
      (streamReady 4 0 []).slen.toNat = 0) ∧
    (regionsLegal .gvdi (streamReady 4 0 [0x40, 3, 0x0A, 0x14, 0x17]) = true ∧
      4 ≤ (streamReady 4 0 [0x40, 3, 0x0A, 0x14, 0x17]).dcap.toNat ∧
      (streamReady 4 0 [0x40, 3, 0x0A, 0x14, 0x17]).slen.toNat <
        1 + (selectorLengths ((streamReady 4 0 [0x40, 3, 0x0A, 0x14, 0x17]).mem.read 0x100).toNat).sum) := by
  decide +kernel

theorem witness_PreSizedDestinationSuffices :
    (regionsLegal .gvc (groupsReady 40 8) = true ∧ 5 * (groupsReady 40 8).slen.toNat ≤ (groupsReady 40 8).dcap.toNat) ∧
    (regionsLegal (.pfenc .w) (blockReady 576 128) = true ∧ 1 ≤ (blockReady 576 128).slen.toNat ∧
      (blockReady 576 128).slen.toNat ≤ 128 ∧ 576 ≤ (blockReady 576 128).dcap.toNat) ∧
    (regionsLegal (.pfcomp .w) (blockReady 1152 129) = true ∧
      576 * ceilDiv (blockReady 1152 129).slen.toNat 128 ≤ (blockReady 1152 129).dcap.toNat) := by decide +kernel

theorem witness_HighBitIdxIsTheBitLength :
    0 < 2 ^ 32 ∧ 0xFFFFFFFF < 2 ^ 32 ∧ 0xFFFFFFFF ≠ 0 ∧ 0xFFFFFFFF = 2 ^ 32 - 1 ∧ 1 ≤ 32 ∧ 0x80000000 = 2 ^ 31 := by
  decide

theorem witness_PackLoopAgrees : 1 ≤ 12 ∧ 12 ≤ 32 ∧ 1 < ceilDiv ([0x123, 0x456, 0x789].length * 12) 32 := by decide

theorem witness_UnpackLoopAgrees :
    1 ≤ 12 ∧ 12 ≤ 32 ∧ AllBelow 32 [0x89456123, 0x0DEFABC7] ∧
    ceilDiv (3 * 12) 32 ≤ [0x89456123, 0x0DEFABC7].length ∧ 2 < 3 ∧
    wordSum [0x89456123, 0xF] % 2 ^ (3 * 12) = wordSum [0x89456123, 0xFF] % 2 ^ (3 * 12) := by decide

theorem witness_UnpackInvertsPack : 1 ≤ 32 ∧ 32 ≤ 32 ∧ AllBelow 32 [0xFFFFFFFF, 0] := by decide

theorem witness_PackedBitsLieInOrder :
    1 ≤ 17 ∧ 17 ≤ 32 ∧ [0x1FFFF, 1].length ≤ 128 ∧ 1 < [0x1FFFF, 1].length ∧ 16 < 17 ∧
    [0x1FFFF, 1].length * 17 ≤ 34 := by decide

theorem witness_PackStoresThePackedWords :
    1 ≤ 3 ∧ 3 ≤ 32 ∧ regionsLegal (.pack .b 3) (packReady 2) = true ∧
    [1, 2, 3, 4, 5, 6, 7, 0, 1, 2, 3].length = (packReady 2).slen.toNat ∧
    ElemsAt (packReady 2).mem (packReady 2).src.toNat ElemWidth.b.bytes [1, 2, 3, 4, 5, 6, 7, 0, 1, 2, 3] ∧
    ceilDiv ([1, 2, 3, 4, 5, 6, 7, 0, 1, 2, 3].length * 3) 32 ≤ (packReady 2).dcap.toNat := by decide +kernel

/-- Two words at `0x100` for `UNPACK` of five fields of 12 bits. -/
def unpackReady : State :=
  { streamReady 5 5 [0x23, 0x61, 0x45, 0x89, 0xC7, 0xAB, 0xEF, 0x0D] with slen := 2 }

theorem witness_UnpackStoresTheFields :
    1 ≤ 12 ∧ 12 ≤ 32 ∧ regionsLegal (.unpack .b 12) unpackReady = true ∧
    [0x89456123, 0x0DEFABC7].length = ceilDiv (unpackReady.arg.toNat * 12) 32 ∧
    [0x89456123, 0x0DEFABC7].length ≤ unpackReady.slen.toNat ∧
    ElemsAt unpackReady.mem unpackReady.src.toNat 4 [0x89456123, 0x0DEFABC7] ∧
    unpackReady.arg.toNat ≤ unpackReady.dcap.toNat := by decide +kernel

theorem witness_ByteLenIsTheSmallest : 0xFFFFFFFF < 2 ^ 32 ∧ 1 ≤ 3 ∧ 3 < byteLen 0xFFFFFFFF := by decide

theorem witness_GroupRoundTrip : 0 < 2 ^ 32 ∧ 0xFF < 2 ^ 32 ∧ 0x100 < 2 ^ 32 ∧ 0xFFFFFFFF < 2 ^ 32 := by decide

theorem witness_GroupVarintRoundTrip : AllBelow 32 [300, 70000, 5, 0x80000000, 127, 128, 16384] := by decide

theorem witness_TailVarintDecodesExactly :
    varintDec [0xFF, 0xFF, 0xFF, 0xFF, 0x0F] = .ok (0xFFFFFFFF, 5) ∧ varintDec [0x80, 0] = .ok (0, 2) ∧
    varintDec [0x80, 0x80, 0x80, 0x80, 0x10] = .error .corrupt ∧ 0xFFFFFFFF < 2 ^ 32 := by decide +kernel

theorem witness_GvciStoresTheGroup :
    (groupsReady 6 4).slen.toNat = 4 ∧ regionsLegal .gvci (groupsReady 6 4) = true ∧
    ElemsAt (groupsReady 6 4).mem (groupsReady 6 4).src.toNat 4 [3, 10, 20, 279] ∧
    (gvItemEnc 3 10 20 279).length ≤ (groupsReady 6 4).dcap.toNat := by decide +kernel

theorem witness_GvdiStoresTheSlots :
    let s := streamReady 4 0 [0, 1, 2, 3, 4]
    let len : Nat → Nat := fun _ => 1
    let off : Nat → Nat := fun j => 1 + j
    (∀ j, len j = (s.mem.read s.src.toNat).toNat / 4 ^ j % 4 + 1) ∧ off 0 = 1 ∧ (∀ j, off (j + 1) = off j + len j) ∧
      regionsLegal .gvdi s = true ∧ 4 ≤ s.dcap.toNat ∧ off 4 ≤ s.slen.toNat := by
  have h : (streamReady 4 0 [0, 1, 2, 3, 4]).mem.read (streamReady 4 0 [0, 1, 2, 3, 4]).src.toNat = 0 := by
    decide +kernel
  exact ⟨fun j => by rw [h]; simp, rfl, fun j => by show 1 + (j + 1) = 1 + j + 1; omega, by decide +kernel, by decide +kernel, by decide +kernel⟩

theorem witness_GvcStoresTheStream :
    regionsLegal .gvc (groupsReady 12 8) = true ∧
    [3, 10, 20, 279, 3, 10, 20, 279].length = (groupsReady 12 8).slen.toNat ∧
    ElemsAt (groupsReady 12 8).mem (groupsReady 12 8).src.toNat 4 [3, 10, 20, 279, 3, 10, 20, 279] ∧
    (gvEnc [3, 10, 20, 279, 3, 10, 20, 279]).length ≤ (groupsReady 12 8).dcap.toNat := by decide +kernel

theorem witness_GvdStoresTheValues :
    regionsLegal .gvd (streamReady 9 5 goldenGroups) = true ∧
    (streamReady 9 5 goldenGroups).arg.toNat ≤ (streamReady 9 5 goldenGroups).dcap.toNat ∧
    gvDec (sourceStream (streamReady 9 5 goldenGroups)) (streamReady 9 5 goldenGroups).arg.toNat =
      .ok ([3, 10, 20, 279, 0x40], 7) := by decide +kernel

theorem witness_GvdOnACutStreamFaults :
    let s := streamReady 5 5 [0, 1, 2, 3, 4]
    regionsLegal .gvd s = true ∧ AllBelow 32 [1, 2, 3, 4, 5] ∧ s.arg.toNat = [1, 2, 3, 4, 5].length ∧
    [1, 2, 3, 4, 5].length ≤ s.dcap.toNat ∧ 5 < (gvEnc [1, 2, 3, 4, 5]).length ∧
    sourceStream s = (gvEnc [1, 2, 3, 4, 5]).take 5 ∧ gvDec (sourceStream s) s.arg.toNat = .error .corrupt := by
  decide +kernel

/-- A tail varint whose fifth byte has bit 7 set, and one of the value `2^32`, after four whole values and one
(R98). -/
theorem witness_GvdOnACutStreamFaults_tail :
    (regionsLegal .gvd (streamReady 6 6 [0, 1, 2, 3, 4, 5, 0xFF, 0xFF, 0xFF, 0xFF, 0xFF]) = true ∧
      AllBelow 32 [1, 2, 3, 4, 5] ∧ [1, 2, 3, 4, 5].length < 6 ∧ [1, 2, 3, 4, 5].length / 4 = 6 / 4 ∧
      sourceStream (streamReady 6 6 [0, 1, 2, 3, 4, 5, 0xFF, 0xFF, 0xFF, 0xFF, 0xFF]) =
        gvEnc [1, 2, 3, 4, 5] ++ [0xFF, 0xFF, 0xFF, 0xFF, 0xFF] ∧
      varintDec [0xFF, 0xFF, 0xFF, 0xFF, 0xFF] = .error .corrupt) ∧
    (sourceStream (streamReady 1 1 [0x80, 0x80, 0x80, 0x80, 0x10]) = gvEnc [] ++ [0x80, 0x80, 0x80, 0x80, 0x10] ∧
      regionsLegal .gvd (streamReady 1 1 [0x80, 0x80, 0x80, 0x80, 0x10]) = true ∧
      varintDec [0x80, 0x80, 0x80, 0x80, 0x10] = .error .corrupt) := by decide +kernel

theorem witness_MaxBitNumIsTheSmallestWidth :
    [1, 2, 3, 4, 5, 6, 7, 8, 9, 0xFFFF].length ≤ 128 ∧ AllBelow 32 [1, 2, 3, 4, 5, 6, 7, 8, 9, 0xFFFF] ∧ 1 ≤ 3 ∧
    3 < maxBitNum [1, 2, 3, 4, 5, 6, 7, 8, 9, 0xFFFF] := by decide +kernel

theorem witness_PfbitsReportsTheWidth :
    (blockReady 0 10).slen.toNat ≤ 128 ∧ regionsLegal (.pfbits .w) (blockReady 0 10) = true ∧
    [1, 2, 3, 4, 5, 6, 7, 8, 9, 0xFFFF].length = (blockReady 0 10).slen.toNat ∧
    ElemsAt (blockReady 0 10).mem (blockReady 0 10).src.toNat ElemWidth.w.bytes [1, 2, 3, 4, 5, 6, 7, 8, 9, 0xFFFF] := by
  decide +kernel

theorem witness_ChainHoldsTheGaps :
    [9, 0, 9, 0, 9].length ≤ 128 ∧ [0, 2, 4] = exceptionIndices [9, 0, 9, 0, 9] 1 ∧
    [2, 0, 2, 0, 0] = rewriteSlots [9, 0, 9, 0, 9] ([0, 2, 4].zip (chainGaps [0, 2, 4])) ∧
    1 + 1 < [0, 2, 4].length ∧ 1 < [9, 0, 9, 0, 9].length ∧ 1 ∉ [0, 2, 4] := by decide

theorem witness_EncodedBlockHasItsShape :
    1 ≤ 16 ∧ 16 ≤ 32 ∧ AllBelow 16 [1, 2, 3, 4, 5, 6, 7, 8, 9, 0xFFFF] ∧
    [1, 2, 3, 4, 5, 6, 7, 8, 9, 0xFFFF].length ≤ 128 ∧ 4 = maxBitNum [1, 2, 3, 4, 5, 6, 7, 8, 9, 0xFFFF] ∧
    10 = ((pfBlockEnc [1, 2, 3, 4, 5, 6, 7, 8, 9, 0xFFFF]).getD 0 0).toNat ∧
    4 = ((pfBlockEnc [1, 2, 3, 4, 5, 6, 7, 8, 9, 0xFFFF]).getD 1 0).toNat ∧
    1 = ((pfBlockEnc [1, 2, 3, 4, 5, 6, 7, 8, 9, 0xFFFF]).getD 2 0).toNat ∧
    9 = ((pfBlockEnc [1, 2, 3, 4, 5, 6, 7, 8, 9, 0xFFFF]).getD 3 0).toNat := by decide +kernel

theorem witness_BlockRoundTrip :
    1 ≤ [0xFF, 0].length ∧ [0xFF, 0].length ≤ 128 ∧ AllBelow ElemWidth.b.bits [0xFF, 0] ∧ [0xFF, 0].length ≤ 2 := by
  decide

theorem witness_PfencStoresTheBlock :
    1 ≤ (blockReady 15 10).slen.toNat ∧ (blockReady 15 10).slen.toNat ≤ 128 ∧
    regionsLegal (.pfenc .w) (blockReady 15 10) = true ∧
    [1, 2, 3, 4, 5, 6, 7, 8, 9, 0xFFFF].length = (blockReady 15 10).slen.toNat ∧
    ElemsAt (blockReady 15 10).mem (blockReady 15 10).src.toNat ElemWidth.w.bytes [1, 2, 3, 4, 5, 6, 7, 8, 9, 0xFFFF] ∧
    (pfBlockEnc [1, 2, 3, 4, 5, 6, 7, 8, 9, 0xFFFF]).length ≤ (blockReady 15 10).dcap.toNat := by decide +kernel

theorem witness_PfdecStoresTheValues :
    regionsLegal (.pfdec .h) (streamReady 10 0 goldenBlock) = true ∧
    pfBlockDec (sourceStream (streamReady 10 0 goldenBlock)) (streamReady 10 0 goldenBlock).dcap.toNat .h =
      .ok ([1, 2, 3, 4, 5, 6, 7, 8, 9, 0xFFFF], 15) := by decide +kernel

/-- One stream for each clause: header cut short, `numInts` 129, `bitWidth` 0 and 33, `numExceptions` above
`numInts`, `first` above `numInts`; then accepted headers, with `DCAP` too small and with the payload cut short. -/
theorem witness_BlockHeaderIsChecked :
    (regionsLegal (.pfdec .w) (streamReady 9 0 [0x0A, 4, 1]) = true ∧ (streamReady 9 0 [0x0A, 4, 1]).slen.toNat < 4) ∧
    (regionsLegal (.pfdec .w) (streamReady 0 0 [0x81, 0x20, 0, 0x80]) = true ∧
      129 = ((streamReady 0 0 [0x81, 0x20, 0, 0x80]).mem.read 0x100).toNat ∧ 128 < 129) ∧
    0 = ((streamReady 9 0 [2, 0, 0, 0x80]).mem.read 0x101).toNat ∧
    33 = ((streamReady 9 0 [2, 0x21, 0, 0x80]).mem.read 0x101).toNat ∧
    3 = ((streamReady 9 0 [2, 4, 3, 0]).mem.read 0x102).toNat ∧ 2 < 3 ∧
    11 = ((streamReady 9 0 [0x0A, 4, 0, 0x0B]).mem.read 0x103).toNat ∧ 10 < 11 ∧ 11 ≠ 128 ∧
    (regionsLegal (.pfdec .w) (streamReady 9 0 goldenBlock) = true ∧ 4 ≤ (streamReady 9 0 goldenBlock).slen.toNat ∧
      10 = ((streamReady 9 0 goldenBlock).mem.read 0x100).toNat ∧ 4 = ((streamReady 9 0 goldenBlock).mem.read 0x101).toNat ∧
      1 = ((streamReady 9 0 goldenBlock).mem.read 0x102).toNat ∧ 9 = ((streamReady 9 0 goldenBlock).mem.read 0x103).toNat ∧
      (streamReady 9 0 goldenBlock).dcap.toNat < 10) ∧
    (regionsLegal (.pfdec .w) (streamReady 10 0 [10, 4, 0, 0x80, 1, 2, 3, 4, 5, 6, 7]) = true ∧
      10 ≤ (streamReady 10 0 [10, 4, 0, 0x80, 1, 2, 3, 4, 5, 6, 7]).dcap.toNat ∧
      (streamReady 10 0 [10, 4, 0, 0x80, 1, 2, 3, 4, 5, 6, 7]).slen.toNat < 4 + 4 * ceilDiv (10 * 4) 32) := by
  decide +kernel

/-- The golden block for a decode to `EW` bits: its header and payload are good, the last value takes 16 bits. -/
theorem witness_CorruptBlockKeepsTheRest :
    (exec (.pfdec .b) (streamReady 10 0 goldenBlock) = .next (after (.pfdec .b) (streamReady 10 0 goldenBlock)) ∧
      (after (.pfdec .b) (streamReady 10 0 goldenBlock)).status = 0x22) ∧
    let s := streamReady 10 0 goldenBlock
    let side : List Byte := [0xFF, 0xFF, 3]
    regionsLegal (.pfdec .b) s = true ∧ 10 = (s.mem.read s.src.toNat).toNat ∧
      4 = (s.mem.read (s.src.toNat + 1)).toNat ∧ 1 = (s.mem.read (s.src.toNat + 2)).toNat ∧
      9 = (s.mem.read (s.src.toNat + 3)).toNat ∧ 10 ≤ s.dcap.toNat ∧
      [0x87654321, 9].length = ceilDiv (10 * 4) 32 ∧ 4 + 4 * [0x87654321, 9].length ≤ s.slen.toNat ∧
      ElemsAt s.mem (s.src.toNat + 4) 4 [0x87654321, 9] ∧
      side = (sourceStream s).drop (4 + 4 * [0x87654321, 9].length) ∧ gvDec side 1 = .ok ([0xFFFF], 3) ∧
      chainWalk [0xFFFF] 9 (unpackBits [0x87654321, 9] 4 10) = some [1, 2, 3, 4, 5, 6, 7, 8, 9, 0xFFFF] ∧
      2 ^ ElemWidth.b.bits ≤ 0xFFFF ∧ pfBlockDec (sourceStream s) s.dcap.toNat .b = .error ⟨.corrupt, 10⟩ :=
  ⟨⟨exec_after _ _, by decide +kernel⟩, by decide +kernel⟩

/-- The other late causes: a side buffer that ends early, one with a malformed varint, and a gap of 4 that takes the
second step out of a block of 4; each with the rest of the block good. -/
theorem witness_CorruptBlockKeepsTheRest_late :
    (gvDec ((sourceStream (streamReady 10 0 (goldenBlock.take 14))).drop 12) 1 = .error .corrupt ∧
      pfBlockDec (sourceStream (streamReady 10 0 (goldenBlock.take 14))) 10 .w = .error ⟨.corrupt, 10⟩) ∧
    (gvDec ((sourceStream (streamReady 10 0 (goldenBlock.take 14 ++ [0xFF, 0xFF, 0xFF]))).drop 12) 1 =
        .error .corrupt ∧
      pfBlockDec (sourceStream (streamReady 10 0 (goldenBlock.take 14 ++ [0xFF, 0xFF, 0xFF]))) 10 .w =
        .error ⟨.corrupt, 10⟩) ∧
    (gvDec ((sourceStream (streamReady 4 0 [4, 8, 2, 0, 4, 5, 6, 7, 2, 0xAC, 2])).drop 8) 2 = .ok ([2, 300], 3) ∧
      ElemsAt (streamReady 4 0 [4, 8, 2, 0, 4, 5, 6, 7, 2, 0xAC, 2]).mem 0x104 4 [0x07060504] ∧
      chainWalk [2, 300] 0 (unpackBits [0x07060504] 8 4) = none) := by decide +kernel

theorem witness_ChainEndsByCount :
    (0 < [0, 5, 6, 7].length ∧ [0, 5, 6, 7].getD 0 0 = 0) ∧
    ((5 : Byte).toNat ≤ (10 : Byte).toNat ∧ (128 : Byte).toNat = 128) ∧
    ((10 : Byte).toNat ≤ (10 : Byte).toNat ∧ 0 < (1 : Byte).toNat ∧ (10 : Byte).toNat ≤ 10) := by decide

theorem witness_DecodeWidthOnlyLimitsTheValues :
    (pfBlockDec ([2, 9, 0, 0x80, 0xFF, 0, 0, 0] : List Byte) 2 .w = .ok ([0xFF, 0], 8) ∧
      AllBelow ElemWidth.b.bits [0xFF, 0]) ∧
    (pfBlockDec ([2, 9, 0, 0x80, 0xFF, 1, 0, 0] : List Byte) 2 .w = .ok ([0x1FF, 0], 8) ∧
      ¬AllBelow ElemWidth.b.bits [0x1FF, 0]) ∧
    pfBlockDec ([2, 9, 0, 0x80, 0xFF, 0, 0, 0] : List Byte) 2 .b = .ok ([0xFF, 0], 8) := by decide +kernel

theorem witness_StreamsConcatenate : 128 ∣ (List.replicate 128 1).length := by simp

theorem witness_StreamRoundTrip : AllBelow ElemWidth.h.bits [0xFFFF, 0] ∧ [0xFFFF, 0].length ≤ 2 := by decide

theorem witness_PfcompStoresTheStream :
    regionsLegal (.pfcomp .w) (blockReady 15 10) = true ∧
    [1, 2, 3, 4, 5, 6, 7, 8, 9, 0xFFFF].length = (blockReady 15 10).slen.toNat ∧
    ElemsAt (blockReady 15 10).mem (blockReady 15 10).src.toNat ElemWidth.w.bytes [1, 2, 3, 4, 5, 6, 7, 8, 9, 0xFFFF] ∧
    (pfStreamEnc [1, 2, 3, 4, 5, 6, 7, 8, 9, 0xFFFF]).length ≤ (blockReady 15 10).dcap.toNat := by decide +kernel

theorem witness_PfdecompStoresTheValues :
    regionsLegal (.pfdecomp .h) (streamReady 20 0 twoBlocks) = true ∧
    pfStreamDec (sourceStream (streamReady 20 0 twoBlocks)) (streamReady 20 0 twoBlocks).dcap.toNat .h =
      .ok ([1, 2, 3, 4, 5, 6, 7, 8, 9, 0xFFFF, 1, 2, 3, 4, 5, 6, 7, 8, 9, 10], 27) := by decide +kernel

theorem witness_StreamFaultsKeepTheRest :
    (regionsLegal (.pfdecomp .w) (streamReady 1 0 [1, 3, 0, 0x80, 5, 0, 0, 0, 9, 9, 9]) = true ∧
      AllBelow ElemWidth.w.bits [5] ∧
      sourceStream (streamReady 1 0 [1, 3, 0, 0x80, 5, 0, 0, 0, 9, 9, 9]) = pfStreamEnc [5] ++ [9, 9, 9] ∧
      [5].length ≤ (streamReady 1 0 [1, 3, 0, 0x80, 5, 0, 0, 0, 9, 9, 9]).dcap.toNat) ∧
    (regionsLegal (.pfdecomp .w) (streamReady 0 0 [1, 3, 0, 0x80, 5, 0, 0, 0]) = true ∧
      sourceStream (streamReady 0 0 [1, 3, 0, 0x80, 5, 0, 0, 0]) = pfStreamEnc [5] ++ [] ∧
      (streamReady 0 0 [1, 3, 0, 0x80, 5, 0, 0, 0]).dcap.toNat < [5].length) ∧
    (regionsLegal (.pfcomp .w) (blockReady 14 10) = true ∧
      [1, 2, 3, 4, 5, 6, 7, 8, 9, 0xFFFF].length = (blockReady 14 10).slen.toNat ∧
      ElemsAt (blockReady 14 10).mem (blockReady 14 10).src.toNat ElemWidth.w.bytes [1, 2, 3, 4, 5, 6, 7, 8, 9, 0xFFFF] ∧
      (blockReady 14 10).dcap.toNat < (pfStreamEnc [1, 2, 3, 4, 5, 6, 7, 8, 9, 0xFFFF]).length) := by decide +kernel

/-- A good block before one whose header holds a `bitWidth` of 0, and before one of more values than are left of
`DCAP`: the code of the stream is the code of the second block. -/
theorem witness_StreamFaultsKeepTheRest_block :
    (regionsLegal (.pfdecomp .w) (streamReady 4 0 [1, 3, 0, 0x80, 5, 0, 0, 0, 2, 0, 0, 0x80]) = true ∧
      AllBelow ElemWidth.w.bits [5] ∧
      sourceStream (streamReady 4 0 [1, 3, 0, 0x80, 5, 0, 0, 0, 2, 0, 0, 0x80]) = pfStreamEnc [5] ++ [2, 0, 0, 0x80] ∧
      pfBlockDec [2, 0, 0, 0x80] (4 - [5].length) .w = .error ⟨.corrupt, 0⟩ ∧
      pfStreamDec (sourceStream (streamReady 4 0 [1, 3, 0, 0x80, 5, 0, 0, 0, 2, 0, 0, 0x80])) 4 .w =
        .error .corrupt) ∧
    (regionsLegal (.pfdecomp .w) (streamReady 2 0 [1, 3, 0, 0x80, 5, 0, 0, 0, 2, 3, 0, 0x80]) = true ∧
      sourceStream (streamReady 2 0 [1, 3, 0, 0x80, 5, 0, 0, 0, 2, 3, 0, 0x80]) = pfStreamEnc [5] ++ [2, 3, 0, 0x80] ∧
      pfBlockDec [2, 3, 0, 0x80] (2 - [5].length) .w = .error ⟨.capacity, 0⟩ ∧
      pfStreamDec (sourceStream (streamReady 2 0 [1, 3, 0, 0x80, 5, 0, 0, 0, 2, 3, 0, 0x80])) 2 .w =
        .error .capacity) := by decide +kernel

/-- The host points the unit at the bytes a command stored, with room at `0x3000` for `n` elements. -/
def pointAt (s t : State) (n : Word) : State :=
  { t with src := s.dst, slen := t.rcnt, dst := 0x3000, dcap := n, arg := s.slen }

/-- The hypotheses of `Restores` are met by `s`, the state `enc` leaves, and `pointAt` of both. -/
theorem witness_Restores {enc dec : Instr} {s : State} {n : Word} (h1 : (after enc s).status = 0x01)
    (h2 : s.slen.toNat ≤ n.toNat) (h3 : regionsLegal dec (pointAt s (after enc s) n) = true) :
    let t := after enc s
    let u := pointAt s t n
    exec enc s = .next t ∧ t.status = 0x01 ∧
      (∀ a, s.dst.toNat ≤ a → a < s.dst.toNat + t.rcnt.toNat → u.mem.read a = t.mem.read a) ∧
      u.src = s.dst ∧ u.slen = t.rcnt ∧ s.slen.toNat ≤ u.dcap.toNat ∧ (dec = .gvd → u.arg = s.slen) ∧
      regionsLegal dec u = true :=
  ⟨exec_after _ _, h1, fun _ _ _ => rfl, rfl, rfl, h2, fun _ => rfl, h3⟩

theorem witness_GroupVarintAndBlocksRestore :
    ((after .gvc (groupsReady 12 8)).status = 0x01 ∧ (groupsReady 12 8).slen.toNat ≤ (8 : Word).toNat ∧
      regionsLegal .gvd (pointAt (groupsReady 12 8) (after .gvc (groupsReady 12 8)) 8) = true) ∧
    ((after (.pfenc .w) (blockReady 15 10)).status = 0x01 ∧ (blockReady 15 10).slen.toNat ≤ (10 : Word).toNat ∧
      regionsLegal (.pfdec .w) (pointAt (blockReady 15 10) (after (.pfenc .w) (blockReady 15 10)) 10) = true) := by
  decide +kernel

theorem witness_CompressedSequencesAreRestored :
    (after (.pfcomp .w) (blockReady 64 10)).status = 0x01 ∧ (blockReady 64 10).slen.toNat ≤ (10 : Word).toNat ∧
    regionsLegal (.pfdecomp .w) (pointAt (blockReady 64 10) (after (.pfcomp .w) (blockReady 64 10)) 10) = true := by
  decide +kernel

end Sys2Proof.Tests
end

section
/-! PROOFS, 00_scope.md. Every decoder of the unit gives back what its encoder was given: element arrays, the bit
packer, GroupVarint, PForDelta blocks and streams, and from these the two commands of R12. -/

namespace Sys2Proof.Machine

/-! ### Elements in memory -/

theorem elemWidth_bits_le (ew : ElemWidth) : ew.bits ≤ 32 := by cases ew <;> decide

@[simp] theorem allBelow_nil (b : Nat) : AllBelow b [] := fun _ hv => nomatch hv

theorem AllBelow.mono {a b : Nat} {vs : List Nat} (h : AllBelow a vs) (hab : a ≤ b) : AllBelow b vs :=
  fun v hv => (h v hv).trans_le (Nat.pow_le_pow_right (by decide) hab)

theorem Memory.readLe_lt (m : Memory) (a n : Nat) : m.readLe a n < 2 ^ (8 * n) := by
  have h := leValue_lt (m.readBytes a n)
  rwa [Memory.length_readBytes, show 256 = 2 ^ 8 from rfl, ← Nat.pow_mul] at h

@[simp] theorem length_loadElems (m : Memory) (w base n : Nat) : (loadElems m w base n).length = n := by
  induction n generalizing base with
  | zero => rfl
  | succ n ih => simp [loadElems, ih]

theorem loadElems_getD (m : Memory) (w base : Nat) {n i : Nat} (hi : i < n) :
    (loadElems m w base n).getD i 0 = m.readLe (base + i * w) w := by
  induction n generalizing base i with
  | zero => omega
  | succ n ih =>
    cases i with
    | zero => simp [loadElems]
    | succ i =>
      simp only [loadElems, List.getD_cons_succ]
      rw [ih (base + w) (by omega), Nat.succ_mul]
      congr 1; omega

theorem allBelow_loadElems (m : Memory) (w base n : Nat) : AllBelow (8 * w) (loadElems m w base n) := by
  induction n generalizing base with
  | zero => exact allBelow_nil _
  | succ n ih => exact List.forall_mem_cons.mpr ⟨m.readLe_lt _ _, ih _⟩

/-- An element array is cut out of its bytes slot by slot. -/
theorem loadElems_eq_slotValues (m : Memory) (w base n : Nat) :
    loadElems m w base n = slotValues (List.replicate n w) (m.readBytes base (n * w)) := by
  induction n generalizing base with
  | zero => rfl
  | succ n ih =>
    rw [show (n + 1) * w = w + n * w by ring, Memory.readBytes_append, List.replicate_succ, slotValues,
      List.take_left' (m.length_readBytes _ _), List.drop_left' (m.length_readBytes _ _), ← ih]
    rfl

/-! ### Slots: the form shared by word payloads and GroupVarint groups -/

/-- Consecutive slots hold their values, each modulo what its length can hold, whatever bytes follow (R51, R91). -/
theorem slotValues_leBytes (slots : List (Nat × Nat)) (more : List Byte) :
    slotValues (slots.map Prod.fst) (slots.flatMap (fun p => leBytes p.1 p.2) ++ more) =
      slots.map (fun p => p.2 % 256 ^ p.1) := by
  induction slots with
  | nil => rfl
  | cons p slots ih =>
    have hlen : (leBytes p.1 p.2).length = p.1 := length_leBytes _ _
    simp only [List.map_cons, List.flatMap_cons, List.append_assoc, slotValues, List.take_left' hlen,
      List.drop_left' hlen, leValue_leBytes, ih]

@[simp] theorem length_elemBytes (w : Nat) (vs : List Nat) : (elemBytes w vs).length = vs.length * w := by
  simp [elemBytes, List.length_flatMap]

/-- Elements of `w` bytes come back from their bytes. -/
theorem slotValues_elemBytes {w : Nat} {vs : List Nat} (more : List Byte) (h : AllBelow (8 * w) vs) :
    slotValues (List.replicate vs.length w) (elemBytes w vs ++ more) = vs := by
  have hslots := slotValues_leBytes (vs.map (fun v => (w, v))) more
  have hmod : vs.map (fun v => v % 256 ^ w) = vs.map id :=
    List.map_congr_left fun v hv => Nat.mod_eq_of_lt (by rw [show 256 = 2 ^ 8 from rfl, ← Nat.pow_mul]; exact h v hv)
  simpa [elemBytes, List.flatMap_map, Function.comp_def, hmod] using hslots

/-- Elements stored are the elements loaded. -/
theorem loadElems_writeBytes_elemBytes (m : Memory) (w a : Nat) {vs : List Nat} (h : AllBelow (8 * w) vs) :
    loadElems (m.writeBytes a (elemBytes w vs)) w a vs.length = vs := by
  have hread := m.readBytes_writeBytes a (elemBytes w vs)
  rw [length_elemBytes] at hread
  rw [loadElems_eq_slotValues, hread]
  simpa using slotValues_elemBytes [] h

/-! ### The bit packer: unpacking inverts packing -/

@[simp] theorem length_cutFields (bw n x : Nat) : (cutFields bw n x).length = n := by
  induction n generalizing x with
  | zero => rfl
  | succ n ih => simp [cutFields, ih]

theorem allBelow_cutFields (bw n x : Nat) : AllBelow bw (cutFields bw n x) := by
  induction n generalizing x with
  | zero => exact allBelow_nil _
  | succ n ih => exact List.forall_mem_cons.mpr ⟨Nat.mod_lt _ (by positivity), ih _⟩

theorem fieldSum_lt (bw : Nat) (vs : List Nat) : fieldSum bw vs < 2 ^ (vs.length * bw) := by
  induction vs with
  | nil => simp [fieldSum]
  | cons v vs ih =>
    have hv : v % 2 ^ bw < 2 ^ bw := Nat.mod_lt _ (by positivity)
    rw [fieldSum, List.length_cons, Nat.succ_mul, Nat.add_comm, Nat.pow_add, Nat.mul_comm (2 ^ bw)]
    exact Nat.lt_of_lt_of_le (by linarith) (Nat.mul_le_mul_right (2 ^ bw) ih)

/-- The fields of the sum are the values, each modulo what its field holds (R122, R123). -/
theorem cutFields_fieldSum (bw : Nat) (vs : List Nat) :
    cutFields bw vs.length (fieldSum bw vs) = vs.map (· % 2 ^ bw) := by
  induction vs with
  | nil => rfl
  | cons v vs ih =>
    simp [cutFields, fieldSum, Nat.add_mul_div_left, Nat.mod_div_self, ih]

/-- Words carry a number modulo `2^(32k)`. -/
theorem wordSum_cutFields (k x : Nat) : wordSum (cutFields 32 k x) = x % 2 ^ (32 * k) := by
  induction k generalizing x with
  | zero => simp [cutFields, wordSum, Nat.mod_one]
  | succ k ih => rw [cutFields, wordSum, ih, show 32 * (k + 1) = 32 + 32 * k by ring, Nat.pow_add, Nat.mod_mul]

theorem le_mul_ceilDiv (a : Nat) {b : Nat} (hb : 0 < b) : a ≤ b * ceilDiv a b := by
  have := Nat.div_add_mod (a + b - 1) b
  have := Nat.mod_lt (a + b - 1) hb
  unfold ceilDiv
  omega

@[simp] theorem length_packBits (vs : List Nat) (bw : Nat) : (packBits vs bw).length = wordsFor vs.length bw :=
  length_cutFields _ _ _

theorem allBelow_packBits (vs : List Nat) (bw : Nat) : AllBelow 32 (packBits vs bw) := allBelow_cutFields _ _ _

theorem unpackBits_packBits (vs : List Nat) (bw : Nat) :
    unpackBits (packBits vs bw) bw vs.length = vs.map (· % 2 ^ bw) := by
  have hfit : fieldSum bw vs < 2 ^ (32 * wordsFor vs.length bw) :=
    (fieldSum_lt bw vs).trans_le (Nat.pow_le_pow_right (by decide) (le_mul_ceilDiv _ (by decide)))
  rw [unpackBits, packBits, wordSum_cutFields, Nat.mod_eq_of_lt hfit, cutFields_fieldSum]

theorem unpackBits_packBits_of_allBelow {vs : List Nat} {bw : Nat} (h : AllBelow bw vs) :
    unpackBits (packBits vs bw) bw vs.length = vs := by
  rw [unpackBits_packBits, List.map_congr_left fun v hv => Nat.mod_eq_of_lt (h v hv), List.map_id']

/-! ### GroupVarint: decoding inverts encoding -/

theorem one_le_byteLen (v : Nat) : 1 ≤ byteLen v := by unfold byteLen; split_ifs <;> decide

theorem byteLen_le (v : Nat) : byteLen v ≤ 4 := by unfold byteLen; split_ifs <;> decide

theorem lt_pow_byteLen {v : Nat} (h : v < 2 ^ 32) : v < 256 ^ byteLen v := by
  unfold byteLen
  split_ifs <;> omega

/-- The four lengths do not share a bit of the selector (R90). -/
theorem selectorOf_eq_sum {l0 l1 l2 l3 : Nat} (h0 : l0 - 1 < 4) (h1 : l1 - 1 < 4) (h2 : l2 - 1 < 4) :
    selectorOf l0 l1 l2 l3 = (l0 - 1) + 4 * (l1 - 1) + 16 * (l2 - 1) + 64 * (l3 - 1) := by
  have disjoint : ∀ (k x y : Nat), x < 2 ^ k → x ||| y <<< k = x + 2 ^ k * y := fun k x y hx => by
    rw [Nat.or_comm, ← Nat.shiftLeft_add_eq_or_of_lt hx, Nat.shiftLeft_eq, Nat.mul_comm, Nat.add_comm]
  rw [selectorOf, disjoint 2 _ _ h0, disjoint 4 _ _ (by omega), disjoint 6 _ _ (by omega)]
  rfl

/-- A selector of lengths 1 to 4 is a byte and gives the lengths back (R90). -/
theorem selectorLengths_selectorOf {l0 l1 l2 l3 : Nat} (h0 : 1 ≤ l0 ∧ l0 ≤ 4) (h1 : 1 ≤ l1 ∧ l1 ≤ 4)
    (h2 : 1 ≤ l2 ∧ l2 ≤ 4) (h3 : 1 ≤ l3 ∧ l3 ≤ 4) :
    selectorOf l0 l1 l2 l3 < 256 ∧ selectorLengths (selectorOf l0 l1 l2 l3) = [l0, l1, l2, l3] := by
  rw [selectorOf_eq_sum (by omega) (by omega) (by omega)]
  refine ⟨by omega, ?_⟩
  simp only [selectorLengths, List.cons.injEq, and_true]
  omega

theorem length_gvItemEnc (v0 v1 v2 v3 : Nat) :
    (gvItemEnc v0 v1 v2 v3).length = 1 + (byteLen v0 + byteLen v1 + byteLen v2 + byteLen v3) := by
  simp only [gvItemEnc, List.length_cons, List.length_append, length_leBytes]
  omega

/-- One group decodes to its four values, whatever bytes follow (R159). -/
theorem gvItemDec_gvItemEnc {v0 v1 v2 v3 : Nat} (more : List Byte) (h : AllBelow 32 [v0, v1, v2, v3]) :
    gvItemDec (gvItemEnc v0 v1 v2 v3 ++ more) = .ok ([v0, v1, v2, v3], (gvItemEnc v0 v1 v2 v3).length) := by
  have hlen : ∀ v, 1 ≤ byteLen v ∧ byteLen v ≤ 4 := fun v => ⟨one_le_byteLen v, byteLen_le v⟩
  obtain ⟨hbyte, hsel⟩ := selectorLengths_selectorOf (hlen v0) (hlen v1) (hlen v2) (hlen v3)
  have hfit : ∀ v ∈ [v0, v1, v2, v3], v % 256 ^ byteLen v = v := fun v hv => Nat.mod_eq_of_lt (lt_pow_byteLen (h v hv))
  simp only [List.forall_mem_cons] at hfit
  obtain ⟨f0, f1, f2, f3, -⟩ := hfit
  have hslots := slotValues_leBytes ([v0, v1, v2, v3].map fun v => (byteLen v, v)) more
  simp only [List.map_cons, List.map_nil, List.flatMap_cons, List.flatMap_nil, f0, f1, f2, f3, List.append_nil,
    List.append_assoc] at hslots
  have hroom : ¬(byteLen v0 + (byteLen v1 + (byteLen v2 + (byteLen v3 + more.length))) <
      byteLen v0 + (byteLen v1 + (byteLen v2 + byteLen v3))) := by omega
  rw [length_gvItemEnc]
  simp [gvItemEnc, gvItemDec, Nat.mod_eq_of_lt hbyte, hsel, hslots, hroom, Nat.add_assoc]

/-- The last byte of a varint: bit 7 is clear (R97, R98). -/
theorem varintDecFrom_last (fuel j : Nat) {acc v : Nat} (more : List Byte) (hv : v < 128)
    (hacc : acc + v * 128 ^ j < 2 ^ 32) :
    varintDecFrom (fuel + 1) j acc (BitVec.ofNat 8 v :: more) = .ok (acc + v * 128 ^ j, j + 1) := by
  have hbyte : (BitVec.ofNat 8 v).toNat = v := Nat.mod_eq_of_lt (by omega)
  simp only [varintDecFrom, hbyte, Nat.mod_eq_of_lt hv, if_pos hv, if_neg (Nat.not_le.mpr hacc)]

/-- The loop of `VarintDec` on what the loop of `VarintEnc` wrote, after `j` bytes of value `acc` (R97, R98). -/
theorem varintDecFrom_varintEncFrom (fuel j acc : Nat) {v : Nat} (more : List Byte) (hv : v < 128 ^ (fuel + 1))
    (hacc : acc + v * 128 ^ j < 2 ^ 32) :
    varintDecFrom (fuel + 1) j acc (varintEncFrom fuel v ++ more) =
      .ok (acc + v * 128 ^ j, j + (varintEncFrom fuel v).length) := by
  induction fuel generalizing j acc v with
  | zero => exact varintDecFrom_last 0 j more (by simpa using hv) hacc
  | succ fuel ih =>
    unfold varintEncFrom
    split_ifs with hlt
    · exact varintDecFrom_last _ j more hlt hacc
    · have hbyte : (BitVec.ofNat 8 (v % 128 + 128)).toNat = v % 128 + 128 := Nat.mod_eq_of_lt (by omega)
      have hval : acc + v % 128 * 128 ^ j + v / 128 * 128 ^ (j + 1) = acc + v * 128 ^ j := by
        conv_rhs => rw [← Nat.mod_add_div v 128]
        ring
      have hrest := ih (j + 1) (acc + v % 128 * 128 ^ j) (v := v / 128)
        (by rw [Nat.pow_succ] at hv; omega) (by rwa [hval])
      rw [hval] at hrest
      simpa [varintDecFrom, hbyte, Nat.add_assoc, Nat.add_comm 1] using hrest

theorem varintDec_varintEnc {v : Nat} (more : List Byte) (hv : v < 2 ^ 32) :
    varintDec (varintEnc v ++ more) = .ok (v, (varintEnc v).length) := by
  simpa [varintDec, varintEnc] using varintDecFrom_varintEncFrom 4 0 0 more (by omega) (by omega)

/-- The tail of a stream decodes to its values, whatever bytes follow. -/
theorem gvDecTail_varintEnc {vs : List Nat} (more : List Byte) (h : AllBelow 32 vs) :
    gvDecTail vs.length (vs.flatMap varintEnc ++ more) = .ok (vs, (vs.flatMap varintEnc).length) := by
  induction vs with
  | nil => rfl
  | cons v vs ih =>
    obtain ⟨hv, hvs⟩ := List.forall_mem_cons.mp h
    simp [gvDecTail, varintDec_varintEnc _ hv, ih hvs]

/-- A group in front of a stream of `n` values makes a stream of `n + 4`. -/
theorem gvDec_gvItemEnc_append {v0 v1 v2 v3 n used : Nat} {bs : List Byte} {vs : List Nat}
    (h : AllBelow 32 [v0, v1, v2, v3]) (hbs : gvDec bs n = .ok (vs, used)) :
    gvDec (gvItemEnc v0 v1 v2 v3 ++ bs) (n + 4) =
      .ok (v0 :: v1 :: v2 :: v3 :: vs, (gvItemEnc v0 v1 v2 v3).length + used) := by
  unfold gvDec at hbs ⊢
  rw [show (n + 4) / 4 = n / 4 + 1 by omega, show (n + 4) % 4 = n % 4 by omega, gvDecGroups, gvItemDec_gvItemEnc bs h]
  cases hg : gvDecGroups (n / 4) bs with
  | error e => simp [hg] at hbs
  | ok r =>
    obtain ⟨gs, gused⟩ := r
    cases ht : gvDecTail (n % 4) (bs.drop gused) with
    | error e => simp [hg, ht] at hbs
    | ok r =>
      obtain ⟨ts, tused⟩ := r
      simp only [hg, ht, Except.ok.injEq, Prod.mk.injEq] at hbs
      obtain ⟨rfl, rfl⟩ := hbs
      simp [hg, ht, List.drop_length_add_append, Nat.add_assoc]

/-- A GroupVarint stream decodes to its values, whatever bytes follow (R160). -/
theorem gvDec_gvEnc {vs : List Nat} (more : List Byte) (h : AllBelow 32 vs) :
    gvDec (gvEnc vs ++ more) vs.length = .ok (vs, (gvEnc vs).length) := by
  induction vs using gvEnc.induct with
  | case1 v0 v1 v2 v3 rest ih =>
    obtain ⟨hgroup, hrest⟩ := List.forall_mem_append (l₁ := [v0, v1, v2, v3]).mp h
    rw [gvEnc, List.append_assoc, List.length_append]
    exact gvDec_gvItemEnc_append hgroup (ih hrest)
  | case2 tail hshort =>
    have hlt : tail.length < 4 := by
      match tail, hshort with
      | [], _ | [_], _ | [_, _], _ | [_, _, _], _ => simp
      | v0 :: v1 :: v2 :: v3 :: rest, hshort => exact (hshort v0 v1 v2 v3 rest rfl).elim
    rw [gvEnc]
    · simp only [gvDec, Nat.div_eq_of_lt hlt, Nat.mod_eq_of_lt hlt, gvDecGroups, List.drop_zero,
        gvDecTail_varintEnc more h, List.nil_append, Nat.zero_add]
    · exact hshort

/-! ### PForDelta blocks: the exception chain -/

theorem one_le_highBitIdx (v : Nat) : 1 ≤ highBitIdx v := by unfold highBitIdx; split <;> omega

theorem lt_pow_highBitIdx (v : Nat) : v < 2 ^ highBitIdx v := by
  unfold highBitIdx
  split
  · omega
  · exact Nat.lt_log2_self

theorem highBitIdx_le {v b : Nat} (hb : 1 ≤ b) (h : v < 2 ^ b) : highBitIdx v ≤ b := by
  unfold highBitIdx
  split
  · exact hb
  · next hv => exact (Nat.log2_lt hv).mpr h

theorem maxNumOf_lt (b0 : Nat) : maxNumOf b0 < 2 ^ 32 := by
  unfold maxNumOf
  split
  · next hb =>
    have : 2 ^ b0 ≤ 2 ^ 32 := Nat.pow_le_pow_right (by decide) hb.le
    omega
  · decide

theorem mem_exceptionIndices {vs : List Nat} {maxNum i : Nat} :
    i ∈ exceptionIndices vs maxNum ↔ i < vs.length ∧ maxNum < vs.getD i 0 := by
  simp [exceptionIndices]

theorem exceptionIndices_rising (vs : List Nat) (maxNum : Nat) : (exceptionIndices vs maxNum).Pairwise (· < ·) :=
  List.pairwise_lt_range.filter _

theorem length_exceptionIndices_le (vs : List Nat) (maxNum : Nat) :
    (exceptionIndices vs maxNum).length ≤ vs.length := by
  simpa [exceptionIndices] using List.length_filter_le _ (List.range vs.length)

@[simp] theorem length_chainGaps (e : List Nat) : (chainGaps e).length = e.length := by
  induction e using chainGaps.induct with
  | case1 => rfl
  | case2 => rfl
  | case3 i j rest ih => simpa [chainGaps] using ih

/-- Every gap is at most an index of the block. -/
theorem chainGaps_le {e : List Nat} {b : Nat} (h : ∀ i ∈ e, i ≤ b) : ∀ g ∈ chainGaps e, g ≤ b := by
  induction e using chainGaps.induct with
  | case1 => simp [chainGaps]
  | case2 => simp [chainGaps]
  | case3 i j rest ih =>
    have hj : j ≤ b := h j (by simp)
    exact List.forall_mem_cons.mpr ⟨by omega, ih fun k hk => h k (List.mem_cons_of_mem i hk)⟩

theorem foldl_max_le_iff (gaps : List Nat) (a b : Nat) : gaps.foldl max a ≤ b ↔ a ≤ b ∧ ∀ g ∈ gaps, g ≤ b := by
  induction gaps generalizing a with
  | nil => simp
  | cons g gaps ih => simp [ih, and_assoc]

/-- `maxGap` is the least bound of the gaps (R194). -/
theorem maxOf_le_iff {gaps : List Nat} {b : Nat} : maxOf gaps ≤ b ↔ ∀ g ∈ gaps, g ≤ b := by
  simp [maxOf, foldl_max_le_iff]

theorem getD_set_self {vs : List Nat} {i : Nat} (v : Nat) (hi : i < vs.length) : (vs.set i v).getD i 0 = v := by
  simp [hi]

theorem getD_set_of_ne {i j : Nat} (vs : List Nat) (v : Nat) (h : i ≠ j) : (vs.set j v).getD i 0 = vs.getD i 0 := by
  simp [List.getElem?_set_ne h.symm]

theorem set_getD_self {vs : List Nat} {i : Nat} (hi : i < vs.length) : vs.set i (vs.getD i 0) = vs := by
  simp [hi]

@[simp] theorem length_rewriteSlots (vs : List Nat) (slots : List (Nat × Nat)) :
    (rewriteSlots vs slots).length = vs.length := by
  induction slots generalizing vs with
  | nil => rfl
  | cons p slots ih => exact (ih _).trans List.length_set

theorem rewriteSlots_cons (vs : List Nat) (p : Nat × Nat) (slots : List (Nat × Nat)) :
    rewriteSlots vs (p :: slots) = rewriteSlots (vs.set p.1 p.2) slots := rfl

theorem rewriteSlots_getD_of_notMem {i : Nat} {slots : List (Nat × Nat)} (vs : List Nat)
    (hi : i ∉ slots.map Prod.fst) : (rewriteSlots vs slots).getD i 0 = vs.getD i 0 := by
  induction slots generalizing vs with
  | nil => rfl
  | cons p slots ih =>
    obtain ⟨hne, hi⟩ := not_or.mp (mt List.mem_cons.mpr hi)
    rw [rewriteSlots_cons, ih _ hi, getD_set_of_ne _ _ hne]

theorem set_rewriteSlots_of_notMem {i : Nat} {slots : List (Nat × Nat)} (vs : List Nat) (v : Nat)
    (hi : i ∉ slots.map Prod.fst) : (rewriteSlots vs slots).set i v = rewriteSlots (vs.set i v) slots := by
  induction slots generalizing vs with
  | nil => rfl
  | cons p slots ih =>
    obtain ⟨hne, hi⟩ := not_or.mp (mt List.mem_cons.mpr hi)
    rw [rewriteSlots_cons, rewriteSlots_cons, ih _ hi, List.set_comm _ _ (Ne.symm hne)]

/-- A bound on what the slots hold and on the values outside them bounds every field. -/
theorem rewriteSlots_lt {b : Nat} {slots : List (Nat × Nat)} {vs : List Nat} (hslots : ∀ p ∈ slots, p.2 < b)
    (hvs : ∀ i, i < vs.length → i ∉ slots.map Prod.fst → vs.getD i 0 < b) : ∀ v ∈ rewriteSlots vs slots, v < b := by
  induction slots generalizing vs with
  | nil =>
    intro v hv
    obtain ⟨i, hi, rfl⟩ := List.mem_iff_getElem.mp hv
    exact List.getD_eq_getElem _ _ hi ▸ hvs i hi (by simp)
  | cons p slots ih =>
    obtain ⟨hp, hslots⟩ := List.forall_mem_cons.mp hslots
    refine ih hslots fun i hi hmem => ?_
    rw [List.length_set] at hi
    by_cases hip : i = p.1
    · rw [hip, getD_set_self _ (hip ▸ hi)]
      exact hp
    · rw [getD_set_of_ne _ _ hip]
      exact hvs i hi fun hkey => (List.mem_cons.mp hkey).elim hip hmem

theorem chainWalk_cons {x cur : Nat} (xs : List Nat) {w : List Nat} (h : cur < w.length) :
    chainWalk (x :: xs) cur w = chainWalk xs (cur + w.getD cur 0) (w.set cur x) := if_neg (Nat.not_le.mpr h)

/-- The gaps of ascending indices lead the walk from exception to exception, and each step puts the true value back
(R194, R202). -/
theorem chainWalk_rewriteSlots {e vs : List Nat} (first : Nat) (hrise : e.Pairwise (· < ·))
    (hin : ∀ i ∈ e, i < vs.length) :
    chainWalk (e.map (fun i => vs.getD i 0)) (e.headD first) (rewriteSlots vs (e.zip (chainGaps e))) = some vs := by
  induction e using chainGaps.induct with
  | case1 => rfl
  | case2 i =>
    have hi : i < vs.length := hin i (by simp)
    have hslots : rewriteSlots vs ([i].zip (chainGaps [i])) = vs.set i 0 := rfl
    rw [hslots, List.map_singleton, List.headD_cons, chainWalk_cons _ (by simpa using hi), List.set_set,
      set_getD_self hi, chainWalk]
  | case3 i j rest ih =>
    have hi : i < vs.length := hin i (by simp)
    obtain ⟨hlt, hrise⟩ := List.pairwise_cons.mp hrise
    have hij : i < j := hlt j (by simp)
    have hkeys : i ∉ ((j :: rest).zip (chainGaps (j :: rest))).map Prod.fst := by
      rw [List.map_fst_zip (by simp)]
      exact fun hmem => lt_irrefl i (hlt i hmem)
    rw [List.map_cons, List.headD_cons, chainGaps, List.zip_cons_cons, rewriteSlots_cons,
      chainWalk_cons _ (by simpa using hi), rewriteSlots_getD_of_notMem _ hkeys, getD_set_self _ hi,
      set_rewriteSlots_of_notMem _ _ hkeys, List.set_set, set_getD_self hi, Nat.add_sub_cancel' hij.le]
    exact ih hrise fun k hk => hin k (List.mem_cons_of_mem i hk)

/-! ### PForDelta blocks: decoding inverts encoding -/

theorem one_le_blockWidth (vs : List Nat) : 1 ≤ blockWidth vs := one_le_highBitIdx _

theorem blockWidth_le {vs : List Nat} (hlen : vs.length ≤ 2 ^ 31) : blockWidth vs ≤ 32 := by
  have hgaps : maxOf (chainGaps (blockExceptions vs)) ≤ 2 ^ 31 :=
    maxOf_le_iff.mpr (chainGaps_le fun i hi => (mem_exceptionIndices.mp hi).1.le.trans hlen)
  exact highBitIdx_le (by decide) (max_lt (by omega) (maxNumOf_lt _))

@[simp] theorem length_blockFields (vs : List Nat) : (blockFields vs).length = vs.length := length_rewriteSlots _ _

theorem map_fst_exceptionSlots (vs : List Nat) :
    ((blockExceptions vs).zip (chainGaps (blockExceptions vs))).map Prod.fst = blockExceptions vs :=
  List.map_fst_zip (by simp)

/-- The width holds the gaps and every value that is no exception, so all the fields (R195). -/
theorem allBelow_blockFields (vs : List Nat) : AllBelow (blockWidth vs) (blockFields vs) := by
  have hwidth := lt_pow_highBitIdx (max (maxOf (chainGaps (blockExceptions vs))) (maxNumOf (maxBitNum vs)))
  obtain ⟨hgap, hnum⟩ := max_lt_iff.mp hwidth
  refine rewriteSlots_lt (fun p hp => ?_) (fun i hi hkey => ?_)
  · exact (maxOf_le_iff.mp le_rfl _ (List.of_mem_zip hp).2).trans_lt hgap
  · rw [map_fst_exceptionSlots, blockExceptions, mem_exceptionIndices] at hkey
    exact (not_lt.mp fun hbig => hkey ⟨hi, hbig⟩).trans_lt hnum

/-- The header checks of R200. -/
theorem headerFailure_eq_none_iff {n bw k first cap : Nat} :
    headerFailure n bw k first cap = none ↔
      n ≤ 128 ∧ 1 ≤ bw ∧ bw ≤ 32 ∧ k ≤ n ∧ (first ≤ n ∨ first = 128) ∧ n ≤ cap := by
  simp only [headerFailure, Config.blockSize, Config.sentinel]
  split_ifs <;> simp only [false_iff, true_iff] <;> omega

/-- The exception values of a block, in order: what its side buffer holds (R195, step 6). -/
def exceptionValues (vs : List Nat) : List Nat := (blockExceptions vs).map (fun i => vs.getD i 0)

@[simp] theorem length_exceptionValues (vs : List Nat) : (exceptionValues vs).length = (blockExceptions vs).length :=
  List.length_map _

theorem blockSide_eq (vs : List Nat) : blockSide vs = gvEnc (exceptionValues vs) := rfl

theorem allBelow_exceptionValues {b : Nat} {vs : List Nat} (h : AllBelow b vs) : AllBelow b (exceptionValues vs) := by
  intro v hv
  obtain ⟨i, hi, rfl⟩ := List.mem_map.mp hv
  have hlt := (mem_exceptionIndices.mp hi).1
  simp only [List.getD_eq_getElem _ _ hlt]
  exact h _ (List.getElem_mem hlt)

/-- The payload and the side buffer of a block decode to its values, whatever bytes follow. -/
theorem blockBodyDec_blockEnc {ew : ElemWidth} {vs : List Nat} {first : Nat} (more : List Byte)
    (h : AllBelow ew.bits vs) (hfirst : first = (blockExceptions vs).headD Config.sentinel) :
    blockBodyDec vs.length (blockWidth vs) (blockExceptions vs).length first
        (elemBytes 4 (packBits (blockFields vs) (blockWidth vs)) ++ (blockSide vs ++ more)) ew =
      .ok (vs, 4 * wordsFor vs.length (blockWidth vs) + (blockSide vs).length) := by
  have hpack : (elemBytes 4 (packBits (blockFields vs) (blockWidth vs))).length =
      4 * wordsFor vs.length (blockWidth vs) := by simp [Nat.mul_comm]
  have hwords := slotValues_elemBytes (w := 4) (blockSide vs ++ more)
    (allBelow_packBits (blockFields vs) (blockWidth vs))
  have hfields := unpackBits_packBits_of_allBelow (allBelow_blockFields vs)
  have hside := gvDec_gvEnc more (AllBelow.mono (allBelow_exceptionValues h) (elemWidth_bits_le ew))
  have hwalk : chainWalk (exceptionValues vs) first (blockFields vs) = some vs :=
    hfirst ▸ chainWalk_rewriteSlots _ (exceptionIndices_rising _ _) fun i hi => (mem_exceptionIndices.mp hi).1
  have hall : vs.all (fun v => decide (v < 2 ^ ew.bits)) = true := by simpa using h
  rw [length_packBits, length_blockFields] at hwords
  rw [length_blockFields] at hfields
  rw [length_exceptionValues, ← blockSide_eq] at hside
  have hroom : ¬(elemBytes 4 (packBits (blockFields vs) (blockWidth vs)) ++ (blockSide vs ++ more)).length <
      4 * wordsFor vs.length (blockWidth vs) := by
    rw [List.length_append, hpack]
    omega
  simp only [blockBodyDec, if_neg hroom, List.drop_left' hpack, hside, hwords, hfields, hwalk, hall, if_true]

/-- `PfBlockEnc(V)` as the decoder takes it apart: four header bytes, payload, side buffer (R94). -/
theorem pfBlockEnc_append (vs : List Nat) (more : List Byte) :
    pfBlockEnc vs ++ more =
      BitVec.ofNat 8 vs.length :: BitVec.ofNat 8 (blockWidth vs) :: BitVec.ofNat 8 (blockExceptions vs).length ::
        BitVec.ofNat 8 ((blockExceptions vs).headD Config.sentinel) ::
          (elemBytes 4 (packBits (blockFields vs) (blockWidth vs)) ++ (blockSide vs ++ more)) := by
  simp [pfBlockEnc, blockHeader]

theorem length_pfBlockEnc (vs : List Nat) :
    (pfBlockEnc vs).length = 4 + (4 * wordsFor vs.length (blockWidth vs) + (blockSide vs).length) := by
  simp only [pfBlockEnc, blockHeader, List.length_append, List.length_cons, List.length_nil, length_elemBytes,
    length_packBits, length_blockFields]
  omega

/-- The first exception is an index of the block; without exceptions it is the sentinel (R94). -/
theorem blockExceptions_headD (vs : List Nat) :
    (blockExceptions vs).headD Config.sentinel < vs.length ∨ (blockExceptions vs).headD Config.sentinel = 128 := by
  cases he : blockExceptions vs with
  | nil => exact .inr rfl
  | cons i rest =>
    have hi : i ∈ exceptionIndices vs (maxNumOf (maxBitNum vs)) := by rw [← blockExceptions, he]; simp
    exact .inl (mem_exceptionIndices.mp hi).1

/-- A block of at most 128 values decodes to them, whatever bytes follow (R208). -/
theorem pfBlockDec_pfBlockEnc {ew : ElemWidth} {vs : List Nat} {cap : Nat} (more : List Byte) (hlen : vs.length ≤ 128)
    (h : AllBelow ew.bits vs) (hcap : vs.length ≤ cap) :
    pfBlockDec (pfBlockEnc vs ++ more) cap ew = .ok (vs, (pfBlockEnc vs).length) := by
  have hbw : blockWidth vs ≤ 32 := blockWidth_le (by omega)
  have hk : (blockExceptions vs).length ≤ vs.length := length_exceptionIndices_le _ _
  have hfirst := blockExceptions_headD vs
  have byte : ∀ x, x ≤ 128 → (BitVec.ofNat 8 x).toNat = x := fun x hx => Nat.mod_eq_of_lt (by omega)
  have hheader : headerFailure vs.length (blockWidth vs) (blockExceptions vs).length
      ((blockExceptions vs).headD Config.sentinel) cap = none :=
    headerFailure_eq_none_iff.mpr ⟨hlen, one_le_blockWidth vs, hbw, hk, by omega, hcap⟩
  rw [pfBlockEnc_append, pfBlockDec, byte _ hlen, byte _ (by omega), byte _ (by omega), byte _ (by omega), hheader]
  simp only [blockBodyDec_blockEnc more h rfl, length_pfBlockEnc]

/-! ### PForDelta streams: decoding inverts encoding -/

@[simp] theorem pfBlocksDec_nil (ew : ElemWidth) (fuel cap : Nat) : pfBlocksDec ew fuel [] cap = .ok ([], 0) := by
  cases fuel <;> rfl

/-- One round of the loop of `PfStreamDec` on bytes that begin with a block (R242). -/
theorem pfBlocksDec_pfBlockEnc {ew : ElemWidth} {vs : List Nat} {cap : Nat} (fuel : Nat) (bs : List Byte)
    (hlen : vs.length ≤ 128) (h : AllBelow ew.bits vs) (hcap : vs.length ≤ cap) :
    pfBlocksDec ew (fuel + 1) (pfBlockEnc vs ++ bs) cap =
      (pfBlocksDec ew fuel bs (cap - vs.length)).map fun r => (vs ++ r.1, (pfBlockEnc vs).length + r.2) := by
  have hblock := pfBlockDec_pfBlockEnc bs hlen h hcap
  have hdrop : (pfBlockEnc vs ++ bs).drop (pfBlockEnc vs).length = bs := List.drop_left
  generalize pfBlockEnc vs ++ bs = all at hblock hdrop
  cases all with
  | nil => simp [pfBlockDec] at hblock
  | cons b rest =>
    rw [pfBlocksDec, hblock]
    simp only [hdrop]
    cases pfBlocksDec ew fuel bs (cap - vs.length) <;> rfl

/-- Decoding the windows of a sequence gives the sequence, and goes on with the bytes that follow (R242, R246). -/
theorem pfBlocksDec_pfWindowsEnc {ew : ElemWidth} {k : Nat} {vs : List Nat} {cap : Nat} (fuel : Nat) (bs : List Byte)
    (hk : ceilDiv vs.length 128 = k) (h : AllBelow ew.bits vs) (hcap : vs.length ≤ cap) :
    pfBlocksDec ew (fuel + k) (pfWindowsEnc k vs ++ bs) cap =
      (pfBlocksDec ew fuel bs (cap - vs.length)).map fun r => (vs ++ r.1, (pfWindowsEnc k vs).length + r.2) := by
  induction k generalizing vs cap with
  | zero =>
    have hnil : vs = [] := List.length_eq_zero_iff.mp (by unfold ceilDiv at hk; omega)
    subst hnil
    simp only [pfWindowsEnc, List.nil_append, List.length_nil, Nat.zero_add, Nat.sub_zero, Nat.add_zero]
    cases pfBlocksDec ew fuel bs cap <;> rfl
  | succ k ih =>
    have htake : (vs.take 128).length ≤ 128 := List.length_take_le _ _
    have hsum : (vs.take 128).length + (vs.drop 128).length = vs.length := by
      rw [← List.length_append, List.take_append_drop]
    have hfirst := pfBlocksDec_pfBlockEnc (fuel + k) (pfWindowsEnc k (vs.drop 128) ++ bs) htake
      (fun v hv => h v (List.mem_of_mem_take hv)) (cap := cap) (by omega)
    have hrest := ih (vs := vs.drop 128) (cap := cap - (vs.take 128).length)
      (by rw [List.length_drop]; unfold ceilDiv at hk ⊢; omega) (fun v hv => h v (List.mem_of_mem_drop hv)) (by omega)
    rw [hrest, Nat.sub_sub, hsum] at hfirst
    rw [pfWindowsEnc, List.append_assoc, ← Nat.add_assoc, hfirst]
    cases pfBlocksDec ew fuel bs (cap - vs.length) with
    | error e => rfl
    | ok r => simp [Except.map, ← List.append_assoc, List.take_append_drop, Nat.add_assoc]

theorem le_length_pfWindowsEnc (k : Nat) (vs : List Nat) : k ≤ (pfWindowsEnc k vs).length := by
  induction k generalizing vs with
  | zero => omega
  | succ k ih =>
    have := ih (vs.drop Config.blockSize)
    rw [pfWindowsEnc, List.length_append, length_pfBlockEnc]
    omega

/-- A stream decodes to the values it was made of (R248). -/
theorem pfStreamDec_pfStreamEnc {ew : ElemWidth} {vs : List Nat} {cap : Nat} (h : AllBelow ew.bits vs)
    (hcap : vs.length ≤ cap) : pfStreamDec (pfStreamEnc vs) cap ew = .ok (vs, (pfStreamEnc vs).length) := by
  obtain ⟨fuel, hfuel⟩ := Nat.exists_eq_add_of_le' (le_length_pfWindowsEnc (ceilDiv vs.length Config.blockSize) vs)
  have hdec := pfBlocksDec_pfWindowsEnc fuel [] rfl h hcap
  rw [List.append_nil, ← hfuel, pfBlocksDec_nil] at hdec
  simpa [Except.map, pfStreamDec, pfStreamEnc] using hdec

/-! ### The commands of R12 -/

/-- `PFCOMP` that ended in success stored the stream of its elements and reports its length (R241). -/
theorem pfcomp_success {ew : ElemWidth} {s t : State} (h : exec (.pfcomp ew) s = .next t) (hok : t.status = 0x01) :
    t = s.finish (.done (pfStreamEnc (sourceElems ew.bytes s)) (pfStreamEnc (sourceElems ew.bytes s)).length 0) ∧
      (pfStreamEnc (sourceElems ew.bytes s)).length ≤ s.dcap.toNat := by
  have hfault : ∀ e : ErrCode, statusFault e ≠ 0x01 := fun e => by cases e <;> decide
  simp only [exec, execPfcomp, pfcompReply] at h
  split_ifs at h with hlegal hroom <;> cases h
  · exact absurd hok (hfault _)
  · exact absurd hok (hfault _)
  · exact ⟨rfl, Nat.not_lt.mp hroom⟩

/-- `PFDECOMP` on legal regions and a stream that decodes (R243). -/
theorem exec_pfdecomp_of_ok {ew : ElemWidth} {u : State} {vs : List Nat} {used : Nat}
    (hlegal : regionsLegal (.pfdecomp ew) u = true)
    (hdec : pfStreamDec (sourceStream u) u.dcap.toNat ew = .ok (vs, used)) :
    exec (.pfdecomp ew) u = .next (u.finish (.done (elemBytes ew.bytes vs) vs.length used)) := by
  simp [exec, execPfdecomp, pfdecompReply, hlegal, hdec]

/-- The source region that holds the bytes stored by a command is those bytes. -/
theorem sourceStream_eq_of_stored {s t u : State} {out : List Byte} {rcnt rcons : Nat}
    (ht : t = s.finish (.done out rcnt rcons)) (hlen : u.slen.toNat = out.length) (hsrc : u.src = s.dst)
    (hmem : ∀ a, s.dst.toNat ≤ a → a < s.dst.toNat + out.length → u.mem.read a = t.mem.read a) :
    sourceStream u = out := by
  rw [sourceStream, hlen, hsrc, Memory.readBytes_congr hmem, ht, State.finish_done_mem, Memory.readBytes_writeBytes]

/-- Element `i` in memory after a command that stored an element array. -/
theorem readLe_finish_elemBytes {w : Nat} {u : State} {vs : List Nat} {rcnt rcons i : Nat} (h : AllBelow (8 * w) vs)
    (hi : i < vs.length) :
    (u.finish (.done (elemBytes w vs) rcnt rcons)).mem.readLe (u.dst.toNat + i * w) w = vs.getD i 0 := by
  rw [State.finish_done_mem, ← loadElems_getD _ _ _ hi, loadElems_writeBytes_elemBytes _ _ _ h]

/-- Settles O60: `PFCOMP` stored a stream, and streams decode to the values they were made of. -/
theorem compressedSequencesAreRestored : Obligations.CompressedSequencesAreRestored := by
  intro ew s t u henc hok hmem hsrc hslen hcap _ hlegal
  obtain ⟨ht, hfits⟩ := pfcomp_success henc hok
  have hvs : AllBelow ew.bits (sourceElems ew.bytes s) := allBelow_loadElems _ _ _ _
  have hcount : (sourceElems ew.bytes s).length = s.slen.toNat := length_loadElems _ _ _ _
  have hrcnt : t.rcnt.toNat = (pfStreamEnc (sourceElems ew.bytes s)).length := by
    rw [ht, State.finish_done_rcnt, BitVec.toNat_ofNat, Nat.mod_eq_of_lt (hfits.trans_lt s.dcap.isLt)]
  have hstream := sourceStream_eq_of_stored ht (hslen ▸ hrcnt) hsrc (hrcnt ▸ hmem)
  have hdec := pfStreamDec_pfStreamEnc hvs (hcount ▸ hcap)
  refine ⟨_, exec_pfdecomp_of_ok hlegal (hstream ▸ hdec), rfl, ?_, ?_, fun i hi => ?_⟩
  · rw [State.finish_done_rcnt, hcount, BitVec.ofNat_toNat, BitVec.setWidth_eq]
  · rw [State.finish_done_rcons, hstream, ht, State.finish_done_rcnt]
  · rw [readLe_finish_elemBytes hvs (hcount ▸ hi), sourceElems, loadElems_getD _ _ _ hi]

end Sys2Proof.Machine
end

section
/-! PROOFS, 10_state.md. What the unit's state is after reset. -/

namespace Sys2Proof.Machine

/-! ### Steps -/

/-- A step with an access pending is that access, taken off the queue (log 1). -/
theorem step_of_pending {s : State} {a : HostAccess} {rest : List HostAccess} (h : s.pending = a :: rest) :
    step s = hostAccess a { s with pending := rest } := by
  rw [step, h]

/-! ### Reset -/

/-- The register map read after a reset: indices 0 to 8 name registers that reset cleared, no other index names a
register (R21, R31). -/
@[simp] theorem State.resetRegisters_readReg (s : State) (j : Nat) : s.resetRegisters.readReg j = 0 := by
  unfold State.readReg
  split <;> rfl

/-- After a reset the unit is `IDLE` and shows no error (R28, R36). -/
theorem State.resetRegisters_idle (s : State) :
    statusState s.resetRegisters.status = 0 ∧ statusErr s.resetRegisters.status = 0 := by
  rw [State.resetRegisters_status]
  decide

/-- The state the model starts in is one that a reset leaves as it is, so what holds after a reset holds of it. -/
theorem State.reset_resetRegisters : State.reset.resetRegisters = State.reset := rfl

theorem hostAccess_reset (s : State) : hostAccess .reset s = .next s.resetRegisters := rfl

/-- Settles O9: both the state the model starts in and the state after a reset are cleared by `resetRegisters`, which
keeps the memory and the accesses still to come. -/
theorem resetClearsTheRegisters : Obligations.ResetClearsTheRegisters := by
  refine ⟨⟨?_, State.reset_resetRegisters ▸ State.reset.resetRegisters_idle⟩, fun s rest hpending => ?_⟩
  · intro j
    rw [← State.reset_resetRegisters, State.resetRegisters_readReg]
  · obtain ⟨hstate, herr⟩ := State.resetRegisters_idle { s with pending := rest }
    exact ⟨_, (step_of_pending hpending).trans (hostAccess_reset _), State.resetRegisters_readReg _, hstate, herr,
      rfl, rfl⟩

end Sys2Proof.Machine
end

section
/-! PROOFS, 20_memory.md. What `MemWrite` stores and what it leaves unchanged. -/

namespace Sys2Proof.Machine

/-- Byte `j` of the little-endian bytes of `v` (R53): one byte further on is `v` shifted right by 8. -/
theorem leBytes_getD {n j : Nat} (v : Nat) (h : j < n) :
    ((leBytes n v).getD j 0).toNat = (v >>> (8 * j)) % 256 := by
  induction n generalizing v j with
  | zero => omega
  | succ n ih =>
    cases j with
    | zero => simp [leBytes]
    | succ j =>
      have hshift : v >>> (8 * (j + 1)) = (v / 256) >>> (8 * j) := by
        rw [Nat.mul_succ, Nat.add_comm, Nat.shiftRight_add, Nat.shiftRight_eq_div_pow v 8]
      rw [leBytes, List.getD_cons_succ, ih _ (by omega), hshift]

theorem Memory.read_writeLe_inside (m : Memory) (addr v : Nat) {n j : Nat} (h : j < n) :
    (m.writeLe addr n v).read (addr + j) = (leBytes n v).getD j 0 := by
  rw [Memory.writeLe, Memory.read_writeBytes, length_leBytes, if_pos (by omega), Nat.add_sub_cancel_left]

theorem Memory.read_writeLe_outside (m : Memory) {addr n b : Nat} (v : Nat) (h : ¬(addr ≤ b ∧ b < addr + n)) :
    (m.writeLe addr n v).read b = m.read b := by
  rw [Memory.writeLe, Memory.read_writeBytes, length_leBytes, if_neg h]

/-- Settles O16: inside the `n` bytes the memory reads as the little-endian bytes of `v`, outside them as before. -/
theorem memWriteIsLittleEndian : Obligations.MemWriteIsLittleEndian := by
  refine fun m addr n v => ⟨fun j hj => ?_, fun b hb => m.read_writeLe_outside v hb⟩
  rw [m.read_writeLe_inside addr v hj, leBytes_getD v hj]

end Sys2Proof.Machine
end

section
/-! PROOFS, 30_encoding.md. What the tail varint decoder accepts: the loop of R98 reads a varint off the front of its
bytes, one byte a turn. -/

namespace Sys2Proof.Machine

/-- The first `n` bytes are one varint: there, all but the last with bit 7 set, and the last without (R98). -/
structure VarintAtFront (bs : List Byte) (n : Nat) : Prop where
  pos : 1 ≤ n
  present : n ≤ bs.length
  continued : ∀ j, j + 1 < n → 128 ≤ (bs.getD j 0).toNat
  ended : (bs.getD (n - 1) 0).toNat < 128

/-- The sum of the low 7 bits of the first `n` bytes, byte `j` times `128^j` (R98). -/
def varintValue (bs : List Byte) (n : Nat) : Nat :=
  ((List.range n).map (fun j => (bs.getD j 0).toNat % 128 * 128 ^ j)).sum

theorem varintValue_cons_succ (c : Byte) (bs : List Byte) (n : Nat) :
    varintValue (c :: bs) (n + 1) = c.toNat % 128 + 128 * varintValue bs n := by
  simp [varintValue, List.range_succ_eq_map, Function.comp_def, ← List.sum_map_mul_left, Nat.pow_succ,
    Nat.mul_comm, Nat.mul_assoc]

theorem varintValue_cons_one (c : Byte) (bs : List Byte) : varintValue (c :: bs) 1 = c.toNat % 128 :=
  varintValue_cons_succ c bs 0

theorem not_varintAtFront_nil (n : Nat) : ¬ VarintAtFront [] n := fun h =>
  absurd (h.pos.trans h.present) (Nat.not_succ_le_zero 0)

/-- A byte with bit 7 clear is a whole varint. -/
theorem varintAtFront_cons_of_lt {c : Byte} (bs : List Byte) {n : Nat} (hc : c.toNat < 128) :
    VarintAtFront (c :: bs) n ↔ n = 1 := by
  constructor
  · intro h
    have hpos := h.pos
    by_contra hn
    have hset : 128 ≤ c.toNat := h.continued 0 (by omega)
    omega
  · rintro rfl
    exact ⟨Nat.le_refl 1, by simp, fun j hj => by omega, hc⟩

/-- A byte with bit 7 set begins a varint when the bytes after it are one. -/
theorem varintAtFront_cons_of_le {c : Byte} (bs : List Byte) {n : Nat} (hc : 128 ≤ c.toNat) :
    VarintAtFront (c :: bs) n ↔ ∃ m, n = m + 1 ∧ VarintAtFront bs m := by
  constructor
  · intro h
    match n, h with
    | 1, h => exact absurd h.ended (Nat.not_lt.mpr hc)
    | m + 2, h =>
      exact ⟨m + 1, rfl, by omega, Nat.le_of_succ_le_succ h.present,
        fun j hj => h.continued (j + 1) (by omega), h.ended⟩
  · rintro ⟨_ | m, rfl, h⟩
    · exact absurd h.pos (Nat.not_succ_le_zero 0)
    · refine ⟨by omega, Nat.succ_le_succ h.present, fun j hj => ?_, h.ended⟩
      cases j with
      | zero => exact hc
      | succ j => exact h.continued j (by omega)

/-- The loop of `VarintDec`, after `j` bytes of value `acc`, succeeds on a varint of at most `fuel` bytes whose value
fits 32 bits, and on nothing else (R98). -/
theorem varintDecFrom_eq_ok_iff (fuel j acc : Nat) (bs : List Byte) (v used : Nat) :
    varintDecFrom fuel j acc bs = .ok (v, used) ↔
      ∃ n, used = j + n ∧ n ≤ fuel ∧ VarintAtFront bs n ∧ v = acc + 128 ^ j * varintValue bs n ∧ v < 2 ^ 32 := by
  induction fuel generalizing j acc bs with
  | zero =>
    simp only [varintDecFrom, reduceCtorEq, false_iff]
    rintro ⟨n, -, hle, h, -⟩
    exact absurd h.pos (by omega)
  | succ fuel ih =>
    cases bs with
    | nil => simp [varintDecFrom, not_varintAtFront_nil]
    | cons c bs =>
      by_cases hc : c.toNat < 128
      · simp only [varintDecFrom, if_pos hc, varintAtFront_cons_of_lt bs hc]
        constructor
        · intro h
          split_ifs at h with hbig
          obtain ⟨rfl, rfl⟩ := Prod.mk.inj (Except.ok.inj h)
          exact ⟨1, rfl, by omega, rfl, by rw [varintValue_cons_one, Nat.mul_comm], Nat.not_le.mp hbig⟩
        · rintro ⟨n, rfl, -, rfl, rfl, hv⟩
          rw [varintValue_cons_one, Nat.mul_comm (128 ^ j)] at hv ⊢
          rw [if_neg (Nat.not_le.mpr hv)]
      · have hvalue : ∀ m, acc + c.toNat % 128 * 128 ^ j + 128 ^ (j + 1) * varintValue bs m =
            acc + 128 ^ j * varintValue (c :: bs) (m + 1) := fun m => by rw [varintValue_cons_succ]; ring
        simp only [varintDecFrom, if_neg hc, ih, varintAtFront_cons_of_le bs (Nat.not_lt.mp hc), hvalue]
        constructor
        · rintro ⟨m, rfl, hle, h, hv⟩
          exact ⟨m + 1, by omega, by omega, ⟨m, rfl, h⟩, hv⟩
        · rintro ⟨n, rfl, hle, ⟨m, rfl, h⟩, hv⟩
          exact ⟨m, by omega, by omega, h, hv⟩

/-- Every failure of the loop of `VarintDec` is `E_CORRUPT` (R98). -/
theorem varintDecFrom_error {fuel j acc : Nat} {bs : List Byte} {e : ErrCode}
    (h : varintDecFrom fuel j acc bs = .error e) : e = .corrupt := by
  induction fuel generalizing j acc bs with
  | zero => exact (Except.error.inj h).symm
  | succ fuel ih =>
    cases bs with
    | nil => exact (Except.error.inj h).symm
    | cons c bs =>
      simp only [varintDecFrom] at h
      split_ifs at h
      · exact (Except.error.inj h).symm
      · exact ih h

theorem varintDec_eq_ok_iff (bs : List Byte) (v used : Nat) :
    varintDec bs = .ok (v, used) ↔
      used ≤ 5 ∧ VarintAtFront bs used ∧ v = varintValue bs used ∧ v < 2 ^ 32 := by
  simp [varintDec, varintDecFrom_eq_ok_iff]

/-- Settles O35: a success is a varint at the front of the bytes, a failure is `E_CORRUPT`, and what `VarintEnc` wrote
comes back (R98). -/
theorem tailVarintDecodesExactly : Obligations.TailVarintDecodesExactly := by
  refine ⟨fun bs v used => (varintDec_eq_ok_iff bs v used).trans ?_, fun _ _ => varintDecFrom_error,
    fun _ more => varintDec_varintEnc more⟩
  constructor
  · rintro ⟨hfive, ⟨hpos, hpresent, hcontinued, hended⟩, hvalue, hfits⟩
    exact ⟨hpos, hfive, hpresent, hcontinued, hended, hvalue, hfits⟩
  · rintro ⟨hpos, hfive, hpresent, hcontinued, hended, hvalue, hfits⟩
    exact ⟨hfive, ⟨hpos, hpresent, hcontinued, hended⟩, hvalue, hfits⟩

end Sys2Proof.Machine
end

section
/-! PROOFS, 40_bitpack.md. The bit index is the bit length, and the loops of `PackBits` and `UnpackBits` compute their
forms without a loop: a list of words is read as one number, `wordSum`, which a round of packing adds a field to and a
round of unpacking cuts a field out of. -/

namespace Sys2Proof.Machine

/-! ### The bit length (R120) -/

theorem highBitIdx_eq_of_bounds {v k : Nat} (hlow : 2 ^ k ≤ v) (hhigh : v < 2 ^ (k + 1)) : highBitIdx v = k + 1 := by
  have hv : v ≠ 0 := (Nat.two_pow_pos k |>.trans_le hlow).ne'
  rw [highBitIdx, if_neg hv, (Nat.log2_eq_iff hv).mpr ⟨hlow, hhigh⟩]

theorem pow_highBitIdx_sub_one_le {v : Nat} (hv : v ≠ 0) : 2 ^ (highBitIdx v - 1) ≤ v := by
  rw [highBitIdx, if_neg hv, Nat.add_sub_cancel]
  exact Nat.log2_self_le hv

/-- The form of R120 by the count of leading zero bits. -/
theorem highBitIdx_eq_clz {v : Nat} (h : v < 2 ^ 32) :
    highBitIdx v = max 1 (32 - (BitVec.ofNat 32 v).clz.toNat) := by
  by_cases hv : v = 0
  · subst hv
    decide
  · have htoNat : (BitVec.ofNat 32 v).toNat = v := Nat.mod_eq_of_lt h
    have hne : BitVec.ofNat 32 v ≠ 0#32 := fun h0 => hv (by simpa [h0] using htoNat.symm)
    have hlow := BitVec.two_pow_sub_clz_le_toNat_of_ne_zero (by decide) hne
    have hhigh := BitVec.toNat_lt_two_pow_sub_clz (x := BitVec.ofNat 32 v)
    have hclz : (BitVec.ofNat 32 v).clz.toNat < 32 := BitVec.clz_lt_iff_ne_zero.mpr hne
    rw [htoNat] at hlow hhigh
    generalize (BitVec.ofNat 32 v).clz.toNat = c at *
    have hsucc : 32 - c = 32 - 1 - c + 1 := by omega
    rw [hsucc] at hhigh
    rw [highBitIdx_eq_of_bounds hlow hhigh]
    omega

/-- Settles O24: R120 in its bounds, by the count of leading zeros, and at `2^k` and `2^k - 1`. -/
theorem highBitIdxIsTheBitLength : Obligations.HighBitIdxIsTheBitLength := by
  intro v h
  refine ⟨one_le_highBitIdx v, highBitIdx_le (by decide) h, fun h0 => if_pos h0,
    fun hv => ⟨pow_highBitIdx_sub_one_le hv, lt_pow_highBitIdx v⟩, highBitIdx_eq_clz h, ?_, ?_⟩
  · rintro k rfl
    exact highBitIdx_eq_of_bounds le_rfl (Nat.pow_lt_pow_succ (by decide))
  · rintro (_ | k) hk rfl
    · omega
    · have := Nat.two_pow_pos k
      exact highBitIdx_eq_of_bounds (by omega) (by omega)

/-! ### Fields and words of a number -/

/-- Cutting without a loop: field `i` is `(x div 2^(i*bw)) mod 2^bw` (R123). -/
theorem cutFields_eq_map_range (bw n x : Nat) :
    cutFields bw n x = (List.range n).map (fun i => x / 2 ^ (i * bw) % 2 ^ bw) := by
  induction n generalizing x with
  | zero => rfl
  | succ n ih =>
    have hnext (i : Nat) : x / 2 ^ ((i + 1) * bw) = x / 2 ^ bw / 2 ^ (i * bw) := by
      rw [Nat.div_div_eq_div_mul, ← Nat.pow_add, Nat.succ_mul, Nat.add_comm]
    simp [cutFields, ih, List.range_succ_eq_map, hnext]

theorem cutFields_getD (bw x : Nat) {n i : Nat} (hi : i < n) :
    (cutFields bw n x).getD i 0 = x / 2 ^ (i * bw) % 2 ^ bw := by
  simp [cutFields_eq_map_range, hi]

/-- The `n` fields of a number lie in its low `n*bw` bits. -/
theorem cutFields_mod (bw n x : Nat) : cutFields bw n (x % 2 ^ (n * bw)) = cutFields bw n x := by
  induction n generalizing x with
  | zero => rfl
  | succ n ih =>
    rw [cutFields, cutFields, Nat.succ_mul, Nat.add_comm (n * bw), Nat.pow_add, Nat.mod_mul_right_mod,
      Nat.mod_mul_right_div_self, ih]

theorem cutFields_congr {bw n x y : Nat} (h : x % 2 ^ (n * bw) = y % 2 ^ (n * bw)) :
    cutFields bw n x = cutFields bw n y := by
  rw [← cutFields_mod, h, cutFields_mod]

/-- The bit string of the fields as the sum of R122. -/
theorem fieldSum_eq_sum (bw : Nat) (vs : List Nat) :
    fieldSum bw vs = ((List.range vs.length).map (fun i => vs.getD i 0 % 2 ^ bw * 2 ^ (i * bw))).sum := by
  induction vs with
  | nil => rfl
  | cons v vs ih =>
    have hplace (i : Nat) : vs.getD i 0 % 2 ^ bw * 2 ^ ((i + 1) * bw) =
        2 ^ bw * (vs.getD i 0 % 2 ^ bw * 2 ^ (i * bw)) := by ring
    simp only [fieldSum, ih, List.length_cons, List.range_succ_eq_map, List.map_cons, List.map_map, List.sum_cons,
      Function.comp_def, List.getD_cons_zero, List.getD_cons_succ, Nat.succ_eq_add_one, hplace, List.sum_map_mul_left,
      Nat.zero_mul, Nat.pow_zero, Nat.mul_one]

/-- Words are fields of 32 bits. -/
theorem wordSum_eq_fieldSum {wd : List Nat} (h : AllBelow 32 wd) : wordSum wd = fieldSum 32 wd := by
  induction wd with
  | nil => rfl
  | cons w wd ih =>
    obtain ⟨hw, hwd⟩ := List.forall_mem_cons.mp h
    rw [wordSum, fieldSum, Nat.mod_eq_of_lt hw, ih hwd]

theorem getD_lt_of_allBelow {b : Nat} {vs : List Nat} (h : AllBelow b vs) (i : Nat) : vs.getD i 0 < 2 ^ b := by
  by_cases hi : i < vs.length
  · simpa [hi] using h _ (List.getElem_mem hi)
  · simp [hi]

/-- The bit string of the words as the sum of R123. -/
theorem wordSum_eq_sum {wd : List Nat} (h : AllBelow 32 wd) :
    wordSum wd = ((List.range wd.length).map (fun k => wd.getD k 0 * 2 ^ (32 * k))).sum := by
  simp only [wordSum_eq_fieldSum h, fieldSum_eq_sum, Nat.mod_eq_of_lt (getD_lt_of_allBelow h _), Nat.mul_comm _ 32]

/-- Words are determined by their number. -/
theorem cutFields_wordSum {wd : List Nat} (h : AllBelow 32 wd) : cutFields 32 wd.length (wordSum wd) = wd := by
  rw [wordSum_eq_fieldSum h, cutFields_fieldSum, List.map_congr_left fun w hw => Nat.mod_eq_of_lt (h w hw),
    List.map_id']

theorem getD_eq_wordSum {wd : List Nat} (h : AllBelow 32 wd) {k : Nat} (hk : k < wd.length) :
    wd.getD k 0 = wordSum wd / 2 ^ (32 * k) % 2 ^ 32 := by
  rw [Nat.mul_comm, ← cutFields_getD 32 _ hk, cutFields_wordSum h]

theorem wordSum_append (wd wd' : List Nat) :
    wordSum (wd ++ wd') = wordSum wd + 2 ^ (32 * wd.length) * wordSum wd' := by
  induction wd with
  | nil => simp [wordSum]
  | cons w wd ih => rw [List.cons_append, wordSum, wordSum, ih, List.length_cons]; ring

@[simp] theorem wordSum_replicate_zero (n : Nat) : wordSum (List.replicate n 0) = 0 := by
  induction n with
  | zero => rfl
  | succ n ih => simp [List.replicate_succ, wordSum, ih]

/-- No word exceeds the part of the number from its place on. -/
theorem getD_mul_le_wordSum (wd : List Nat) (k : Nat) : 2 ^ (32 * k) * wd.getD k 0 ≤ wordSum wd := by
  induction wd generalizing k with
  | nil => simp
  | cons w wd ih =>
    cases k with
    | zero => simp [wordSum]
    | succ k =>
      calc 2 ^ (32 * (k + 1)) * (w :: wd).getD (k + 1) 0
          = 2 ^ 32 * (2 ^ (32 * k) * wd.getD k 0) := by rw [List.getD_cons_succ]; ring
        _ ≤ 2 ^ 32 * wordSum wd := Nat.mul_le_mul_left _ (ih k)
        _ ≤ wordSum (w :: wd) := Nat.le_add_left _ _

/-- Adding to a word adds to the number at that word's place. -/
theorem wordSum_set_add {wd : List Nat} {k : Nat} (x : Nat) (hk : k < wd.length) :
    wordSum (wd.set k (wd.getD k 0 + x)) = wordSum wd + 2 ^ (32 * k) * x := by
  induction wd generalizing k with
  | nil => exact absurd hk (Nat.not_lt_zero k)
  | cons w wd ih =>
    cases k with
    | zero => simp only [List.set_cons_zero, List.getD_cons_zero, wordSum]; ring
    | succ k =>
      rw [List.set_cons_succ, List.getD_cons_succ, wordSum, ih (Nat.lt_of_succ_lt_succ hk), wordSum]
      ring

/-! ### The loop of `PackBits` (R122) -/

theorem add_pow_mul_lt {a c x y : Nat} (hx : x < 2 ^ a) (hy : y < 2 ^ c) : x + 2 ^ a * y < 2 ^ (a + c) := by
  calc x + 2 ^ a * y < 2 ^ a * (y + 1) := by rw [Nat.mul_succ]; omega
    _ ≤ 2 ^ a * 2 ^ c := Nat.mul_le_mul_left _ hy
    _ = 2 ^ (a + c) := (Nat.pow_add 2 a c).symm

theorem shiftLeft_mod_two_pow (f : Nat) {o b : Nat} (ho : o ≤ b) : f <<< o % 2 ^ b = (f % 2 ^ (b - o)) <<< o := by
  rw [← Nat.add_sub_cancel' ho, Nat.pow_add, Nat.shiftLeft_eq, Nat.mul_comm f, Nat.mul_mod_mul_left, Nat.shiftLeft_eq,
    Nat.mul_comm, Nat.add_sub_cancel' ho]

/-- One write of a round: bits are set in word `k`. -/
def orWord (wd : List Nat) (k x : Nat) : List Nat := wd.set k (wd.getD k 0 ||| x)

@[simp] theorem length_orWord (wd : List Nat) (k x : Nat) : (orWord wd k x).length = wd.length := List.length_set

theorem allBelow_orWord {wd : List Nat} {x : Nat} (k : Nat) (h : AllBelow 32 wd) (hx : x < 2 ^ 32) :
    AllBelow 32 (orWord wd k x) := fun v hv => by
  obtain hv | rfl := List.mem_or_eq_of_mem_set hv
  · exact h v hv
  · exact Nat.or_lt_two_pow (getD_lt_of_allBelow h k) hx

/-- A write of bits `o` and up into word `k`, where the number has no bit yet, adds them. -/
theorem wordSum_orWord {wd : List Nat} {k o : Nat} (y : Nat) (hk : k < wd.length)
    (hfree : wordSum wd < 2 ^ (32 * k + o)) :
    wordSum (orWord wd k (y <<< o)) = wordSum wd + 2 ^ (32 * k + o) * y := by
  have hword : wd.getD k 0 < 2 ^ o := by
    rw [Nat.pow_add] at hfree
    exact Nat.lt_of_mul_lt_mul_left ((getD_mul_le_wordSum wd k).trans_lt hfree)
  rw [orWord, Nat.or_comm, ← Nat.shiftLeft_add_eq_or_of_lt hword, Nat.add_comm, wordSum_set_add _ hk,
    Nat.shiftLeft_eq, Nat.pow_add]
  ring

/-- A round is one write, or two where the field straddles. -/
theorem packRound_eq (bw : Nat) (wd : List Nat) (i v : Nat) :
    packRound bw wd i v =
      if 32 < i * bw % 32 + bw then
        orWord (orWord wd (i * bw / 32) ((v % 2 ^ bw) <<< (i * bw % 32) % 2 ^ 32)) (i * bw / 32 + 1)
          ((v % 2 ^ bw) >>> (32 - i * bw % 32))
      else orWord wd (i * bw / 32) ((v % 2 ^ bw) <<< (i * bw % 32) % 2 ^ 32) := rfl

@[simp] theorem length_packRound (bw : Nat) (wd : List Nat) (i v : Nat) : (packRound bw wd i v).length = wd.length := by
  rw [packRound_eq]
  split_ifs <;> simp only [length_orWord]

theorem allBelow_packRound {bw : Nat} {wd : List Nat} (i v : Nat) (hbw : bw ≤ 32) (h : AllBelow 32 wd) :
    AllBelow 32 (packRound bw wd i v) := by
  have hfield : v % 2 ^ bw < 2 ^ 32 :=
    (Nat.mod_lt _ (Nat.two_pow_pos bw)).trans_le (Nat.pow_le_pow_right (by decide) hbw)
  have hlow := allBelow_orWord (i * bw / 32) h (Nat.mod_lt ((v % 2 ^ bw) <<< (i * bw % 32)) (Nat.two_pow_pos 32))
  rw [packRound_eq]
  split_ifs
  · exact allBelow_orWord _ hlow ((Nat.shiftRight_le _ _).trans_lt hfield)
  · exact hlow

/-- A round puts field `i` at bit `i*bw` of the number, whether or not it straddles two words (R122). -/
theorem wordSum_packRound {bw i : Nat} {wd : List Nat} (v : Nat) (hpos : 1 ≤ bw)
    (hfree : wordSum wd < 2 ^ (i * bw)) (hroom : (i + 1) * bw ≤ 32 * wd.length) :
    wordSum (packRound bw wd i v) = wordSum wd + 2 ^ (i * bw) * (v % 2 ^ bw) := by
  rw [Nat.succ_mul] at hroom
  have hplace : i * bw = 32 * (i * bw / 32) + i * bw % 32 := (Nat.div_add_mod _ _).symm
  have ho : i * bw % 32 < 32 := Nat.mod_lt _ (by decide)
  have hf : v % 2 ^ bw < 2 ^ bw := Nat.mod_lt _ (Nat.two_pow_pos bw)
  rw [packRound_eq, shiftLeft_mod_two_pow _ ho.le]
  generalize i * bw / 32 = k, i * bw % 32 = o, v % 2 ^ bw = f at *
  rw [hplace] at hfree hroom ⊢
  have hlow := wordSum_orWord (f % 2 ^ (32 - o)) (by omega) hfree
  split_ifs with hstraddles
  · have hnext : 32 * (k + 1) + 0 = 32 * k + o + (32 - o) := by omega
    have hnextFree := add_pow_mul_lt hfree (Nat.mod_lt f (Nat.two_pow_pos (32 - o)))
    rw [← hnext, ← hlow] at hnextFree
    have hhigh := wordSum_orWord (f >>> (32 - o)) (by rw [length_orWord]; omega) hnextFree
    rw [Nat.shiftLeft_zero, hlow, hnext, Nat.shiftRight_eq_div_pow] at hhigh
    calc _ = wordSum wd + 2 ^ (32 * k + o) * (f % 2 ^ (32 - o) + 2 ^ (32 - o) * (f / 2 ^ (32 - o))) := by
          rw [Nat.shiftRight_eq_div_pow, hhigh, Nat.pow_add _ _ (32 - o)]; ring
      _ = _ := by rw [Nat.mod_add_div]
  · have hfits : f < 2 ^ (32 - o) := hf.trans_le (Nat.pow_le_pow_right (by decide) (by omega))
    rw [hlow, Nat.mod_eq_of_lt hfits]

/-- What the rounds from field `i` on keep, and the number they leave. -/
theorem packRounds_spec {bw i : Nat} {wd vs : List Nat} (hpos : 1 ≤ bw) (hbw : bw ≤ 32) (h : AllBelow 32 wd)
    (hfree : wordSum wd < 2 ^ (i * bw)) (hroom : (i + vs.length) * bw ≤ 32 * wd.length) :
    AllBelow 32 (packRounds bw wd i vs) ∧ (packRounds bw wd i vs).length = wd.length ∧
      wordSum (packRounds bw wd i vs) = wordSum wd + 2 ^ (i * bw) * fieldSum bw vs := by
  induction vs generalizing i wd with
  | nil => exact ⟨h, rfl, rfl⟩
  | cons v vs ih =>
    rw [List.length_cons, Nat.add_comm vs.length, ← Nat.add_assoc] at hroom
    have hsum := wordSum_packRound v hpos hfree
      ((Nat.mul_le_mul_right bw (Nat.le_add_right _ _)).trans hroom)
    have hnextFree : wordSum wd + 2 ^ (i * bw) * (v % 2 ^ bw) < 2 ^ ((i + 1) * bw) := by
      rw [Nat.succ_mul]
      exact add_pow_mul_lt hfree (Nat.mod_lt _ (Nat.two_pow_pos bw))
    obtain ⟨hbelow, hlength, hrest⟩ := ih (allBelow_packRound i v hbw h) (hsum ▸ hnextFree) (by simpa using hroom)
    refine ⟨hbelow, hlength.trans (length_packRound _ _ _ _), hrest.trans ?_⟩
    rw [hsum, fieldSum]
    ring

theorem packLoop_eq_packBits (vs : List Nat) {bw : Nat} (hpos : 1 ≤ bw) (hbw : bw ≤ 32) :
    packLoop vs bw = packBits vs bw := by
  have hzero : AllBelow 32 (List.replicate (ceilDiv (vs.length * bw) 32) 0) := fun v hv => by
    simp [List.eq_of_mem_replicate hv]
  obtain ⟨hbelow, hlength, hsum⟩ := packRounds_spec (i := 0) (vs := vs) hpos hbw hzero (by simp)
    (by simpa using le_mul_ceilDiv (vs.length * bw) (b := 32) (by decide))
  rw [← packLoop] at hbelow hlength hsum
  rw [← cutFields_wordSum hbelow, hlength, hsum]
  simp [packBits, wordsFor]

/-- Settles O26: each round of the loop of R122 adds its field to the number of the words, and words are determined by
their number. -/
theorem packLoopAgrees : Obligations.PackLoopAgrees := by
  intro vs bw hpos hbw
  refine ⟨packLoop_eq_packBits vs hpos hbw, fun k hk => ?_⟩
  rw [packBits, wordsFor, cutFields_getD _ _ hk, fieldSum_eq_sum, Nat.mul_comm k]

/-! ### The loop of `UnpackBits` (R123) -/

/-- Two neighbouring words of `b` bits show all bits of a field that begins in the first of them. -/
theorem or_shift_mod_eq_div_mod (x : Nat) {b o bw : Nat} (ho : o < b) (hbw : bw ≤ b) :
    ((x % 2 ^ b) >>> o ||| (x / 2 ^ b % 2 ^ b) <<< (b - o)) % 2 ^ bw = x / 2 ^ o % 2 ^ bw := by
  refine Nat.eq_of_testBit_eq fun j => ?_
  simp only [Nat.testBit_mod_two_pow, Nat.testBit_or, Nat.testBit_shiftRight, Nat.testBit_shiftLeft,
    Nat.testBit_div_two_pow]
  by_cases hj : j < bw
  · by_cases hfirst : o + j < b
    · simp [hj, hfirst, show ¬b - o ≤ j by omega, Nat.add_comm j]
    · simp [hj, hfirst, show b - o ≤ j by omega, show j - (b - o) < b by omega,
        show j - (b - o) + b = j + o by omega]
  · simp [hj]

/-- A field that ends in the word where it begins shows whole in that word. -/
theorem shift_mod_eq_div_mod (x : Nat) {o bw : Nat} (hfits : o + bw ≤ 32) :
    ((x % 2 ^ 32) >>> o) % 2 ^ bw = x / 2 ^ o % 2 ^ bw := by
  rw [show 32 = o + (32 - o) by omega, Nat.pow_add, Nat.shiftRight_eq_div_pow, Nat.mod_mul_right_div_self,
    Nat.mod_mod_of_dvd _ (Nat.pow_dvd_pow 2 (by omega))]

/-- A round reads one word, or two where the field straddles. -/
theorem unpackRound_eq (wd : List Nat) (bw i : Nat) :
    unpackRound wd bw i =
      (if 32 < i * bw % 32 + bw then
        wd.getD (i * bw / 32) 0 >>> (i * bw % 32) ||| wd.getD (i * bw / 32 + 1) 0 <<< (32 - i * bw % 32)
      else wd.getD (i * bw / 32) 0 >>> (i * bw % 32)) % 2 ^ bw := rfl

/-- A round cuts field `i` out of the number of the words, whether or not the field straddles two words (R123). -/
theorem unpackRound_eq_div_mod {wd : List Nat} {bw i : Nat} (hpos : 1 ≤ bw) (hbw : bw ≤ 32) (h : AllBelow 32 wd)
    (hroom : (i + 1) * bw ≤ 32 * wd.length) : unpackRound wd bw i = wordSum wd / 2 ^ (i * bw) % 2 ^ bw := by
  rw [Nat.succ_mul] at hroom
  have hplace : i * bw = 32 * (i * bw / 32) + i * bw % 32 := (Nat.div_add_mod _ _).symm
  have ho : i * bw % 32 < 32 := Nat.mod_lt _ (by decide)
  rw [unpackRound_eq]
  generalize i * bw / 32 = k, i * bw % 32 = o at *
  rw [hplace, Nat.pow_add, ← Nat.div_div_eq_div_mul, getD_eq_wordSum h (by omega)]
  split_ifs with hstraddles
  · rw [getD_eq_wordSum h (by omega), Nat.mul_succ, Nat.pow_add, ← Nat.div_div_eq_div_mul,
      or_shift_mod_eq_div_mod _ ho hbw]
  · exact shift_mod_eq_div_mod _ (Nat.not_lt.mp hstraddles)

theorem mul_le_of_ceilDiv_le {a m : Nat} (h : ceilDiv a 32 ≤ m) : a ≤ 32 * m :=
  (le_mul_ceilDiv a (by decide)).trans (Nat.mul_le_mul_left 32 h)

theorem unpackLoop_eq_unpackBits {wd : List Nat} {bw n : Nat} (hpos : 1 ≤ bw) (hbw : bw ≤ 32) (h : AllBelow 32 wd)
    (hroom : n * bw ≤ 32 * wd.length) : unpackLoop wd bw n = unpackBits wd bw n := by
  rw [unpackLoop, unpackBits, cutFields_eq_map_range]
  refine List.map_congr_left fun i hi => unpackRound_eq_div_mod hpos hbw h ?_
  exact (Nat.mul_le_mul_right bw (List.mem_range.mp hi)).trans hroom

/-- Words past the first `m` are above bit `32*m` of the number. -/
theorem wordSum_take_mod {wd : List Nat} {m b : Nat} (hm : m ≤ wd.length) (hb : b ≤ 32 * m) :
    wordSum (wd.take m) % 2 ^ b = wordSum wd % 2 ^ b := by
  have hsplit := wordSum_append (wd.take m) (wd.drop m)
  rw [List.take_append_drop, List.length_take_of_le hm] at hsplit
  obtain ⟨c, hc⟩ := Nat.pow_dvd_pow 2 hb
  rw [hsplit, hc, Nat.mul_assoc, Nat.add_mul_mod_self_left]

/-- Settles O27: each round of the loop of R123 cuts its field out of the number of the words, and the fields depend on
the low `n*bw` bits of that number only. -/
theorem unpackLoopAgrees : Obligations.UnpackLoopAgrees := by
  intro wd bw n hpos hbw h hlen
  refine ⟨unpackLoop_eq_unpackBits hpos hbw h (mul_le_of_ceilDiv_le hlen), fun i hi => ?_, ?_,
    fun _ => cutFields_congr⟩
  · rw [unpackBits, cutFields_getD _ _ hi, wordSum_eq_sum h]
  · exact cutFields_congr (wordSum_take_mod hlen (le_mul_ceilDiv _ (by decide)))

end Sys2Proof.Machine
end

section
/-! PROOFS, 41_groupvarint.md. `ByteLen` and `ceil(HBI / 8)` are each the least length whose power of 256 is above the
value, so they are equal; a group decodes to the values it was made of. -/

namespace Sys2Proof.Machine

/-! ### The byte length (R150) -/

theorem pow_le_of_lt_byteLen {v l : Nat} (hpos : 1 ≤ l) (hl : l < byteLen v) : 256 ^ l ≤ v := by
  obtain rfl | rfl | rfl : l = 1 ∨ l = 2 ∨ l = 3 := by
    have := byteLen_le v
    omega
  all_goals
    unfold byteLen at hl
    split_ifs at hl <;> omega

/-- Minimality of `ByteLen`: a length is enough exactly when its power of 256 is above the value. -/
theorem byteLen_le_iff {v l : Nat} (h : v < 2 ^ 32) (hpos : 1 ≤ l) : byteLen v ≤ l ↔ v < 256 ^ l := by
  constructor
  · intro hle
    exact (lt_pow_byteLen h).trans_le (Nat.pow_le_pow_right (by decide) hle)
  · intro hlt
    by_contra hnot
    exact hlt.not_ge (pow_le_of_lt_byteLen hpos (Nat.not_le.mp hnot))

theorem highBitIdx_le_iff {v b : Nat} (hb : 1 ≤ b) : highBitIdx v ≤ b ↔ v < 2 ^ b :=
  ⟨fun hle => (lt_pow_highBitIdx v).trans_le (Nat.pow_le_pow_right (by decide) hle), highBitIdx_le hb⟩

/-- The model's `ceilDiv` is Mathlib's ceiling division of natural numbers, with its Galois connection. -/
theorem ceilDiv_le_iff {a b m : Nat} (hb : 0 < b) : ceilDiv a b ≤ m ↔ a ≤ b * m := by
  have hlib : ceilDiv a b = a ⌈/⌉ b := rfl
  rw [hlib]
  exact ceilDiv_le_iff_le_mul hb

/-- Minimality of `ceil(HBI / 8)`, in the same form as that of `ByteLen`. -/
theorem ceilDiv_highBitIdx_le_iff {v l : Nat} (hpos : 1 ≤ l) : ceilDiv (highBitIdx v) 8 ≤ l ↔ v < 256 ^ l :=
  calc ceilDiv (highBitIdx v) 8 ≤ l
    _ ↔ highBitIdx v ≤ 8 * l := ceilDiv_le_iff (by decide)
    _ ↔ v < 2 ^ (8 * l) := highBitIdx_le_iff (by omega)
    _ ↔ v < 256 ^ l := by rw [Nat.pow_mul]

theorem byteLen_eq_ceilDiv_highBitIdx {v : Nat} (h : v < 2 ^ 32) : byteLen v = ceilDiv (highBitIdx v) 8 := by
  have hpos : 1 ≤ ceilDiv (highBitIdx v) 8 := by
    have := one_le_highBitIdx v
    unfold ceilDiv
    omega
  apply le_antisymm
  · exact (byteLen_le_iff h hpos).mpr ((ceilDiv_highBitIdx_le_iff hpos).mp le_rfl)
  · exact (ceilDiv_highBitIdx_le_iff (one_le_byteLen v)).mpr (lt_pow_byteLen h)

/-- Settles O32: the bounds of R150, and that `ceil(HBI / 8)` is the least such length too. -/
theorem byteLenIsTheSmallest : Obligations.ByteLenIsTheSmallest := fun v h =>
  ⟨one_le_byteLen v, byteLen_le v, lt_pow_byteLen h, fun _ => pow_le_of_lt_byteLen, byteLen_eq_ceilDiv_highBitIdx h⟩

/-! ### The group (R159) -/

/-- Settles O33: the lengths come back from the selector, and each slot gives back its value, which its length
represents. -/
theorem groupRoundTrip : Obligations.GroupRoundTrip := by
  intro v0 v1 v2 v3 more h0 h1 h2 h3
  have hbelow : AllBelow 32 [v0, v1, v2, v3] := by
    simp only [List.forall_mem_cons]
    exact ⟨h0, h1, h2, h3, List.forall_mem_nil _⟩
  exact gvItemDec_gvItemEnc more hbelow

end Sys2Proof.Machine
end

section
/-! PROOFS, 42_pfordelta_block.md. The loop of `MaxBitNum` counts the values that fit each width and stops at the first
count that reaches the threshold; read back at the exception slots, the working copy is the list of gaps. -/

namespace Sys2Proof.Machine

/-! ### The bit width (R190) -/

/-- How many values have fewer than `b` bits: the running sum of the histogram before width `b` (R190). -/
def narrowerCount (vs : List Nat) (b : Nat) : Nat := vs.countP (fun v => decide (highBitIdx v < b))

/-- No value has fewer bits than one, so the sum starts at 0. -/
theorem narrowerCount_one (vs : List Nat) : narrowerCount vs 1 = 0 :=
  List.countP_eq_zero.mpr fun v _ => by simpa using Nat.ne_zero_of_lt (one_le_highBitIdx v)

theorem narrowerCount_add_histogram (vs : List Nat) (b : Nat) :
    narrowerCount vs b + histogram vs b = narrowerCount vs (b + 1) := by
  unfold narrowerCount histogram
  induction vs with
  | nil => rfl
  | cons v vs ih =>
    simp only [List.countP_cons, beq_iff_eq, decide_eq_true_eq]
    split_ifs <;> omega

/-- The sum up to width `b` counts the values that fit in `b` bits. -/
theorem narrowerCount_succ (vs : List Nat) {b : Nat} (hb : 1 ≤ b) :
    narrowerCount vs (b + 1) = vs.countP (fun v => decide (v < 2 ^ b)) := by
  simp only [narrowerCount, Nat.lt_succ_iff, highBitIdx_le_iff hb]

/-- Every value fits in a width that bounds them all. -/
theorem narrowerCount_of_allBelow {b : Nat} {vs : List Nat} (hb : 1 ≤ b) (h : AllBelow b vs) :
    narrowerCount vs (b + 1) = vs.length := by
  rw [narrowerCount_succ vs hb, List.countP_eq_length]
  exact fun v hv => decide_eq_true (h v hv)

/-- The threshold is nine tenths of the length, rounded up. -/
theorem coverage_le_iff {len n : Nat} : coverage len ≤ n ↔ 9 * len ≤ 10 * n := by
  unfold coverage
  omega

/-- The loop of `MaxBitNum` returns the first width from `b` on whose sum reaches the threshold, if one of the
widths it has left does. -/
theorem maxBitNumFrom_spec {vs : List Nat} {fuel b m : Nat} (hm : maxBitNumFrom vs fuel b (narrowerCount vs b) = m)
    (hlast : coverage vs.length ≤ narrowerCount vs (b + fuel + 1)) :
    b ≤ m ∧ m ≤ b + fuel ∧ coverage vs.length ≤ narrowerCount vs (m + 1) ∧
      ∀ c, b ≤ c → c < m → narrowerCount vs (c + 1) < coverage vs.length := by
  induction fuel generalizing b with
  | zero =>
    rw [maxBitNumFrom] at hm
    subst hm
    exact ⟨le_rfl, le_rfl, hlast, fun c hbc hcb => absurd hbc hcb.not_ge⟩
  | succ fuel ih =>
    simp only [maxBitNumFrom, narrowerCount_add_histogram] at hm
    split_ifs at hm with hreach
    · subst hm
      exact ⟨le_rfl, by omega, hreach, fun c hbc hcb => absurd hbc hcb.not_ge⟩
    · obtain ⟨hlow, hhigh, hcover, hfirst⟩ := ih hm (by rwa [show b + 1 + fuel = b + (fuel + 1) by omega])
      refine ⟨by omega, by omega, hcover, fun c hbc hcm => ?_⟩
      obtain rfl | hlt := hbc.eq_or_lt
      · exact Nat.not_le.mp hreach
      · exact hfirst c hlt hcm

theorem maxBitNum_nil : maxBitNum [] = 1 := rfl

/-- Settles O42: at width 32 every value is counted, so the loop of 32 widths stops at the first that reaches the
threshold. -/
theorem maxBitNumIsTheSmallestWidth : Obligations.MaxBitNumIsTheSmallestWidth := by
  intro vs _ hvs
  have hlast : coverage vs.length ≤ narrowerCount vs (1 + 31 + 1) := by
    rw [narrowerCount_of_allBelow (by decide) hvs, coverage_le_iff]
    omega
  have hloop : maxBitNumFrom vs 31 1 (narrowerCount vs 1) = maxBitNum vs := by rw [narrowerCount_one, maxBitNum]
  obtain ⟨hlow, hhigh, hcover, hfirst⟩ := maxBitNumFrom_spec hloop hlast
  rw [narrowerCount_succ vs hlow] at hcover
  refine ⟨hlow, hhigh, coverage_le_iff.mp hcover, hcover, fun b hb hbm => ?_, fun hnil => hnil ▸ maxBitNum_nil⟩
  rw [← narrowerCount_succ vs hb]
  exact Nat.not_le.mp (mt coverage_le_iff.mpr (hfirst b hb hbm).not_ge)

/-! ### The exception chain (R194) -/

/-- The gap of an exception that is not the last is its distance to the next. -/
theorem chainGaps_getD {e : List Nat} {j : Nat} (hj : j + 1 < e.length) :
    (chainGaps e).getD j 0 = e.getD (j + 1) 0 - e.getD j 0 := by
  induction e using chainGaps.induct generalizing j with
  | case1 => simp at hj
  | case2 => simp at hj
  | case3 i k rest ih =>
    cases j with
    | zero => rfl
    | succ j => exact ih (Nat.lt_of_succ_lt_succ hj)

theorem chainGaps_getD_last (e : List Nat) : (chainGaps e).getD (e.length - 1) 0 = 0 := by
  induction e using chainGaps.induct with
  | case1 => rfl
  | case2 => rfl
  | case3 i j rest ih => exact ih

/-- `maxGap` is attained. -/
theorem maxOf_mem {gaps : List Nat} (h : gaps ≠ []) : maxOf gaps ∈ gaps := by
  cases gaps with
  | nil => exact absurd rfl h
  | cons g gaps =>
    have hmax : maxOf (g :: gaps) = gaps.foldl max g := by rw [maxOf, List.foldl_cons, Nat.zero_max]
    exact hmax ▸ List.max?_mem List.max?_cons'

/-- Slots of different indices, read back after the rewrite, hold what was written to them. -/
theorem map_getD_rewriteSlots_zip {e gaps vs : List Nat} (hnodup : e.Nodup) (hin : ∀ i ∈ e, i < vs.length)
    (hlen : gaps.length = e.length) : e.map (fun i => (rewriteSlots vs (e.zip gaps)).getD i 0) = gaps := by
  induction e generalizing gaps vs with
  | nil => exact (List.length_eq_zero_iff.mp hlen).symm
  | cons i e ih =>
    obtain ⟨g, gaps, rfl⟩ := List.exists_cons_of_length_eq_add_one hlen
    obtain ⟨hi, hnodup⟩ := List.nodup_cons.mp hnodup
    obtain ⟨hlt, hin⟩ := List.forall_mem_cons.mp hin
    have hlen : gaps.length = e.length := Nat.succ_injective hlen
    have hkey : i ∉ (e.zip gaps).map Prod.fst := by rwa [List.map_fst_zip hlen.ge]
    rw [List.zip_cons_cons, rewriteSlots_cons, List.map_cons, rewriteSlots_getD_of_notMem _ hkey, getD_set_self _ hlt,
      ih hnodup (by simpa using hin) hlen]

/-- Neighbours in a rising list of indices below 128 are 1 to 127 apart. -/
theorem gap_bounds {e : List Nat} {j : Nat} (hrise : e.Pairwise (· < ·)) (hin : ∀ i ∈ e, i < 128)
    (hj : j + 1 < e.length) : 1 ≤ e.getD (j + 1) 0 - e.getD j 0 ∧ e.getD (j + 1) 0 - e.getD j 0 ≤ 127 := by
  have hlt : e[j] < e[j + 1] := List.pairwise_iff_getElem.mp hrise _ _ _ _ (Nat.lt_succ_self j)
  have hbound : e[j + 1] < 128 := hin _ (List.getElem_mem hj)
  rw [List.getD_eq_getElem _ _ hj, List.getD_eq_getElem _ _ (Nat.lt_of_succ_lt hj)]
  omega

/-- Settles O44: the slots read back as the list of gaps, so what a slot holds and the largest value written are facts
about that list. -/
theorem chainHoldsTheGaps : Obligations.ChainHoldsTheGaps := by
  intro vs maxNum e w hlen he hw
  have hmem : ∀ i, i ∈ e ↔ i < vs.length ∧ maxNum < vs.getD i 0 := fun i => he ▸ mem_exceptionIndices
  have hrise : e.Pairwise (· < ·) := he ▸ exceptionIndices_rising vs maxNum
  have hslots : e.map (fun i => w.getD i 0) = chainGaps e :=
    hw ▸ map_getD_rewriteSlots_zip (hrise.imp Nat.ne_of_lt) (fun i hi => ((hmem i).mp hi).1) (length_chainGaps e)
  have hslot : ∀ j, j < e.length → w.getD (e.getD j 0) 0 = (chainGaps e).getD j 0 := fun j hj => by
    rw [← hslots]
    simp [hj]
  refine ⟨hmem, hrise, hw ▸ length_rewriteSlots _ _, fun i _ hi => ?_, fun j hj => ⟨?_, ?_⟩, fun hne => ?_,
    fun i hi => ?_, fun hne => ?_, fun hnil => hnil ▸ rfl⟩
  · rw [hw, rewriteSlots_getD_of_notMem]
    rwa [List.map_fst_zip (length_chainGaps e).ge]
  · rw [hslot j (by omega), chainGaps_getD hj]
  · exact gap_bounds hrise (fun i hi => ((hmem i).mp hi).1.trans_le hlen) hj
  · have := List.length_pos_of_ne_nil hne
    rw [hslot _ (by omega), chainGaps_getD_last]
  · exact maxOf_le_iff.mp le_rfl _ (hslots ▸ List.mem_map_of_mem hi)
  · have hgaps : chainGaps e ≠ [] := by
      rw [← hslots]
      simpa using hne
    exact List.mem_map.mp (hslots.symm ▸ maxOf_mem hgaps)

end Sys2Proof.Machine
end

section
/-! PROOFS, 60_exceptions.md. Which words the decoder refuses, table row by table row (R84), and how every command
ends: one lemma says what `finish` leaves, and each write of `CMD` ends in it or in the fault entry of `E_ILLEGAL`. -/

namespace Sys2Proof.Machine

/-! ### The fields of a command word as numbers (R80) -/

theorem opField_toNat (w : Word) : (opField w).toNat = w.toNat % 256 := by
  simp [opField, BitVec.extractLsb'_toNat]

theorem ewField_toNat (w : Word) : (ewField w).toNat = w.toNat / 256 % 4 := by
  simp [ewField, BitVec.extractLsb'_toNat, Nat.shiftRight_eq_div_pow]

theorem reservedLow_eq_zero_iff (w : Word) : reservedLow w = 0 ↔ w.toNat / 1024 % 64 = 0 := by
  simp [reservedLow, BitVec.toNat_eq, BitVec.extractLsb'_toNat, Nat.shiftRight_eq_div_pow]

theorem bwField_eq_zero_iff (w : Word) : bwField w = 0 ↔ w.toNat / 65536 % 64 = 0 := by
  simp [bwField, BitVec.toNat_eq, BitVec.extractLsb'_toNat, Nat.shiftRight_eq_div_pow]

/-- The ten bits from 22 up are all that is left of the word, so no cut is needed. -/
theorem reservedHigh_eq_zero_iff (w : Word) : reservedHigh w = 0 ↔ w.toNat / 4194304 = 0 := by
  have hcut : w.toNat / 4194304 % 1024 = w.toNat / 4194304 := Nat.mod_eq_of_lt (by omega)
  simp [reservedHigh, BitVec.toNat_eq, BitVec.extractLsb'_toNat, Nat.shiftRight_eq_div_pow, hcut]

/-! ### The words the decoder refuses (R84) -/

theorem decodeWidth_eq_none_iff (c : BitVec 2) : decodeWidth c = none ↔ c.toNat = 3 := by
  revert c
  decide

theorem eq_w_iff_of_decodeWidth {c : BitVec 2} {ew : ElemWidth} (h : decodeWidth c = some ew) :
    ew = .w ↔ c.toNat = 2 := by
  revert c ew
  decide

theorem decodeSized_refuses_iff (bw : BitVec 6) (i : Instr) : (∃ e, decodeSized bw i = .error e) ↔ bw ≠ 0 := by
  unfold decodeSized
  split_ifs with h
  · simp [h]
  · exact iff_of_true ⟨_, rfl⟩ h

theorem decodeFixed_refuses_iff (ew : ElemWidth) (bw : BitVec 6) (i : Instr) :
    (∃ e, decodeFixed ew bw i = .error e) ↔ ew ≠ .w ∨ bw ≠ 0 := by
  unfold decodeFixed
  split_ifs with h
  · simp [h, decodeSized_refuses_iff]
  · simp [h]

/-- The table of R81, row by row: no row, a row of 32-bit values with another width, or a row without `BW`. -/
theorem decodeOp_refuses_iff (op : BitVec 8) (ew : ElemWidth) (bw : BitVec 6) :
    (∃ e, decodeOp op ew bw = .error e) ↔
      op.toNat ∉ [0x01, 0x02, 0x03, 0x10, 0x11, 0x12, 0x13, 0x20, 0x21, 0x22, 0x30, 0x31] ∨
        (op.toNat ∈ [0x01, 0x10, 0x11, 0x12, 0x13] ∧ ew ≠ .w) ∨ (op.toNat ∉ [0x02, 0x03] ∧ bw ≠ 0) := by
  unfold decodeOp
  split
  case h_13 =>
    refine iff_of_true ⟨_, rfl⟩ (.inl fun hrow => ?_)
    simp only [List.mem_cons, List.not_mem_nil, or_false] at hrow
    tauto
  all_goals simp [*, decodeSized_refuses_iff, decodeFixed_refuses_iff]

/-- The decoder refuses the words of R84 and no others. -/
theorem decode_refuses_iff (w : Word) : (∃ e, decode w = .error e) ↔ IllegalWord w := by
  unfold decode
  split_ifs with hreserved
  · obtain ⟨hlow, hhigh⟩ := hreserved
    rw [reservedLow_eq_zero_iff] at hlow
    rw [reservedHigh_eq_zero_iff] at hhigh
    cases hwidth : decodeWidth (ewField w) with
    | none =>
      have hew : w.toNat / 256 % 4 = 3 := ewField_toNat w ▸ (decodeWidth_eq_none_iff _).mp hwidth
      exact iff_of_true ⟨_, rfl⟩ (.inr (.inr (.inr (.inl hew))))
    | some ew =>
      have hew : w.toNat / 256 % 4 ≠ 3 := by
        rw [← ewField_toNat, Ne, ← decodeWidth_eq_none_iff, hwidth]
        exact Option.some_ne_none ew
      simp only [IllegalWord, decodeOp_refuses_iff, eq_w_iff_of_decodeWidth hwidth, opField_toNat, ewField_toNat,
        bwField_eq_zero_iff, Ne, hlow, hhigh, hew, not_true_eq_false, false_or]
  · rw [reservedLow_eq_zero_iff, reservedHigh_eq_zero_iff] at hreserved
    have hset : w.toNat / 1024 % 64 ≠ 0 ∨ w.toNat / 4194304 ≠ 0 := not_and_or.mp hreserved
    exact iff_of_true ⟨_, rfl⟩ (.inr (or_assoc.mp (.inl hset)))

/-! ### Writes of `CMD` -/

theorem step_of_write_cmd {s : State} {w : Word} {rest : List HostAccess} (h : s.pending = .write 0 w :: rest) :
    step s = startCommand w { s with pending := rest } :=
  step_of_pending h

/-- Settles O3: a write of `CMD` is fault entry or a command by what the decoder says of the word. -/
theorem illegalWordsFault : Obligations.IllegalWordsFault := by
  intro s w rest hpending
  rw [step_of_write_cmd hpending, ← decode_refuses_iff]
  obtain ⟨i, hdecode, hstart⟩ | ⟨e, hdecode, hstart⟩ := startCommand_cases w { s with pending := rest }
  · have hlegal : ¬∃ e, decode w = .error e := by simp [hdecode]
    exact ⟨fun hillegal => absurd hillegal hlegal, fun _ => ⟨i, hdecode, hstart⟩⟩
  · exact ⟨fun _ => hstart, fun hlegal => absurd ⟨e, hdecode⟩ hlegal⟩

/-! ### How every command ends (R267) -/

theorem ErrCode.code_bounds (e : ErrCode) : 1 ≤ e.code ∧ e.code ≤ 4 := by cases e <;> decide

/-- The two outcomes of R267 as the interface registers show them: `DONE_OK`, or fault entry with a code of 1 to 4. -/
def ShowsOutcome (t : State) : Prop :=
  t.status = 0x01 ∨
    ∃ c, 1 ≤ c ∧ c ≤ 4 ∧ t.status = BitVec.ofNat 32 (2 ||| (c <<< 4)) ∧ t.rcnt = 0 ∧ t.rcons = 0

theorem State.raise_showsOutcome (s : State) (e : ErrCode) : ShowsOutcome (s.raise e) :=
  .inr ⟨e.code, e.code_bounds.1, e.code_bounds.2, rfl, rfl, rfl⟩

theorem State.finish_showsOutcome (s : State) (r : Reply) : ShowsOutcome (s.finish r) := by
  cases r with
  | done out rcnt rcons => exact .inl rfl
  | fail e spoiled => exact (s.spoil spoiled).raise_showsOutcome e

theorem State.finish_keepsHostSide (s : State) (r : Reply) : KeepsHostSide s (s.finish r) := by
  cases r <;> simp [KeepsHostSide]

/-- Every write of `CMD` ends as a reply does: an illegal word is the fault that spoils nothing. -/
theorem startCommand_finish (w : Word) (s : State) :
    ∃ r : Reply, startCommand w s = .next ((s.writeReg 0 w).finish r) := by
  obtain ⟨i, -, hstart⟩ | ⟨-, -, hstart⟩ := startCommand_cases w s
  · exact hstart ▸ exec_finish i (s.writeReg 0 w)
  · exact ⟨.fail .illegal 0, hstart⟩

/-- Settles O12: what `finish` leaves is one of the two outcomes, with the host side kept. -/
theorem everyCommandEnds : Obligations.EveryCommandEnds := by
  intro w s
  obtain ⟨r, hstart⟩ := startCommand_finish w s
  exact ⟨_, hstart, State.finish_keepsHostSide _ r, State.finish_showsOutcome _ r⟩

end Sys2Proof.Machine
end

section
/-! PROOFS, 30_encoding.md. The command word and its fields determine each other, the table of R81 and the encoder
agree row by row, and a line of a host program is run access by access. -/

namespace Sys2Proof.Machine

/-! ### A word and its fields (R80) -/

theorem bwField_toNat (w : Word) : (bwField w).toNat = w.toNat / 65536 % 64 := by
  simp [bwField, BitVec.extractLsb'_toNat, Nat.shiftRight_eq_div_pow]

theorem toNat_append_eq_add {m n : Nat} (x : BitVec m) (y : BitVec n) :
    (x ++ y).toNat = x.toNat * 2 ^ n + y.toNat := by
  rw [BitVec.toNat_append, ← Nat.shiftLeft_add_eq_or_of_lt y.isLt, Nat.shiftLeft_eq]

theorem commandWord_toNat (op : BitVec 8) (ew : BitVec 2) (bw : BitVec 6) :
    (commandWord op ew bw).toNat = op.toNat + 256 * ew.toNat + 65536 * bw.toNat := by
  simp only [commandWord, toNat_append_eq_add, BitVec.toNat_ofNat]
  omega

theorem opField_commandWord (op : BitVec 8) (ew : BitVec 2) (bw : BitVec 6) : opField (commandWord op ew bw) = op := by
  apply BitVec.eq_of_toNat_eq
  rw [opField_toNat, commandWord_toNat]
  omega

theorem ewField_commandWord (op : BitVec 8) (ew : BitVec 2) (bw : BitVec 6) : ewField (commandWord op ew bw) = ew := by
  apply BitVec.eq_of_toNat_eq
  rw [ewField_toNat, commandWord_toNat]
  omega

theorem bwField_commandWord (op : BitVec 8) (ew : BitVec 2) (bw : BitVec 6) : bwField (commandWord op ew bw) = bw := by
  apply BitVec.eq_of_toNat_eq
  rw [bwField_toNat, commandWord_toNat]
  omega

/-- A word whose reserved bits are 0 is put together from its other fields. -/
theorem commandWord_fields {w : Word} (hlow : reservedLow w = 0) (hhigh : reservedHigh w = 0) :
    commandWord (opField w) (ewField w) (bwField w) = w := by
  rw [reservedLow_eq_zero_iff] at hlow
  rw [reservedHigh_eq_zero_iff] at hhigh
  apply BitVec.eq_of_toNat_eq
  rw [commandWord_toNat, opField_toNat, ewField_toNat, bwField_toNat]
  omega

/-! ### Decoding inverts encoding (R81, R82) -/

@[simp] theorem decodeWidth_encodeWidth (ew : ElemWidth) : decodeWidth (encodeWidth ew) = some ew := by
  cases ew <;> rfl

/-- The reserved bits of a word put together from fields are 0, so the decoder looks its `OP` up in the table. -/
theorem decode_commandWord (op : BitVec 8) (ew : ElemWidth) (bw : BitVec 6) :
    decode (commandWord op (encodeWidth ew) bw) = decodeOp op ew bw := by
  obtain ⟨hlow, hhigh, -⟩ := Laws.EncodeInFormat.ofFields op ew bw
  rw [decode, if_pos ⟨hlow, hhigh⟩, ewField_commandWord, opField_commandWord, bwField_commandWord,
    decodeWidth_encodeWidth]

/-- Settles O1: the word of each command leads to its own row of the table, and a `BW` below 64 is what its field
holds. -/
theorem decodeInvertsEncode : Obligations.DecodeInvertsEncode := by
  intro i hwf
  have field : ∀ bw, bw < 64 → (BitVec.ofNat 6 bw).toNat = bw := fun bw hbw => Nat.mod_eq_of_lt hbw
  cases i with
  | pack ew bw =>
    rw [encode, decode_commandWord]
    exact congrArg (fun b => Except.ok (Instr.pack ew b)) (field bw (of_decide_eq_true hwf))
  | unpack ew bw =>
    rw [encode, decode_commandWord]
    exact congrArg (fun b => Except.ok (Instr.unpack ew b)) (field bw (of_decide_eq_true hwf))
  | hbi | gvci | gvdi | gvc | gvd | pfbits | pfenc | pfdec | pfcomp | pfdecomp => exact decode_commandWord _ _ _

/-! ### Encoding inverts decoding -/

theorem encodeWidth_of_decodeWidth {c : BitVec 2} {ew : ElemWidth} (h : decodeWidth c = some ew) :
    encodeWidth ew = c := by
  revert c ew
  decide

theorem decodeSized_eq_ok_iff {bw : BitVec 6} {i j : Instr} : decodeSized bw i = .ok j ↔ bw = 0 ∧ j = i := by
  unfold decodeSized
  split_ifs with h
  · exact ⟨fun hj => ⟨h, (Except.ok.inj hj).symm⟩, fun hj => hj.2 ▸ rfl⟩
  · exact iff_of_false (fun hj => nomatch hj) (fun hj => h hj.1)

theorem decodeFixed_eq_ok_iff {ew : ElemWidth} {bw : BitVec 6} {i j : Instr} :
    decodeFixed ew bw i = .ok j ↔ ew = .w ∧ bw = 0 ∧ j = i := by
  unfold decodeFixed
  split_ifs with h <;> simp [h, decodeSized_eq_ok_iff]

/-- A row of the table gives a command that is well-formed and whose word has the row's `OP`. -/
theorem encode_of_decodeOp {op : BitVec 8} {ew : ElemWidth} {bw : BitVec 6} {i : Instr}
    (h : decodeOp op ew bw = .ok i) : i.wellFormed = true ∧ encode i = commandWord op (encodeWidth ew) bw := by
  have hop : BitVec.ofNat 8 op.toNat = op := by rw [BitVec.ofNat_toNat, BitVec.setWidth_eq]
  unfold decodeOp at h
  split at h
  case h_2 hrow | h_3 hrow =>
    obtain rfl := Except.ok.inj h
    refine ⟨decide_eq_true bw.isLt, ?_⟩
    rw [encode, BitVec.ofNat_toNat, BitVec.setWidth_eq, ← hop, hrow]
    rfl
  case h_13 => cases h
  case h_1 hrow | h_4 hrow | h_5 hrow | h_6 hrow | h_7 hrow =>
    obtain ⟨rfl, rfl, rfl⟩ := decodeFixed_eq_ok_iff.mp h
    exact ⟨rfl, by rw [← hop, hrow]; rfl⟩
  case h_8 hrow | h_9 hrow | h_10 hrow | h_11 hrow | h_12 hrow =>
    obtain ⟨rfl, rfl⟩ := decodeSized_eq_ok_iff.mp h
    exact ⟨rfl, by rw [← hop, hrow]; rfl⟩

/-- Settles O2: a word that decodes has its reserved bits 0, so it is put together from its fields, and the table row
gives those back. -/
theorem encodeInvertsDecode : Obligations.EncodeInvertsDecode := by
  intro w i h
  unfold decode at h
  split_ifs at h with hreserved
  obtain ⟨hlow, hhigh⟩ := hreserved
  cases hwidth : decodeWidth (ewField w) with
  | none => simp [hwidth] at h
  | some ew =>
    rw [hwidth] at h
    obtain ⟨hwf, hencode⟩ := encode_of_decodeOp h
    refine ⟨hwf, ?_⟩
    rw [hencode, encodeWidth_of_decodeWidth hwidth, commandWord_fields hlow hhigh]

/-- Settles O4. -/
theorem tableWordsDecode : Obligations.TableWordsDecode := by
  unfold Obligations.TableWordsDecode
  decide

/-! ### A line of a host program (R86) -/

/-- Settles O5: the word in `CMD` decodes, so the write runs its command. -/
theorem stepRunsTheCommandWritten : Obligations.StepRunsTheCommandWritten := by
  intro s w i rest hpending hdecode
  rw [step_of_write_cmd hpending, startCommand, hdecode]
  rfl

/-- The access is a write of an operand register: it starts no command (R31). -/
def IsOperandWrite (a : HostAccess) : Prop := ∃ k v, a = .write k v ∧ k ≠ 0

theorem isOperandWrite_of_mem {i : Instr} {o : LineOperands} : ∀ a ∈ operandWrites i o, IsOperandWrite a := by
  cases i <;> simp [operandWrites, IsOperandWrite]

theorem State.writeReg_with_pending (s : State) (k : Nat) (v : Word) (rest : List HostAccess) :
    { s with pending := rest }.writeReg k v = { s.writeReg k v with pending := rest } := by
  unfold State.writeReg
  split <;> rfl

theorem hostAccess_write {k : Nat} (hk : k ≠ 0) (v : Word) (s : State) :
    hostAccess (.write k v) s = .next (s.writeReg k v) := by
  obtain ⟨k, rfl⟩ := Nat.exists_eq_succ_of_ne_zero hk
  rfl

theorem step_of_operand_write {s : State} {k : Nat} {v : Word} {rest : List HostAccess} (hk : k ≠ 0)
    (h : s.pending = .write k v :: rest) : step s = .next { s.writeReg k v with pending := rest } := by
  rw [step_of_pending h, hostAccess_write hk, State.writeReg_with_pending]

theorem afterOperandWrites_with_pending (s : State) (as rest : List HostAccess) :
    afterOperandWrites { s with pending := rest } as = { afterOperandWrites s as with pending := rest } := by
  induction as generalizing s with
  | nil => rfl
  | cons a as ih =>
    cases a with
    | write k v => exact (congrArg (afterOperandWrites · as) (s.writeReg_with_pending k v rest)).trans (ih _)
    | read | store | load | reset => exact ih s

/-- A run goes on after its first step. -/
theorem run_succ_of_step {s t : State} (k : Nat) (h : step s = .next t) : core.run (k + 1) s = core.run k t := by
  have hcore : core.step s = .next t := h
  simp only [Host.Core.run, hcore]

/-- Steps over operand writes leave the state that those writes leave (log 1). -/
theorem run_operand_writes {as : List HostAccess} {s : State} {rest : List HostAccess} (k : Nat)
    (has : ∀ a ∈ as, IsOperandWrite a) (h : s.pending = as ++ rest) :
    core.run (as.length + k) s = core.run k { afterOperandWrites s as with pending := rest } := by
  induction as generalizing s with
  | nil =>
    obtain rfl : s.pending = rest := h
    rw [List.length_nil, Nat.zero_add]
    rfl
  | cons a as ih =>
    obtain ⟨⟨i, v, rfl, hi⟩, hrest⟩ := List.forall_mem_cons.mp has
    rw [List.length_cons, Nat.add_right_comm, run_succ_of_step _ (step_of_operand_write hi h), ih hrest rfl,
      afterOperandWrites_with_pending]
    rfl

/-- Settles O6: the operand writes lead to the write of `CMD`, whose word decodes to the command. -/
theorem hostLineRunsItsCommand : Obligations.HostLineRunsItsCommand := by
  intro i o s rest hwf hpending
  rw [commandLine, List.append_assoc] at hpending
  rw [commandLine, List.length_append, run_operand_writes _ isOperandWrite_of_mem hpending]
  have hstep := stepRunsTheCommandWritten
    { afterOperandWrites s (operandWrites i o) with pending := [.write 0 (encode i)] ++ rest } (encode i) i rest rfl
    (decodeInvertsEncode i hwf)
  obtain ⟨r, hexec⟩ := exec_finish i { afterOperandWrites s (operandWrites i o) with pending := rest, cmd := encode i }
  rw [hexec] at hstep ⊢
  exact run_succ_of_step 0 hstep

end Sys2Proof.Machine
end

section
/-! PROOFS, 20_memory.md. `MemRead` as the sum of its bytes, memories in canonical form as the bytes they read, the
region check as the two rules it stands for, and the host's own accesses. -/

namespace Sys2Proof.Machine

/-! ### `MemRead` (R52) -/

theorem Memory.readLe_succ (m : Memory) (a n : Nat) :
    m.readLe a (n + 1) = (m.read a).toNat + 256 * m.readLe (a + 1) n := rfl

theorem Memory.readLe_eq_sum (m : Memory) (a n : Nat) :
    m.readLe a n = ((List.range n).map (fun j => (m.read (a + j)).toNat * 256 ^ j)).sum := by
  induction n generalizing a with
  | zero => rfl
  | succ n ih =>
    have hplace (j : Nat) : (m.read (a + (j + 1))).toNat * 256 ^ (j + 1) =
        256 * ((m.read (a + 1 + j)).toNat * 256 ^ j) := by
      rw [Nat.add_right_comm a 1 j, Nat.add_assoc]
      ring
    simp only [Memory.readLe_succ, ih, List.range_succ_eq_map, List.map_cons, List.map_map, List.sum_cons,
      Function.comp_def, Nat.succ_eq_add_one, hplace, List.sum_map_mul_left, Nat.add_zero, Nat.pow_zero, Nat.mul_one]

theorem Memory.readLe_writeLe (m : Memory) (a n v : Nat) : (m.writeLe a n v).readLe a n = v % 256 ^ n := by
  have hread := m.readBytes_writeBytes a (leBytes n v)
  rw [length_leBytes] at hread
  rw [Memory.readLe, Memory.writeLe, hread, leValue_leBytes]

/-- Settles O17. -/
theorem memReadIsTheByteSum : Obligations.MemReadIsTheByteSum := fun m addr n v =>
  ⟨m.readLe_eq_sum addr n, m.readLe_writeLe addr n v⟩

/-! ### The canonical form -/

/-- In a rising list the byte read at the address of an entry is that entry's. -/
theorem Memory.read_of_mem {m : Memory} (hm : m.Pairwise (fun c d => c.1 < d.1)) {c : Host.Cell} (hc : c ∈ m) :
    m.read c.1 = c.2 := by
  induction m with
  | nil => cases hc
  | cons d m ih =>
    obtain ⟨hd, hm⟩ := List.pairwise_cons.mp hm
    rw [Memory.read_cons]
    obtain rfl | hc := List.mem_cons.mp hc
    · rw [if_pos rfl]
    · rw [if_neg (hd c hc).ne, ih hm hc]

theorem Memory.mem_of_read_ne {m : Memory} {a : Nat} (h : m.read a ≠ Memory.unlisted) : (a, m.read a) ∈ m := by
  induction m with
  | nil => exact absurd rfl h
  | cons c m ih =>
    rw [Memory.read_cons] at h ⊢
    split_ifs at h ⊢ with hc
    · exact List.mem_cons.mpr (.inl (hc ▸ rfl))
    · exact List.mem_cons_of_mem c (ih h)

/-- The entries of a canonical memory are the addresses that do not read as an unlisted one, with their bytes. -/
theorem Memory.mem_iff_of_wf {m : Memory} (hm : m.wf) (c : Host.Cell) :
    c ∈ m ↔ c.2 ≠ Memory.unlisted ∧ m.read c.1 = c.2 := by
  refine ⟨fun hc => ⟨(hm.2 c hc).2, Memory.read_of_mem hm.1 hc⟩, fun ⟨hne, hread⟩ => ?_⟩
  have hmem := Memory.mem_of_read_ne (hread ▸ hne)
  rwa [hread] at hmem

/-- Settles O18: canonical memories that read alike have the same entries, and a rising list is determined by its
entries. -/
theorem canonicalMemoriesAreEqualData : Obligations.CanonicalMemoriesAreEqualData := by
  intro m m' hm hm' hread
  have hnodup : ∀ {l : Memory}, l.wf → l.Nodup := fun hl => hl.1.imp fun hlt heq => hlt.ne (congrArg Prod.fst heq)
  have hperm : m.Perm m' := (List.perm_ext_iff_of_nodup (hnodup hm) (hnodup hm')).mpr fun c => by
    rw [Memory.mem_iff_of_wf hm, Memory.mem_iff_of_wf hm', hread]
  exact hperm.eq_of_pairwise (fun c d _ _ h h' => absurd h h'.not_gt) hm.1 hm'.1

/-! ### The regions (R58, R59) -/

theorem passesTop_eq_false_iff {base len : Nat} : passesTop base len = false ↔ (0 < len → base + len ≤ 2 ^ 32) := by
  simp only [passesTop, Config.memoryBytes, Config.addrBits, decide_eq_false_iff_not]
  omega

/-- Two regions do not overlap exactly when no address is in both: the larger base would be one. -/
theorem overlap_eq_false_iff {a la b lb : Nat} :
    overlap a la b lb = false ↔ ∀ x, ¬((a ≤ x ∧ x < a + la) ∧ b ≤ x ∧ x < b + lb) := by
  simp only [overlap, decide_eq_false_iff_not]
  constructor
  · intro h x
    omega
  · intro h
    have := h (max a b)
    omega

theorem regionsLegal_iff {i : Instr} {s : State} : regionsLegal i s = true ↔
    (0 < sourceBytes i s → s.src.toNat + sourceBytes i s ≤ 2 ^ 32) ∧
    (0 < destBytes i s → s.dst.toNat + destBytes i s ≤ 2 ^ 32) ∧ ∀ a, ¬(InSource i s a ∧ InDest i s a) := by
  simp only [regionsLegal, Bool.and_eq_true, Bool.not_eq_true', passesTop_eq_false_iff, overlap_eq_false_iff, and_assoc,
    InSource, InDest]

/-- Settles O19. -/
theorem legalRegionsAreApart : Obligations.LegalRegionsAreApart := fun _ _ => regionsLegal_iff

/-! ### The host's loads and stores (R62) -/

/-- Settles O8: inside the address space a store is one byte written and a load one byte read; outside it both are the
stop of log 8. -/
theorem hostReachesTheMemory : Obligations.HostReachesTheMemory := by
  refine ⟨fun s b v rest hpending => ⟨fun hb => ?_, fun hb => ?_⟩,
    fun s b rest hpending => ⟨fun hb => ?_, fun hb => ?_⟩⟩
  · exact ⟨_, (step_of_pending hpending).trans (if_pos hb), fun a => s.mem.read_write b a v⟩
  · exact (step_of_pending hpending).trans (if_neg hb.not_gt)
  · refine ⟨_, (step_of_pending hpending).trans (if_pos hb), ?_⟩
    rw [BitVec.toNat_setWidth, Nat.mod_eq_of_lt ((s.mem.read b).isLt.trans (by decide))]
  · exact (step_of_pending hpending).trans (if_neg hb.not_gt)

end Sys2Proof.Machine
end

section
/-! PROOFS, 41_groupvarint.md. What a decoder of GroupVarint bytes answers, said once for groups, tail varints and
whole streams: they are one decoder after another. From it the round trip of a stream, the sizes of what the encoders
write, and the failures of `GvDec`. -/

namespace Sys2Proof.Machine

/-! ### Decoders, one after another (R153, R156) -/

/-- A decoder of byte strings: the values and the bytes consumed. -/
abbrev ValueDecoder := List Byte → Except ErrCode (List Nat × Nat)

/-- The second decoder on the bytes the first has left. -/
def ValueDecoder.followedBy (dec dec' : ValueDecoder) : ValueDecoder := fun bs =>
  match dec bs with
  | .error e => .error e
  | .ok (vs, used) =>
    match dec' (bs.drop used) with
    | .error e => .error e
    | .ok (ws, more) => .ok (vs ++ ws, used + more)

theorem ValueDecoder.followedBy_eq_ok_iff {dec dec' : ValueDecoder} {bs : List Byte} {us : List Nat} {n : Nat} :
    dec.followedBy dec' bs = .ok (us, n) ↔ ∃ vs used ws more, dec bs = .ok (vs, used) ∧
      dec' (bs.drop used) = .ok (ws, more) ∧ us = vs ++ ws ∧ n = used + more := by
  unfold ValueDecoder.followedBy
  constructor
  · intro h
    cases hfirst : dec bs with
    | error e => simp [hfirst] at h
    | ok r =>
      cases hsecond : dec' (bs.drop r.2) with
      | error e => simp [hfirst, hsecond] at h
      | ok r' =>
        simp only [hfirst, hsecond, Except.ok.injEq, Prod.mk.injEq] at h
        exact ⟨_, _, _, _, rfl, hsecond, h.1.symm, h.2.symm⟩
  · rintro ⟨vs, used, ws, more, hfirst, hsecond, rfl, rfl⟩
    simp only [hfirst, hsecond]

theorem ValueDecoder.followedBy_of_ok {dec dec' : ValueDecoder} {bs : List Byte} {vs : List Nat} {used : Nat}
    (h : dec bs = .ok (vs, used)) :
    dec.followedBy dec' bs = (dec' (bs.drop used)).map fun r => (vs ++ r.1, used + r.2) := by
  simp only [ValueDecoder.followedBy, h]
  cases dec' (bs.drop used) <;> rfl

theorem ValueDecoder.followedBy_eq_error {dec dec' : ValueDecoder} {bs : List Byte} {e : ErrCode}
    (h : dec.followedBy dec' bs = .error e) : dec bs = .error e ∨ ∃ bs', dec' bs' = .error e := by
  cases hfirst : dec bs with
  | error e' =>
    simp only [ValueDecoder.followedBy, hfirst] at h
    exact .inl h
  | ok r =>
    rw [ValueDecoder.followedBy_of_ok hfirst] at h
    cases hsecond : dec' (bs.drop r.2) with
    | error e' =>
      rw [hsecond] at h
      exact .inr ⟨_, hsecond.trans h⟩
    | ok r' => simp [hsecond, Except.map] at h

/-- The decoder gives `n` values of 32 bits from bytes that are there, looks at no byte after those it consumes, and
fails with `E_CORRUPT` only. -/
structure ValueDecoder.Gives (dec : ValueDecoder) (n : Nat) : Prop where
  error : ∀ {bs e}, dec bs = .error e → e = .corrupt
  count : ∀ {bs vs used}, dec bs = .ok (vs, used) → vs.length = n
  below : ∀ {bs vs used}, dec bs = .ok (vs, used) → AllBelow 32 vs
  within : ∀ {bs vs used}, dec bs = .ok (vs, used) → used ≤ bs.length
  extend : ∀ {bs vs used} more, dec bs = .ok (vs, used) → dec (bs ++ more) = .ok (vs, used)

theorem ValueDecoder.Gives.followedBy {dec dec' : ValueDecoder} {n n' : Nat} (h : dec.Gives n) (h' : dec'.Gives n') :
    (dec.followedBy dec').Gives (n + n') where
  error he := (ValueDecoder.followedBy_eq_error he).elim h.error fun ⟨_, he'⟩ => h'.error he'
  count hok := by
    obtain ⟨vs, used, ws, more, hfirst, hsecond, rfl, rfl⟩ := ValueDecoder.followedBy_eq_ok_iff.mp hok
    rw [List.length_append, h.count hfirst, h'.count hsecond]
  below hok := by
    obtain ⟨vs, used, ws, more, hfirst, hsecond, rfl, rfl⟩ := ValueDecoder.followedBy_eq_ok_iff.mp hok
    exact List.forall_mem_append.mpr ⟨h.below hfirst, h'.below hsecond⟩
  within hok := by
    obtain ⟨vs, used, ws, more, hfirst, hsecond, rfl, rfl⟩ := ValueDecoder.followedBy_eq_ok_iff.mp hok
    have hused := h.within hfirst
    have hmore := h'.within hsecond
    rw [List.length_drop] at hmore
    omega
  extend more' hok := by
    obtain ⟨vs, used, ws, more, hfirst, hsecond, rfl, rfl⟩ := ValueDecoder.followedBy_eq_ok_iff.mp hok
    refine ValueDecoder.followedBy_eq_ok_iff.mpr ⟨vs, used, ws, more, h.extend more' hfirst, ?_, rfl, rfl⟩
    rw [List.drop_append_of_le_length (h.within hfirst)]
    exact h'.extend more' hsecond

/-- The decoder of no values. -/
theorem ValueDecoder.gives_zero : ValueDecoder.Gives (fun _ => .ok ([], 0)) 0 where
  error he := nomatch he
  count hok := by cases hok; rfl
  below hok := by cases hok; exact allBelow_nil 32
  within hok := by cases hok; exact Nat.zero_le _
  extend _ hok := hok

/-! ### One group (R153) -/

@[simp] theorem length_slotValues (lens : List Nat) (bs : List Byte) : (slotValues lens bs).length = lens.length := by
  induction lens generalizing bs with
  | nil => rfl
  | cons l lens ih => rw [slotValues, List.length_cons, ih, List.length_cons]

/-- A slot of at most `b` bytes holds a value of `8b` bits. -/
theorem allBelow_slotValues {b : Nat} {lens : List Nat} (bs : List Byte) (h : ∀ l ∈ lens, l ≤ b) :
    AllBelow (8 * b) (slotValues lens bs) := by
  induction lens generalizing bs with
  | nil => exact allBelow_nil _
  | cons l lens ih =>
    obtain ⟨hl, hlens⟩ := List.forall_mem_cons.mp h
    refine List.forall_mem_cons.mpr ⟨?_, ih _ hlens⟩
    calc leValue (bs.take l) < 256 ^ (bs.take l).length := leValue_lt _
      _ ≤ 256 ^ b := Nat.pow_le_pow_right (by decide) ((List.length_take_le _ _).trans hl)
      _ = 2 ^ (8 * b) := by rw [Nat.pow_mul]

/-- Slots read their own bytes only. -/
theorem slotValues_append {lens : List Nat} {bs : List Byte} (more : List Byte) (h : lens.sum ≤ bs.length) :
    slotValues lens (bs ++ more) = slotValues lens bs := by
  induction lens generalizing bs with
  | nil => rfl
  | cons l lens ih =>
    rw [List.sum_cons] at h
    rw [slotValues, slotValues, List.take_append_of_le_length (by omega), List.drop_append_of_le_length (by omega),
      ih (by rw [List.length_drop]; omega)]

/-- A group decodes exactly when all its slots are there. -/
theorem gvItemDec_cons (c : Byte) (body : List Byte) :
    gvItemDec (c :: body) =
      if body.length < (selectorLengths c.toNat).sum then .error .corrupt
      else .ok (slotValues (selectorLengths c.toNat) body, 1 + (selectorLengths c.toNat).sum) := rfl

theorem gvItemDec_eq_ok_iff {bs : List Byte} {vs : List Nat} {used : Nat} : gvItemDec bs = .ok (vs, used) ↔
    ∃ c body, bs = c :: body ∧ (selectorLengths c.toNat).sum ≤ body.length ∧
      vs = slotValues (selectorLengths c.toNat) body ∧ used = 1 + (selectorLengths c.toNat).sum := by
  cases bs with
  | nil => simp [gvItemDec]
  | cons c body =>
    rw [gvItemDec_cons]
    split_ifs with hshort
    · refine iff_of_false (fun h => nomatch h) ?_
      rintro ⟨c', body', heq, hlen, -⟩
      obtain ⟨rfl, rfl⟩ := List.cons_eq_cons.mp heq
      omega
    · constructor
      · intro h
        obtain ⟨rfl, rfl⟩ := Prod.mk.inj (Except.ok.inj h)
        exact ⟨c, body, rfl, Nat.not_lt.mp hshort, rfl, rfl⟩
      · rintro ⟨c', body', heq, -, rfl, rfl⟩
        obtain ⟨rfl, rfl⟩ := List.cons_eq_cons.mp heq
        rfl

theorem selectorLengths_le (c : Nat) : ∀ l ∈ selectorLengths c, l ≤ 4 := by
  simp only [selectorLengths, List.forall_mem_cons, List.not_mem_nil, false_implies, implies_true, and_true]
  omega

theorem gvItemDec_gives : ValueDecoder.Gives gvItemDec 4 where
  error {bs e} he := by
    cases bs with
    | nil => exact (Except.error.inj he).symm
    | cons c body =>
      rw [gvItemDec_cons] at he
      split_ifs at he
      exact (Except.error.inj he).symm
  count hok := by
    obtain ⟨c, body, rfl, -, rfl, -⟩ := gvItemDec_eq_ok_iff.mp hok
    exact length_slotValues _ _
  below hok := by
    obtain ⟨c, body, rfl, -, rfl, -⟩ := gvItemDec_eq_ok_iff.mp hok
    exact allBelow_slotValues (b := 4) body (selectorLengths_le _)
  within hok := by
    obtain ⟨c, body, rfl, hlen, -, rfl⟩ := gvItemDec_eq_ok_iff.mp hok
    rw [List.length_cons]
    omega
  extend more hok := by
    obtain ⟨c, body, rfl, hlen, rfl, rfl⟩ := gvItemDec_eq_ok_iff.mp hok
    refine gvItemDec_eq_ok_iff.mpr ⟨c, body ++ more, rfl, ?_, (slotValues_append more hlen).symm, rfl⟩
    rw [List.length_append]
    omega

/-! ### Tail varints and whole streams (R98, R156) -/

/-- `VarintDec` as a decoder of one value. -/
def varintItemDec : ValueDecoder := fun bs => (varintDec bs).map fun r => ([r.1], r.2)

theorem varintItemDec_eq_ok_iff {bs : List Byte} {vs : List Nat} {used : Nat} :
    varintItemDec bs = .ok (vs, used) ↔ ∃ v, vs = [v] ∧ varintDec bs = .ok (v, used) := by
  unfold varintItemDec
  cases varintDec bs with
  | error e => simp [Except.map]
  | ok r => simp [Except.map, Prod.ext_iff, eq_comm]

theorem varintDecFrom_append {fuel j acc : Nat} {bs : List Byte} {r : Nat × Nat} (more : List Byte)
    (h : varintDecFrom fuel j acc bs = .ok r) : varintDecFrom fuel j acc (bs ++ more) = .ok r := by
  induction fuel generalizing j acc bs with
  | zero => exact absurd h (fun h => nomatch h)
  | succ fuel ih =>
    cases bs with
    | nil => exact absurd h (fun h => nomatch h)
    | cons c bs =>
      simp only [varintDecFrom, List.cons_append] at h ⊢
      split_ifs at h ⊢
      · exact h
      · exact ih h

theorem varintItemDec_gives : varintItemDec.Gives 1 where
  error {bs e} he := by
    unfold varintItemDec at he
    cases hdec : varintDec bs with
    | error e' =>
      rw [hdec] at he
      exact (Except.error.inj he).symm.trans (varintDecFrom_error hdec)
    | ok r => simp [hdec, Except.map] at he
  count hok := by
    obtain ⟨v, rfl, -⟩ := varintItemDec_eq_ok_iff.mp hok
    rfl
  below hok := by
    obtain ⟨v, rfl, hdec⟩ := varintItemDec_eq_ok_iff.mp hok
    obtain ⟨-, -, -, hfits⟩ := (varintDec_eq_ok_iff _ _ _).mp hdec
    exact List.forall_mem_singleton.mpr hfits
  within hok := by
    obtain ⟨v, rfl, hdec⟩ := varintItemDec_eq_ok_iff.mp hok
    exact ((varintDec_eq_ok_iff _ _ _).mp hdec).2.1.present
  extend more hok := by
    obtain ⟨v, rfl, hdec⟩ := varintItemDec_eq_ok_iff.mp hok
    exact varintItemDec_eq_ok_iff.mpr ⟨v, rfl, varintDecFrom_append more hdec⟩

theorem gvDecGroups_succ (g : Nat) : gvDecGroups (g + 1) = ValueDecoder.followedBy gvItemDec (gvDecGroups g) := rfl

theorem gvDecTail_succ (t : Nat) : gvDecTail (t + 1) = varintItemDec.followedBy (gvDecTail t) := by
  funext bs
  simp only [gvDecTail, ValueDecoder.followedBy, varintItemDec]
  cases varintDec bs <;> rfl

theorem gvDec_eq_followedBy (bs : List Byte) (n : Nat) :
    gvDec bs n = ValueDecoder.followedBy (gvDecGroups (n / 4)) (gvDecTail (n % 4)) bs := rfl

theorem gvDecGroups_gives (g : Nat) : ValueDecoder.Gives (gvDecGroups g) (4 * g) := by
  induction g with
  | zero => exact ValueDecoder.gives_zero
  | succ g ih =>
    rw [gvDecGroups_succ, Nat.mul_succ, Nat.add_comm]
    exact gvItemDec_gives.followedBy ih

theorem gvDecTail_gives (t : Nat) : ValueDecoder.Gives (gvDecTail t) t := by
  induction t with
  | zero => exact ValueDecoder.gives_zero
  | succ t ih =>
    rw [gvDecTail_succ, Nat.add_comm]
    exact varintItemDec_gives.followedBy ih

theorem gvDec_gives (n : Nat) : ValueDecoder.Gives (gvDec · n) n := by
  have h := (gvDecGroups_gives (n / 4)).followedBy (gvDecTail_gives (n % 4))
  rwa [Nat.div_add_mod] at h

/-! ### Round trip and sizes (R160, R161) -/

/-- Settles O34. -/
theorem groupVarintRoundTrip : Obligations.GroupVarintRoundTrip := fun _ more => gvDec_gvEnc more

theorem length_varintEncFrom (fuel v : Nat) :
    1 ≤ (varintEncFrom fuel v).length ∧ (varintEncFrom fuel v).length ≤ fuel + 1 := by
  induction fuel generalizing v with
  | zero => exact ⟨le_rfl, le_rfl⟩
  | succ fuel ih =>
    unfold varintEncFrom
    split_ifs
    · simp
    · have := ih (v / 128)
      rw [List.length_cons]
      omega

theorem length_varintEnc (v : Nat) : 1 ≤ (varintEnc v).length ∧ (varintEnc v).length ≤ 5 := length_varintEncFrom 4 v

theorem gvItemEnc_length_bounds (v0 v1 v2 v3 : Nat) :
    5 ≤ (gvItemEnc v0 v1 v2 v3).length ∧ (gvItemEnc v0 v1 v2 v3).length ≤ 17 := by
  have hlen : ∀ v, 1 ≤ byteLen v ∧ byteLen v ≤ 4 := fun v => ⟨one_le_byteLen v, byteLen_le v⟩
  have := hlen v0
  have := hlen v1
  have := hlen v2
  have := hlen v3
  rw [length_gvItemEnc]
  omega

theorem length_flatMap_varintEnc (vs : List Nat) :
    vs.length ≤ (vs.flatMap varintEnc).length ∧ (vs.flatMap varintEnc).length ≤ 5 * vs.length := by
  induction vs with
  | nil => simp
  | cons v vs ih =>
    have := length_varintEnc v
    rw [List.flatMap_cons, List.length_append, List.length_cons]
    omega

/-- A stream takes one to five bytes a value. -/
theorem length_gvEnc (vs : List Nat) : vs.length ≤ (gvEnc vs).length ∧ (gvEnc vs).length ≤ 5 * vs.length := by
  induction vs using gvEnc.induct with
  | case1 v0 v1 v2 v3 rest ih =>
    have := gvItemEnc_length_bounds v0 v1 v2 v3
    rw [gvEnc, List.length_append]
    simp only [List.length_cons]
    omega
  | case2 tail hshort =>
    rw [gvEnc]
    · exact length_flatMap_varintEnc tail
    · exact hshort

/-- Settles O36. -/
theorem groupVarintSizes : Obligations.GroupVarintSizes := by
  refine ⟨fun v0 v1 v2 v3 => ⟨?_, gvItemEnc_length_bounds v0 v1 v2 v3⟩, length_varintEnc, fun vs => (length_gvEnc vs).2⟩
  rw [length_gvItemEnc]
  omega

/-! ### Streams that do not decode (R98, R156) -/

/-- A decoder that gives back a whole byte string fails on the string cut short. -/
theorem ValueDecoder.Gives.error_of_take {dec : ValueDecoder} {n k : Nat} {bs : List Byte} {vs : List Nat}
    (h : dec.Gives n) (hbs : dec bs = .ok (vs, bs.length)) (hk : k < bs.length) :
    dec (bs.take k) = .error .corrupt := by
  cases hcut : dec (bs.take k) with
  | error e => rw [h.error hcut]
  | ok r =>
    have hwhole := h.extend (bs.drop k) hcut
    rw [List.take_append_drop, hbs] at hwhole
    have hused := h.within hcut
    obtain ⟨-, hlen⟩ := Prod.mk.inj (Except.ok.inj hwhole)
    rw [← hlen, List.length_take] at hused
    omega

/-- A group in front takes its four values off the count. -/
theorem gvDec_gvItemEnc_error {v0 v1 v2 v3 n : Nat} {bs : List Byte} {e : ErrCode} (h : AllBelow 32 [v0, v1, v2, v3])
    (hbs : gvDec bs n = .error e) : gvDec (gvItemEnc v0 v1 v2 v3 ++ bs) (n + 4) = .error .corrupt := by
  cases hall : gvDec (gvItemEnc v0 v1 v2 v3 ++ bs) (n + 4) with
  | error e' => rw [(gvDec_gives _).error hall]
  | ok r =>
    rw [gvDec_eq_followedBy, show (n + 4) / 4 = n / 4 + 1 by omega, show (n + 4) % 4 = n % 4 by omega,
      gvDecGroups_succ] at hall
    obtain ⟨gs, gused, ts, tused, hgroups, htail, -, -⟩ := ValueDecoder.followedBy_eq_ok_iff.mp hall
    obtain ⟨us, used, ws, more, hgroup, hrest, -, rfl⟩ := ValueDecoder.followedBy_eq_ok_iff.mp hgroups
    rw [gvItemDec_gvItemEnc bs h] at hgroup
    obtain ⟨-, rfl⟩ := Prod.mk.inj (Except.ok.inj hgroup)
    rw [List.drop_left] at hrest
    rw [← List.drop_drop, List.drop_left] at htail
    have hok := ValueDecoder.followedBy_eq_ok_iff.mpr ⟨_, _, _, _, hrest, htail, rfl, rfl⟩
    rw [← gvDec_eq_followedBy, hbs] at hok
    cases hok

/-- Bytes that are no varint, after fewer varints than asked for, end the tail. -/
theorem gvDecTail_varintEnc_error {vs : List Nat} {bad : List Byte} {e : ErrCode} (t : Nat) (h : AllBelow 32 vs)
    (hbad : varintDec bad = .error e) : gvDecTail (vs.length + t + 1) (vs.flatMap varintEnc ++ bad) = .error e := by
  induction vs with
  | nil => simp [gvDecTail, hbad]
  | cons v vs ih =>
    obtain ⟨hv, hvs⟩ := List.forall_mem_cons.mp h
    rw [List.length_cons, Nat.add_right_comm vs.length, gvDecTail]
    simp [varintDec_varintEnc _ hv, ih hvs]

theorem length_lt_four_of_no_group {vs : List Nat}
    (h : ∀ v0 v1 v2 v3 rest, vs = v0 :: v1 :: v2 :: v3 :: rest → False) : vs.length < 4 := by
  match vs, h with
  | [], _ | [_], _ | [_, _], _ | [_, _, _], _ => simp
  | v0 :: v1 :: v2 :: v3 :: rest, h => exact (h v0 v1 v2 v3 rest rfl).elim

/-- Bytes that are no varint, where the tail of a stream goes on, fail `GvDec`. -/
theorem gvDec_gvEnc_error {vs : List Nat} {n : Nat} {bad : List Byte} {e : ErrCode} (h : AllBelow 32 vs)
    (hlen : vs.length < n) (hgroups : vs.length / 4 = n / 4) (hbad : varintDec bad = .error e) :
    gvDec (gvEnc vs ++ bad) n = .error .corrupt := by
  induction vs using gvEnc.induct generalizing n with
  | case1 v0 v1 v2 v3 rest ih =>
    obtain ⟨hgroup, hrest⟩ := List.forall_mem_append (l₁ := [v0, v1, v2, v3]).mp h
    simp only [List.length_cons] at hlen hgroups
    obtain ⟨m, rfl⟩ := Nat.exists_eq_add_of_le' (show 4 ≤ n by omega)
    rw [gvEnc, List.append_assoc]
    exact gvDec_gvItemEnc_error hgroup (ih hrest (by omega) (by omega))
  | case2 tail hshort =>
    have htail := length_lt_four_of_no_group hshort
    obtain ⟨t, rfl⟩ := Nat.exists_eq_add_of_lt hlen
    have herror := gvDecTail_varintEnc_error t h hbad
    rw [gvEnc]
    · rw [gvDec_eq_followedBy, show (tail.length + t + 1) / 4 = 0 by omega, Nat.mod_eq_of_lt (by omega),
        ValueDecoder.followedBy_of_ok (dec := gvDecGroups 0) rfl, List.drop_zero, herror, varintDecFrom_error hbad]
      rfl
    · exact hshort

end Sys2Proof.Machine
end

section
/-! PROOFS, 40_bitpack.md. Where the bits of packed fields lie: words and fields are two cuts of one number. -/

namespace Sys2Proof.Machine

/-- Settles O28. -/
theorem unpackInvertsPack : Obligations.UnpackInvertsPack := fun vs bw _ _ =>
  ⟨unpackBits_packBits vs bw, unpackBits_packBits_of_allBelow⟩

theorem fieldSum_testBit_of_le {bw p : Nat} {vs : List Nat} (hp : vs.length * bw ≤ p) :
    (fieldSum bw vs).testBit p = false :=
  Nat.testBit_lt_two_pow ((fieldSum_lt bw vs).trans_le (Nat.pow_le_pow_right (by decide) hp))

/-- Bit `t` of field `i` in the bit string of the fields (R122). -/
theorem fieldSum_testBit {bw i t : Nat} {vs : List Nat} (hi : i < vs.length) (ht : t < bw) :
    (fieldSum bw vs).testBit (i * bw + t) = (vs.getD i 0).testBit t := by
  have hfield : fieldSum bw vs / 2 ^ (i * bw) % 2 ^ bw = vs.getD i 0 % 2 ^ bw := by
    rw [← cutFields_getD bw _ hi, cutFields_fieldSum]
    simp [hi]
  have hbit := congrArg (Nat.testBit · t) hfield
  simpa [Nat.testBit_mod_two_pow, Nat.testBit_div_two_pow, ht, Nat.add_comm] using hbit

/-- Bit `p` of the bit string is bit `p mod 32` of word `p div 32` (R122, R130). -/
theorem packBits_testBit (vs : List Nat) (bw p : Nat) :
    ((packBits vs bw).getD (p / 32) 0).testBit (p % 32) = (fieldSum bw vs).testBit p := by
  by_cases hword : p / 32 < wordsFor vs.length bw
  · rw [packBits, cutFields_getD _ _ hword, Nat.testBit_mod_two_pow, Nat.testBit_div_two_pow, Nat.mod_add_div']
    simp [Nat.mod_lt]
  · have hpast : vs.length * bw ≤ p :=
      (le_mul_ceilDiv _ (b := 32) (by decide)).trans
        ((Nat.mul_le_mul_left 32 (Nat.not_lt.mp hword)).trans (Nat.mul_div_le p 32))
    rw [fieldSum_testBit_of_le hpast, List.getD_eq_default _ _ (by simpa using hword), Nat.zero_testBit]

theorem packBits_nil (bw : Nat) : packBits [] bw = [] := by
  simp [packBits, wordsFor, ceilDiv, cutFields]

/-- A block of at most 128 fields takes at most 128 words (R127). -/
theorem wordsFor_le {n bw : Nat} (hn : n ≤ 128) (hbw : bw ≤ 32) : wordsFor n bw ≤ 128 :=
  (ceilDiv_le_iff (by decide)).mpr (by nlinarith)

/-- Settles O29: every bit is read off the bit string of the fields. -/
theorem packedBitsLieInOrder : Obligations.PackedBitsLieInOrder := by
  intro vs bw _ hbw
  refine ⟨length_packBits vs bw, fun hnil => hnil ▸ packBits_nil bw, fun hlen => ?_, allBelow_packBits vs bw,
    fun i t hi ht => ?_, fun p hp => ?_⟩
  · exact length_packBits vs bw ▸ wordsFor_le hlen hbw
  · rw [packBits_testBit, fieldSum_testBit hi ht]
  · rw [packBits_testBit, fieldSum_testBit_of_le hp]

end Sys2Proof.Machine
end

section
/-! PROOFS, 42_pfordelta_block.md. What `PfBlockDec` answers, said once for the header, the body and the block, and the
shape of an encoded block. -/

namespace Sys2Proof.Machine

/-! ### The header (R200) -/

/-- The checks of R200 that do not look at the capacity. -/
abbrev HeaderOk (n bw k first : Nat) : Prop :=
  n ≤ 128 ∧ 1 ≤ bw ∧ bw ≤ 32 ∧ k ≤ n ∧ (first ≤ n ∨ first = 128)

/-- The order of the checks shows in one thing only: the capacity is looked at last. -/
theorem headerFailure_eq (n bw k first cap : Nat) :
    headerFailure n bw k first cap =
      if HeaderOk n bw k first then if cap < n then some .capacity else none else some .corrupt := by
  simp only [headerFailure, Config.blockSize, Config.sentinel]
  grind

theorem headerFailure_of_not_ok {n bw k first : Nat} (cap : Nat) (h : ¬HeaderOk n bw k first) :
    headerFailure n bw k first cap = some .corrupt := by
  rw [headerFailure_eq, if_neg h]

theorem headerFailure_of_no_room {n bw k first cap : Nat} (h : HeaderOk n bw k first) (hcap : cap < n) :
    headerFailure n bw k first cap = some .capacity := by
  rw [headerFailure_eq, if_pos h, if_pos hcap]

theorem headerFailure_of_ok {n bw k first cap : Nat} (h : HeaderOk n bw k first) (hcap : n ≤ cap) :
    headerFailure n bw k first cap = none := by
  rw [headerFailure_eq, if_pos h, if_neg (Nat.not_lt.mpr hcap)]

/-! ### The body (R201, R202, R207) -/

/-- The fields of the payload. -/
def payloadFields (n bw : Nat) (body : List Byte) : List Nat :=
  unpackBits (slotValues (List.replicate (wordsFor n bw) 4) body) bw n

theorem unpackBits_slotValues (n bw : Nat) (body : List Byte) :
    unpackBits (slotValues (List.replicate (wordsFor n bw) 4) body) bw n = payloadFields n bw body := rfl

/-- The body holds the values `vs` in its first `used` bytes: the payload is there, the side buffer decodes, the chain
stays in the block, and every value fits the element width. -/
structure BodyHolds (n bw k first : Nat) (body : List Byte) (ew : ElemWidth) (vs : List Nat) (used : Nat) : Prop where
  payload : 4 * wordsFor n bw ≤ body.length
  decoded : ∃ xs side, gvDec (body.drop (4 * wordsFor n bw)) k = .ok (xs, side) ∧
    chainWalk xs first (payloadFields n bw body) = some vs ∧ used = 4 * wordsFor n bw + side
  fits : AllBelow ew.bits vs

theorem blockBodyDec_eq_ok_iff {n bw k first : Nat} {body : List Byte} {ew : ElemWidth} {vs : List Nat} {used : Nat} :
    blockBodyDec n bw k first body ew = .ok (vs, used) ↔ BodyHolds n bw k first body ew vs used := by
  unfold blockBodyDec
  constructor
  · intro h
    simp only at h
    split_ifs at h with hshort
    cases hside : gvDec (body.drop (4 * wordsFor n bw)) k with
    | error e => simp [hside] at h
    | ok r =>
      cases hwalk : chainWalk r.1 first (payloadFields n bw body) with
      | none => simp [hside, unpackBits_slotValues, hwalk] at h
      | some w =>
        simp only [hside, unpackBits_slotValues, hwalk] at h
        split_ifs at h with hall
        obtain ⟨rfl, rfl⟩ := Prod.mk.inj (Except.ok.inj h)
        exact ⟨Nat.not_lt.mp hshort, ⟨_, _, hside, hwalk, rfl⟩, by simpa using hall⟩
  · rintro ⟨hpayload, ⟨xs, side, hside, hwalk, rfl⟩, hfits⟩
    have hall : vs.all (fun v => decide (v < 2 ^ ew.bits)) = true := by simpa using hfits
    simp only [if_neg (Nat.not_lt.mpr hpayload), hside, unpackBits_slotValues, hwalk, hall, if_true]

/-- Every failure of the body is `E_CORRUPT`; past the payload-length check it leaves `n` elements unspecified
(R269). -/
theorem blockBodyDec_error {n bw k first : Nat} {body : List Byte} {ew : ElemWidth} {f : BlockFailure}
    (h : blockBodyDec n bw k first body ew = .error f) :
    f = ⟨.corrupt, if body.length < 4 * wordsFor n bw then 0 else n⟩ := by
  simp only [blockBodyDec] at h
  split_ifs at h ⊢
  · exact (Except.error.inj h).symm
  · split at h
    · next hside => rw [← Except.error.inj h, (gvDec_gives _).error hside]
    · split at h
      · exact (Except.error.inj h).symm
      · split_ifs at h
        exact (Except.error.inj h).symm

theorem chainWalk_length {xs : List Nat} {cur : Nat} {w vs : List Nat} (h : chainWalk xs cur w = some vs) :
    vs.length = w.length := by
  induction xs generalizing cur w with
  | nil => exact congrArg List.length (Option.some.inj h).symm
  | cons x xs ih =>
    rw [chainWalk] at h
    split_ifs at h
    rw [ih h, List.length_set]

@[simp] theorem length_payloadFields (n bw : Nat) (body : List Byte) : (payloadFields n bw body).length = n :=
  length_cutFields _ _ _

section
variable {n bw k first : Nat} {body : List Byte} {ew : ElemWidth} {vs : List Nat} {used : Nat}

theorem BodyHolds.length (h : BodyHolds n bw k first body ew vs used) : vs.length = n := by
  obtain ⟨xs, side, -, hwalk, -⟩ := h.decoded
  rw [chainWalk_length hwalk, length_payloadFields]

theorem BodyHolds.used_le (h : BodyHolds n bw k first body ew vs used) : used ≤ body.length := by
  obtain ⟨xs, side, hside, -, rfl⟩ := h.decoded
  have hpayload := h.payload
  have hwithin := (gvDec_gives k).within hside
  rw [List.length_drop] at hwithin
  omega

/-- The element width plays no part in which values a body holds (R207). -/
theorem BodyHolds.unique {ew' : ElemWidth} {vs' : List Nat} {used' : Nat} (h : BodyHolds n bw k first body ew vs used)
    (h' : BodyHolds n bw k first body ew' vs' used') : vs' = vs := by
  obtain ⟨xs, side, hside, hwalk, -⟩ := h.decoded
  obtain ⟨xs', side', hside', hwalk', -⟩ := h'.decoded
  rw [hside] at hside'
  obtain ⟨rfl, -⟩ := Prod.mk.inj (Except.ok.inj hside')
  rw [hwalk] at hwalk'
  exact (Option.some.inj hwalk').symm

theorem BodyHolds.of_allBelow {ew' : ElemWidth} (h : BodyHolds n bw k first body ew vs used)
    (hfits : AllBelow ew'.bits vs) : BodyHolds n bw k first body ew' vs used := ⟨h.payload, h.decoded, hfits⟩

/-- A body that does not hold values fails. -/
theorem blockBodyDec_of_not_holds (h : ∀ vs used, ¬BodyHolds n bw k first body ew vs used) :
    blockBodyDec n bw k first body ew = .error ⟨.corrupt, if body.length < 4 * wordsFor n bw then 0 else n⟩ := by
  cases hdec : blockBodyDec n bw k first body ew with
  | error f => rw [blockBodyDec_error hdec]
  | ok r => exact absurd (blockBodyDec_eq_ok_iff.mp hdec) (h r.1 r.2)

end

/-! ### The block (R203) -/

section
variable {n bw k first : Byte} {body bs : List Byte} {cap : Nat} {ew : ElemWidth}

theorem pfBlockDec_of_short (cap : Nat) (ew : ElemWidth) (h : bs.length < 4) :
    pfBlockDec bs cap ew = .error ⟨.corrupt, 0⟩ := by
  match bs, h with
  | [], _ | [_], _ | [_, _], _ | [_, _, _], _ => rfl
  | _ :: _ :: _ :: _ :: _, h => simp only [List.length_cons] at h; omega

theorem pfBlockDec_of_header_bad (cap : Nat) (ew : ElemWidth)
    (h : ¬HeaderOk n.toNat bw.toNat k.toNat first.toNat) :
    pfBlockDec (n :: bw :: k :: first :: body) cap ew = .error ⟨.corrupt, 0⟩ := by
  rw [pfBlockDec, headerFailure_of_not_ok cap h]

theorem pfBlockDec_of_no_room (ew : ElemWidth) (h : HeaderOk n.toNat bw.toNat k.toNat first.toNat)
    (hcap : cap < n.toNat) : pfBlockDec (n :: bw :: k :: first :: body) cap ew = .error ⟨.capacity, 0⟩ := by
  rw [pfBlockDec, headerFailure_of_no_room h hcap]

theorem pfBlockDec_of_header_ok (ew : ElemWidth) (h : HeaderOk n.toNat bw.toNat k.toNat first.toNat)
    (hcap : n.toNat ≤ cap) :
    pfBlockDec (n :: bw :: k :: first :: body) cap ew =
      (blockBodyDec n.toNat bw.toNat k.toNat first.toNat body ew).map fun r => (r.1, 4 + r.2) := by
  rw [pfBlockDec, headerFailure_of_ok h hcap]
  cases blockBodyDec n.toNat bw.toNat k.toNat first.toNat body ew <;> rfl

theorem pfBlockDec_of_not_holds (h : HeaderOk n.toNat bw.toNat k.toNat first.toNat) (hcap : n.toNat ≤ cap)
    (hbody : ∀ vs used, ¬BodyHolds n.toNat bw.toNat k.toNat first.toNat body ew vs used) :
    pfBlockDec (n :: bw :: k :: first :: body) cap ew =
      .error ⟨.corrupt, if body.length < 4 * wordsFor n.toNat bw.toNat then 0 else n.toNat⟩ := by
  rw [pfBlockDec_of_header_ok ew h hcap, blockBodyDec_of_not_holds hbody]
  rfl

theorem pfBlockDec_of_holds {vs : List Nat} {used : Nat} (h : HeaderOk n.toNat bw.toNat k.toNat first.toNat)
    (hcap : n.toNat ≤ cap) (hbody : BodyHolds n.toNat bw.toNat k.toNat first.toNat body ew vs used) :
    pfBlockDec (n :: bw :: k :: first :: body) cap ew = .ok (vs, 4 + used) := by
  rw [pfBlockDec_of_header_ok ew h hcap, blockBodyDec_eq_ok_iff.mpr hbody]
  rfl

/-- Four bytes or more are a header and a body. -/
theorem exists_header_of_four_le (h : 4 ≤ bs.length) : ∃ n bw k first body, bs = n :: bw :: k :: first :: body := by
  match bs, h with
  | n :: bw :: k :: first :: body, _ => exact ⟨n, bw, k, first, body, rfl⟩

/-- What `PfBlockDec` can answer: the four outcomes of R203. -/
theorem pfBlockDec_cases (bs : List Byte) (cap : Nat) (ew : ElemWidth) :
    pfBlockDec bs cap ew = .error ⟨.corrupt, 0⟩ ∨
    ∃ n bw k first body, bs = n :: bw :: k :: first :: body ∧ HeaderOk n.toNat bw.toNat k.toNat first.toNat ∧
      ((cap < n.toNat ∧ pfBlockDec bs cap ew = .error ⟨.capacity, 0⟩) ∨
        (n.toNat ≤ cap ∧ pfBlockDec bs cap ew = .error ⟨.corrupt, n.toNat⟩) ∨
        (n.toNat ≤ cap ∧ ∃ vs used, BodyHolds n.toNat bw.toNat k.toNat first.toNat body ew vs used ∧
          pfBlockDec bs cap ew = .ok (vs, 4 + used))) := by
  by_cases hfour : 4 ≤ bs.length
  · obtain ⟨n, bw, k, first, body, rfl⟩ := exists_header_of_four_le hfour
    by_cases hok : HeaderOk n.toNat bw.toNat k.toNat first.toNat
    · by_cases hcap : n.toNat ≤ cap
      · by_cases hbody : ∃ vs used, BodyHolds n.toNat bw.toNat k.toNat first.toNat body ew vs used
        · obtain ⟨vs, used, hbody⟩ := hbody
          exact .inr ⟨_, _, _, _, _, rfl, hok, .inr (.inr ⟨hcap, vs, used, hbody, pfBlockDec_of_holds hok hcap hbody⟩)⟩
        · have herror := pfBlockDec_of_not_holds hok hcap fun vs used h => hbody ⟨vs, used, h⟩
          split_ifs at herror
          · exact .inl herror
          · exact .inr ⟨_, _, _, _, _, rfl, hok, .inr (.inl ⟨hcap, herror⟩)⟩
      · have hcap : cap < n.toNat := Nat.not_le.mp hcap
        exact .inr ⟨_, _, _, _, _, rfl, hok, .inl ⟨hcap, pfBlockDec_of_no_room ew hok hcap⟩⟩
    · exact .inl (pfBlockDec_of_header_bad cap ew hok)
  · exact .inl (pfBlockDec_of_short cap ew (Nat.not_le.mp hfour))

theorem pfBlockDec_ok {vs : List Nat} {len : Nat} (h : pfBlockDec bs cap ew = .ok (vs, len)) :
    ∃ n bw k first body used, bs = n :: bw :: k :: first :: body ∧ HeaderOk n.toNat bw.toNat k.toNat first.toNat ∧
      n.toNat ≤ cap ∧ BodyHolds n.toNat bw.toNat k.toNat first.toNat body ew vs used ∧ len = 4 + used := by
  obtain herr | ⟨n, bw, k, first, body, rfl, hok, ⟨-, herr⟩ | ⟨-, herr⟩ | ⟨hcap, vs', used, hbody, hdec⟩⟩ :=
    pfBlockDec_cases bs cap ew
  case inr.inr.inr =>
    obtain ⟨rfl, rfl⟩ := Prod.mk.inj (Except.ok.inj (hdec.symm.trans h))
    exact ⟨n, bw, k, first, body, used, rfl, hok, hcap, hbody, rfl⟩
  all_goals exact absurd (herr.symm.trans h) (fun heq => nomatch heq)

/-- The numbers a block that decodes gives: as many values as its first byte says, within the capacity and the element
width, from bytes that are there. -/
theorem pfBlockDec_ok_bounds {vs : List Nat} {len : Nat} (h : pfBlockDec bs cap ew = .ok (vs, len)) :
    vs.length = (bs.getD 0 0).toNat ∧ vs.length ≤ cap ∧ AllBelow ew.bits vs ∧ 4 ≤ len ∧ len ≤ bs.length := by
  obtain ⟨n, bw, k, first, body, used, rfl, -, hcap, hbody, rfl⟩ := pfBlockDec_ok h
  have hused := hbody.used_le
  simp only [List.length_cons]
  exact ⟨hbody.length, hbody.length ▸ hcap, hbody.fits, by omega, by omega⟩

/-- How a block fails: `E_CORRUPT`, or `E_CAPACITY` at the header, which spoils nothing (R200, R269). -/
theorem pfBlockDec_error {f : BlockFailure} (h : pfBlockDec bs cap ew = .error f) :
    (f.code = .corrupt ∨ f = ⟨.capacity, 0⟩) ∧ f.spoiled ≤ cap ∧ f.spoiled ≤ (bs.getD 0 0).toNat := by
  obtain herr | ⟨n, bw, k, first, body, rfl, hok, ⟨-, herr⟩ | ⟨hcap, herr⟩ | ⟨-, vs, used, -, hdec⟩⟩ :=
    pfBlockDec_cases bs cap ew
  · obtain rfl := Except.error.inj (herr.symm.trans h)
    exact ⟨.inl rfl, Nat.zero_le _, Nat.zero_le _⟩
  · obtain rfl := Except.error.inj (herr.symm.trans h)
    exact ⟨.inr rfl, Nat.zero_le _, Nat.zero_le _⟩
  · obtain rfl := Except.error.inj (herr.symm.trans h)
    exact ⟨.inl rfl, hcap, le_rfl⟩
  · exact absurd (hdec.symm.trans h) (fun heq => nomatch heq)

end

/-- Settles O46. -/
theorem blockRoundTrip : Obligations.BlockRoundTrip := fun _ _ more _ _ hlen h hcap =>
  pfBlockDec_pfBlockEnc more hlen h hcap

/-! ### The chain (R205, R206) -/

theorem chainWalk_singleton_set (x cur g : Nat) (w : List Nat) :
    chainWalk [x] cur (w.set cur g) = chainWalk [x] cur w := by
  simp only [chainWalk, List.length_set, List.set_set]

/-- A zero gap keeps the walk at its slot, which then holds the value written as the next gap. -/
theorem chainWalk_zero_gap {x y cur : Nat} {xs w : List Nat} (hcur : cur < w.length) (hgap : w.getD cur 0 = 0) :
    chainWalk (x :: y :: xs) cur w = chainWalk xs (cur + x) (w.set cur y) := by
  rw [chainWalk_cons _ hcur, hgap, Nat.add_zero, chainWalk_cons _ (by simpa using hcur), getD_set_self _ hcur,
    List.set_set]

/-- Without exceptions the body is decoded without `first`. -/
theorem blockBodyDec_no_exceptions (n bw first first' : Nat) (body : List Byte) (ew : ElemWidth) :
    blockBodyDec n bw 0 first body ew = blockBodyDec n bw 0 first' body ew := rfl

/-- With exceptions the walk begins at `first`, so no body is decoded when `first` is no slot. -/
theorem not_bodyHolds_of_le_first {n bw k first : Nat} {body : List Byte} {ew : ElemWidth} (hfirst : n ≤ first)
    (hk : 0 < k) (vs : List Nat) (used : Nat) : ¬BodyHolds n bw k first body ew vs used := by
  intro h
  obtain ⟨xs, side, hside, hwalk, -⟩ := h.decoded
  cases xs with
  | nil => exact hk.ne ((gvDec_gives k).count hside)
  | cons x xs =>
    rw [chainWalk, if_pos (by rwa [length_payloadFields])] at hwalk
    cases hwalk

/-- Settles O51: two steps of the walk, its last step, and the part `first` plays in the header and the body. -/
theorem chainEndsByCount : Obligations.ChainEndsByCount := by
  refine ⟨fun x y xs cur w => chainWalk_zero_gap, chainWalk_singleton_set, fun n bw first first' body cap ew h h' => ?_,
    fun n bw k first body cap ew hfirst hk hcap => ?_⟩
  · by_cases hrest : n.toNat ≤ 128 ∧ 1 ≤ bw.toNat ∧ bw.toNat ≤ 32
    · obtain ⟨hn, hbw, hbw'⟩ := hrest
      have hok : HeaderOk n.toNat bw.toNat (0 : Byte).toNat first.toNat := ⟨hn, hbw, hbw', Nat.zero_le _, h⟩
      have hok' : HeaderOk n.toNat bw.toNat (0 : Byte).toNat first'.toNat := ⟨hn, hbw, hbw', Nat.zero_le _, h'⟩
      by_cases hcap : n.toNat ≤ cap
      · rw [pfBlockDec_of_header_ok ew hok hcap, pfBlockDec_of_header_ok ew hok' hcap]
        exact congrArg _ (blockBodyDec_no_exceptions _ _ _ _ _ _)
      · rw [pfBlockDec_of_no_room ew hok (Nat.not_le.mp hcap), pfBlockDec_of_no_room ew hok' (Nat.not_le.mp hcap)]
    · rw [pfBlockDec_of_header_bad cap ew (by omega), pfBlockDec_of_header_bad cap ew (by omega)]
  · by_cases hok : HeaderOk n.toNat bw.toNat k.toNat first.toNat
    · exact ⟨_, pfBlockDec_of_not_holds hok hcap (not_bodyHolds_of_le_first hfirst hk)⟩
    · exact ⟨0, pfBlockDec_of_header_bad cap ew hok⟩

/-! ### The element width (R207, R299) -/

/-- Settles O52: which values a body holds does not depend on the element width; whether they fit does. -/
theorem decodeWidthOnlyLimitsTheValues : Obligations.DecodeWidthOnlyLimitsTheValues := by
  refine ⟨fun bs cap ew vs len h => ⟨fun hfits => ?_, fun hwide => ?_⟩, fun bs cap ew vs len h => ?_⟩
  · obtain ⟨n, bw, k, first, body, used, rfl, hok, hcap, hbody, rfl⟩ := pfBlockDec_ok h
    exact pfBlockDec_of_holds hok hcap (hbody.of_allBelow hfits)
  · obtain ⟨n, bw, k, first, body, used, rfl, hok, hcap, hbody, rfl⟩ := pfBlockDec_ok h
    rw [pfBlockDec_of_not_holds hok hcap fun vs' used' h' => hwide (hbody.unique h' ▸ h'.fits),
      if_neg (Nat.not_lt.mpr hbody.payload), hbody.length]
  · obtain ⟨n, bw, k, first, body, used, rfl, hok, hcap, hbody, rfl⟩ := pfBlockDec_ok h
    exact ⟨hbody.fits, pfBlockDec_of_holds hok hcap (hbody.of_allBelow (hbody.fits.mono (elemWidth_bits_le ew)))⟩

/-! ### The shape of an encoded block (R94, R195, R197) -/

theorem maxNumOf_eq {b : Nat} (h : b ≤ 32) : maxNumOf b = 2 ^ b - 1 := by
  unfold maxNumOf
  split_ifs with hlt
  · rfl
  · rw [show b = 32 by omega]
    rfl

theorem maxNumOf_lt_iff {b v : Nat} (h : b ≤ 32) : maxNumOf b < v ↔ 2 ^ b ≤ v := by
  have := Nat.two_pow_pos b
  rw [maxNumOf_eq h]
  omega

theorem le_highBitIdx {b v : Nat} (h : 2 ^ b - 1 ≤ v) : b ≤ highBitIdx v := by
  have hlt := lt_pow_highBitIdx v
  exact (Nat.pow_le_pow_iff_right (by decide)).mp (show 2 ^ b ≤ 2 ^ highBitIdx v by omega)

theorem map_getD_range (vs : List Nat) : (List.range vs.length).map (fun i => vs.getD i 0) = vs :=
  List.ext_getElem (by simp) fun i _ hi => by simp [hi]

theorem length_exceptionIndices (vs : List Nat) (maxNum : Nat) :
    (exceptionIndices vs maxNum).length = vs.countP (fun v => decide (maxNum < v)) := by
  conv_rhs => rw [← map_getD_range vs]
  rw [exceptionIndices, ← List.countP_eq_length_filter, List.countP_map]
  rfl

/-- No index before the first exception is one: the indices rise. -/
theorem not_mem_of_lt_headD {e : List Nat} {i d : Nat} (hrise : e.Pairwise (· < ·)) (hi : i < e.headD d) : i ∉ e := by
  cases e with
  | nil => exact List.not_mem_nil
  | cons j e =>
    intro hmem
    obtain rfl | hmem := List.mem_cons.mp hmem
    · exact lt_irrefl _ hi
    · exact hi.not_gt ((List.pairwise_cons.mp hrise).1 i hmem)

section
variable {vs : List Nat}

theorem mem_blockExceptions {i : Nat} (hb : maxBitNum vs ≤ 32) :
    i ∈ blockExceptions vs ↔ i < vs.length ∧ 2 ^ maxBitNum vs ≤ vs.getD i 0 := by
  rw [blockExceptions, mem_exceptionIndices, maxNumOf_lt_iff hb]

theorem length_blockExceptions (hb : maxBitNum vs ≤ 32) :
    (blockExceptions vs).length = vs.countP (fun v => decide (2 ^ maxBitNum vs ≤ v)) := by
  simp only [blockExceptions, length_exceptionIndices, maxNumOf_lt_iff hb]

/-- At most one value in ten is an exception: nine in ten fit the width (R190). -/
theorem length_blockExceptions_le (hlen : vs.length ≤ 128) (h : AllBelow 32 vs) :
    (blockExceptions vs).length ≤ vs.length / 10 := by
  obtain ⟨-, hb, hnine, -⟩ := maxBitNumIsTheSmallestWidth vs hlen h
  have hsplit := List.length_eq_countP_add_countP (fun v => decide (v < 2 ^ maxBitNum vs)) (l := vs)
  simp only [decide_eq_true_eq, Nat.not_lt] at hsplit
  rw [length_blockExceptions hb]
  omega

/-- The width of a block is the least one that all its values fit, or less. -/
theorem maxBitNum_le {b : Nat} (hlen : vs.length ≤ 128) (hb : 1 ≤ b) (hb' : b ≤ 32) (h : AllBelow b vs) :
    maxBitNum vs ≤ b := by
  obtain ⟨-, -, -, -, hsmallest, -⟩ := maxBitNumIsTheSmallestWidth vs hlen (h.mono hb')
  by_contra hlt
  have hcount : vs.countP (fun v => decide (v < 2 ^ b)) = vs.length :=
    List.countP_eq_length.mpr fun v hv => decide_eq_true (h v hv)
  have := hsmallest b hb (Nat.not_le.mp hlt)
  omega

theorem maxBitNum_le_blockWidth (hb : maxBitNum vs ≤ 32) : maxBitNum vs ≤ blockWidth vs :=
  le_highBitIdx (maxNumOf_eq hb ▸ le_max_right _ _)

/-- Gaps of a block take at most 7 bits. -/
theorem blockWidth_le_max (hlen : vs.length ≤ 128) (hpos : 1 ≤ maxBitNum vs) (hb : maxBitNum vs ≤ 32) :
    blockWidth vs ≤ max (maxBitNum vs) 7 := by
  have hgap : maxOf (chainGaps (blockExceptions vs)) ≤ 127 :=
    maxOf_le_iff.mpr (chainGaps_le fun i hi => by have := ((mem_blockExceptions hb).mp hi).1; omega)
  have hnum : maxNumOf (maxBitNum vs) < 2 ^ maxBitNum vs := by
    have := Nat.two_pow_pos (maxBitNum vs)
    rw [maxNumOf_eq hb]
    omega
  refine highBitIdx_le (hpos.trans (le_max_left _ _)) (max_lt (lt_of_le_of_lt hgap ?_) (hnum.trans_le ?_))
  · exact (by decide : 127 < 2 ^ 7).trans_le (Nat.pow_le_pow_right (by decide) (le_max_right _ _))
  · exact Nat.pow_le_pow_right (by decide) (le_max_left _ _)

theorem blockWidth_of_no_exceptions (hpos : 1 ≤ maxBitNum vs) (hb : maxBitNum vs ≤ 32) (h : blockExceptions vs = []) :
    blockWidth vs = maxBitNum vs := by
  refine le_antisymm (highBitIdx_le hpos ?_) (maxBitNum_le_blockWidth hb)
  have := Nat.two_pow_pos (maxBitNum vs)
  rw [h, maxNumOf_eq hb]
  exact max_lt this (by omega)

/-- A block of at most 128 values takes at most 576 bytes (R197, R295). -/
theorem length_pfBlockEnc_le (hlen : vs.length ≤ 128) (h : AllBelow 32 vs) : (pfBlockEnc vs).length ≤ 576 := by
  have hwords := wordsFor_le hlen (blockWidth_le (hlen.trans (by decide)))
  have hside := (length_gvEnc (exceptionValues vs)).2
  have hk := length_blockExceptions_le hlen h
  rw [← blockSide_eq, length_exceptionValues] at hside
  rw [length_pfBlockEnc]
  omega

end

/-- Settles O45: the header bytes hold the count, the width, the number of exceptions and the first of them. -/
theorem encodedBlockHasItsShape : Obligations.EncodedBlockHasItsShape := by
  intro vs ew n b0 bw k first hew hew' hvs hpos hlen hb0 hn hbw hk hfirst
  obtain ⟨hlow, hhigh, -⟩ := maxBitNumIsTheSmallestWidth vs hlen (hvs.mono hew')
  have htenth := length_blockExceptions_le hlen (hvs.mono hew')
  have hwide := blockWidth_le_max hlen hlow hhigh
  have hfirst128 := blockExceptions_headD vs
  have hblock := pfBlockEnc_append vs []
  have byte : ∀ x, x ≤ 128 → (BitVec.ofNat 8 x).toNat = x := fun x hx => Nat.mod_eq_of_lt (by omega)
  rw [List.append_nil] at hblock
  rw [hblock] at hn hbw hk hfirst
  simp only [List.getD_cons_zero, List.getD_cons_succ] at hn hbw hk hfirst
  rw [byte _ (by omega)] at hn hbw hk hfirst
  obtain ⟨hside, hside'⟩ := length_gvEnc (exceptionValues vs)
  rw [← blockSide_eq, length_exceptionValues] at hside hside'
  have hsize := length_pfBlockEnc vs
  rw [wordsFor] at hsize
  subst hn hbw hk hfirst hb0
  refine ⟨rfl, maxBitNum_le hlen hew hew' hvs, maxBitNum_le_blockWidth hhigh, hwide, length_blockExceptions hhigh,
    htenth, fun hnone => ?_, fun hsome => ?_, by omega, by omega, length_pfBlockEnc_le hlen (hvs.mono hew')⟩
  · have hnil := List.length_eq_zero_iff.mp hnone
    exact ⟨by rw [hnil]; rfl, blockWidth_of_no_exceptions hlow hhigh hnil⟩
  · have hmem : (blockExceptions vs).headD Config.sentinel ∈ blockExceptions vs := by
      obtain ⟨i, e, he⟩ := List.exists_cons_of_length_pos hsome
      rw [he]
      exact List.mem_cons_self
    obtain ⟨hlt, hbig⟩ := (mem_blockExceptions hhigh).mp hmem
    refine ⟨hlt, hbig, fun i hi => ?_⟩
    by_contra hnot
    exact not_mem_of_lt_headD (exceptionIndices_rising _ _) hi
      ((mem_blockExceptions hhigh).mpr ⟨hi.trans hlt, Nat.not_lt.mp hnot⟩)

end Sys2Proof.Machine
end

section
/-! PROOFS, 43_pfordelta_stream.md. Streams are made and read block by block: what the loop of `PfStreamDec` answers,
round by round, and the loop of R241 against the one check of the model. -/

namespace Sys2Proof.Machine

/-! ### Encoding: windows (R240, R241) -/

/-- Settles O55. -/
theorem streamRoundTrip : Obligations.StreamRoundTrip := fun _ _ _ => pfStreamDec_pfStreamEnc

/-- A window is 128 values (R8, R240). -/
theorem pfWindowsEnc_succ (k : Nat) (vs : List Nat) :
    pfWindowsEnc (k + 1) vs = pfBlockEnc (vs.take 128) ++ pfWindowsEnc k (vs.drop 128) := rfl

/-- The loop of R241 from byte `off` on: the capacity is passed at some block when it is passed at the end. -/
theorem pfcompRounds_eq {cap off : Nat} (k : Nat) (vs : List Nat) (hoff : off ≤ cap) :
    pfcompRounds cap k off vs =
      if off + (pfWindowsEnc k vs).length ≤ cap then some (pfWindowsEnc k vs) else none := by
  induction k generalizing off vs with
  | zero => rw [pfcompRounds, pfWindowsEnc, if_pos (by simpa using hoff)]
  | succ k ih =>
    simp only [pfcompRounds, pfWindowsEnc, List.length_append]
    by_cases hblock : cap < off + (pfBlockEnc (vs.take Config.blockSize)).length
    · rw [if_pos hblock, if_neg (by omega)]
    · rw [if_neg hblock, ih _ (Nat.not_lt.mp hblock), Nat.add_assoc]
      split_ifs <;> rfl

/-- Settles O53. -/
theorem streamThatDoesNotFit : Obligations.StreamThatDoesNotFit := by
  intro vs cap
  rw [pfcompLoop, pfcompRounds_eq _ _ (Nat.zero_le cap), Nat.zero_add]
  rfl

/-- The windows of a list whose length is a multiple of 128 are cut the same way in front of another list. -/
theorem pfWindowsEnc_append {k : Nat} {vs : List Nat} (j : Nat) (ws : List Nat) (h : vs.length = 128 * k) :
    pfWindowsEnc (k + j) (vs ++ ws) = pfWindowsEnc k vs ++ pfWindowsEnc j ws := by
  induction k generalizing vs with
  | zero =>
    obtain rfl := List.length_eq_zero_iff.mp h
    simp [pfWindowsEnc]
  | succ k ih =>
    have hrest := ih (vs := vs.drop 128) (by rw [List.length_drop]; omega)
    rw [Nat.add_right_comm, pfWindowsEnc_succ, pfWindowsEnc_succ, List.take_append_of_le_length (by omega),
      List.drop_append_of_le_length (by omega), hrest, List.append_assoc]

theorem ceilDiv_mul_add (k m : Nat) : ceilDiv (128 * k + m) 128 = k + ceilDiv m 128 := by
  unfold ceilDiv
  omega

/-- Settles O54. -/
theorem streamsConcatenate : Obligations.StreamsConcatenate := by
  intro vs ws ⟨k, hk⟩
  have hwhole : ceilDiv (128 * k) 128 = k := ceilDiv_mul_add k 0
  rw [pfStreamEnc, pfStreamEnc, pfStreamEnc, List.length_append, hk, ceilDiv_mul_add, hwhole,
    pfWindowsEnc_append _ _ hk]

/-- A stream takes at most 576 bytes for each block (R295). -/
theorem length_pfWindowsEnc_le (k : Nat) {vs : List Nat} (h : AllBelow 32 vs) :
    (pfWindowsEnc k vs).length ≤ 576 * k := by
  induction k generalizing vs with
  | zero => exact le_rfl
  | succ k ih =>
    have hblock := length_pfBlockEnc_le (vs := vs.take 128) (List.length_take_le _ _)
      fun v hv => h v (List.mem_of_mem_take hv)
    have hrest := ih (vs := vs.drop 128) fun v hv => h v (List.mem_of_mem_drop hv)
    rw [pfWindowsEnc_succ, List.length_append]
    omega

/-! ### Decoding: one round (R242) -/

section
variable {ew : ElemWidth} {bs : List Byte} {cap : Nat}

theorem pfBlocksDec_of_error {f : BlockFailure} (fuel : Nat) (hne : bs ≠ []) (h : pfBlockDec bs cap ew = .error f) :
    pfBlocksDec ew (fuel + 1) bs cap = .error f.code := by
  obtain ⟨b, rest, rfl⟩ := List.exists_cons_of_ne_nil hne
  rw [pfBlocksDec, h]

theorem pfBlocksDec_of_ok {vs : List Nat} {len : Nat} (fuel : Nat) (h : pfBlockDec bs cap ew = .ok (vs, len)) :
    pfBlocksDec ew (fuel + 1) bs cap =
      (pfBlocksDec ew fuel (bs.drop len) (cap - vs.length)).map fun r => (vs ++ r.1, len + r.2) := by
  cases bs with
  | nil => exact absurd h (fun h => nomatch h)
  | cons b rest =>
    simp only [pfBlocksDec, h]
    cases pfBlocksDec ew fuel ((b :: rest).drop len) (cap - vs.length) <;> rfl

/-- A stream that decodes gives values within the capacity and the element width, from all its bytes. -/
theorem pfBlocksDec_ok {fuel used : Nat} {vs : List Nat} (h : pfBlocksDec ew fuel bs cap = .ok (vs, used)) :
    vs.length ≤ cap ∧ AllBelow ew.bits vs ∧ used = bs.length := by
  induction fuel generalizing bs cap vs used with
  | zero =>
    cases bs with
    | nil =>
      obtain ⟨rfl, rfl⟩ := Prod.mk.inj (Except.ok.inj h)
      exact ⟨Nat.zero_le _, allBelow_nil _, rfl⟩
    | cons b rest => exact absurd h (fun h => nomatch h)
  | succ fuel ih =>
    by_cases hnil : bs = []
    · rw [hnil, pfBlocksDec_nil] at h
      obtain ⟨rfl, rfl⟩ := Prod.mk.inj (Except.ok.inj h)
      exact ⟨Nat.zero_le _, allBelow_nil _, hnil ▸ rfl⟩
    · cases hblock : pfBlockDec bs cap ew with
      | error f =>
        rw [pfBlocksDec_of_error fuel hnil hblock] at h
        cases h
      | ok r =>
        obtain ⟨-, hroom, hbelow, -, hlen⟩ := pfBlockDec_ok_bounds hblock
        rw [pfBlocksDec_of_ok fuel hblock] at h
        cases hrest : pfBlocksDec ew fuel (bs.drop r.2) (cap - r.1.length) with
        | error e =>
          rw [hrest] at h
          cases h
        | ok r' =>
          rw [hrest] at h
          obtain ⟨rfl, rfl⟩ := Prod.mk.inj (Except.ok.inj h)
          obtain ⟨hroom', hbelow', hused⟩ := ih hrest
          rw [List.length_drop] at hused
          rw [List.length_append]
          exact ⟨by omega, List.forall_mem_append.mpr ⟨hbelow, hbelow'⟩, by omega⟩

theorem pfBlocksDec_error {fuel : Nat} {e : ErrCode} (h : pfBlocksDec ew fuel bs cap = .error e) :
    e = .capacity ∨ e = .corrupt := by
  induction fuel generalizing bs cap with
  | zero =>
    cases bs with
    | nil => exact absurd h (fun h => nomatch h)
    | cons b rest => exact .inr (Except.error.inj h).symm
  | succ fuel ih =>
    by_cases hnil : bs = []
    · rw [hnil, pfBlocksDec_nil] at h
      cases h
    · cases hblock : pfBlockDec bs cap ew with
      | error f =>
        rw [pfBlocksDec_of_error fuel hnil hblock] at h
        obtain rfl := Except.error.inj h
        obtain ⟨hcode | rfl, -⟩ := pfBlockDec_error hblock
        · exact .inr hcode
        · exact .inl rfl
      | ok r =>
        rw [pfBlocksDec_of_ok fuel hblock] at h
        cases hrest : pfBlocksDec ew fuel (bs.drop r.2) (cap - r.1.length) with
        | error e' =>
          rw [hrest] at h
          obtain rfl := Except.error.inj h
          exact ih hrest
        | ok r' =>
          rw [hrest] at h
          cases h

end

/-! ### Decoding: where a stream fails (R242, R244) -/

/-- A block of more values than there is room for is `E_CAPACITY` at its header. -/
theorem pfBlockDec_pfBlockEnc_no_room {vs : List Nat} {cap : Nat} (ew : ElemWidth) (more : List Byte)
    (hlen : vs.length ≤ 128) (hcap : cap < vs.length) :
    pfBlockDec (pfBlockEnc vs ++ more) cap ew = .error ⟨.capacity, 0⟩ := by
  have hbw : blockWidth vs ≤ 32 := blockWidth_le (by omega)
  have hk : (blockExceptions vs).length ≤ vs.length := length_exceptionIndices_le _ _
  have hfirst := blockExceptions_headD vs
  have byte : ∀ x, x ≤ 128 → (BitVec.ofNat 8 x).toNat = x := fun x hx => Nat.mod_eq_of_lt (by omega)
  have hok : HeaderOk vs.length (blockWidth vs) (blockExceptions vs).length
      ((blockExceptions vs).headD Config.sentinel) :=
    ⟨hlen, one_le_blockWidth vs, hbw, hk, by omega⟩
  rw [← byte vs.length hlen, ← byte (blockWidth vs) (by omega), ← byte (blockExceptions vs).length (by omega),
    ← byte ((blockExceptions vs).headD Config.sentinel) (by omega)] at hok
  rw [pfBlockEnc_append]
  refine pfBlockDec_of_no_room ew hok ?_
  rwa [byte _ hlen]

/-- More values than the capacity: some block of the stream finds no room. -/
theorem pfBlocksDec_pfWindowsEnc_no_room {ew : ElemWidth} {k : Nat} {vs : List Nat} {cap : Nat} (fuel : Nat)
    (bs : List Byte) (hk : ceilDiv vs.length 128 = k) (h : AllBelow ew.bits vs) (hcap : cap < vs.length) :
    pfBlocksDec ew (fuel + k) (pfWindowsEnc k vs ++ bs) cap = .error .capacity := by
  induction k generalizing vs cap with
  | zero =>
    unfold ceilDiv at hk
    omega
  | succ k ih =>
    have htake : (vs.take 128).length ≤ 128 := List.length_take_le _ _
    have hsum : (vs.take 128).length + (vs.drop 128).length = vs.length := by
      rw [← List.length_append, List.take_append_drop]
    rw [pfWindowsEnc_succ, List.append_assoc, ← Nat.add_assoc]
    by_cases hroom : (vs.take 128).length ≤ cap
    · have hrest := ih (vs := vs.drop 128) (cap := cap - (vs.take 128).length)
        (by rw [List.length_drop]; unfold ceilDiv at hk ⊢; omega) (fun v hv => h v (List.mem_of_mem_drop hv)) (by omega)
      rw [pfBlocksDec_pfBlockEnc _ _ htake (fun v hv => h v (List.mem_of_mem_take hv)) hroom, hrest]
      rfl
    · have hblock := pfBlockDec_pfBlockEnc_no_room ew (pfWindowsEnc k (vs.drop 128) ++ bs) htake (Nat.not_le.mp hroom)
      refine pfBlocksDec_of_error _ (fun hnil => ?_) hblock
      have := congrArg List.length hnil
      rw [List.length_append, length_pfBlockEnc, List.length_nil] at this
      omega

theorem pfStreamDec_pfStreamEnc_no_room {ew : ElemWidth} {vs : List Nat} {cap : Nat} (more : List Byte)
    (h : AllBelow ew.bits vs) (hcap : cap < vs.length) :
    pfStreamDec (pfStreamEnc vs ++ more) cap ew = .error .capacity := by
  have hfuel := le_length_pfWindowsEnc (ceilDiv vs.length 128) vs
  obtain ⟨fuel, hfuel⟩ := Nat.exists_eq_add_of_le' (hfuel.trans (Nat.le_add_right _ more.length))
  have herror := pfBlocksDec_pfWindowsEnc_no_room fuel more rfl h hcap
  rwa [← hfuel, ← List.length_append] at herror

/-- Bytes after a stream that are no block: the stream fails with the code of that block. -/
theorem pfStreamDec_pfStreamEnc_bad {ew : ElemWidth} {vs : List Nat} {cap : Nat} {bad : List Byte} {f : BlockFailure}
    (h : AllBelow ew.bits vs) (hcap : vs.length ≤ cap) (hne : bad ≠ [])
    (hbad : pfBlockDec bad (cap - vs.length) ew = .error f) :
    pfStreamDec (pfStreamEnc vs ++ bad) cap ew = .error f.code := by
  have hfuel := le_length_pfWindowsEnc (ceilDiv vs.length 128) vs
  have hpos := List.length_pos_of_ne_nil hne
  have hle : ceilDiv vs.length 128 + 1 ≤ (pfWindowsEnc (ceilDiv vs.length 128) vs).length + bad.length := by omega
  obtain ⟨fuel, hfuel⟩ := Nat.exists_eq_add_of_le' hle
  have hdec := pfBlocksDec_pfWindowsEnc (fuel + 1) bad rfl h hcap
  rw [pfBlocksDec_of_error fuel hne hbad, Nat.add_assoc, Nat.add_comm 1, ← hfuel, ← List.length_append] at hdec
  exact hdec

end Sys2Proof.Machine
end

section
/-! PROOFS, 60_exceptions.md. How a command answers, said once for all twelve: its checks first, then its own reply,
which stays within its two regions. From it the causes of `E_PARAM` and the frame of a fault. -/

namespace Sys2Proof.Machine

/-! ### The reply of a command (R266) -/

/-- The own part of each command, once its operands are legal. -/
def ownReply (i : Instr) (s : State) : Reply :=
  match i with
  | .hbi => .done [] (highBitIdx s.arg.toNat) 0
  | .pack ew bw => packReply ew bw s
  | .unpack ew bw => unpackReply ew bw s
  | .gvci => gvciReply s
  | .gvdi => gvdiReply s
  | .gvc => gvcReply s
  | .gvd => gvdReply s
  | .pfbits ew => .done [] (maxBitNum (sourceElems ew.bytes s)) 0
  | .pfenc ew => pfencReply ew s
  | .pfdec ew => pfdecReply ew s
  | .pfcomp ew => pfcompReply ew s
  | .pfdecomp ew => pfdecompReply ew s

theorem legalBitWidth_iff {bw : Nat} : legalBitWidth bw = true ↔ ¬(bw = 0 ∨ 32 < bw) := by
  simp only [legalBitWidth, decide_eq_true_eq]
  omega

theorem legalBitWidth_eq_false {bw : Nat} (h : bw = 0 ∨ 32 < bw) : legalBitWidth bw = false :=
  Bool.eq_false_iff.mpr fun hlegal => legalBitWidth_iff.mp hlegal h

theorem exec_of_param {i : Instr} {s : State} (h : ParamOwnCause i s) : exec i s = .next (s.raise .param) := by
  cases i with
  | pack ew bw => simp [exec, execPack, legalBitWidth_eq_false h]
  | unpack ew bw => simp [exec, execUnpack, legalBitWidth_eq_false h]
  | gvci => exact if_pos h
  | pfbits ew => exact if_pos h
  | pfenc ew => exact if_pos (h.imp_left Nat.lt_one_iff.mpr)
  | hbi | gvdi | gvc | gvd | pfdec | pfcomp | pfdecomp => exact h.elim

theorem exec_of_legal {i : Instr} {s : State} (hown : ¬ParamOwnCause i s) (h : regionsLegal i s = true) :
    exec i s = .next (s.finish (ownReply i s)) := by
  cases i with
  | hbi => rfl
  | pack ew bw => simp [exec, execPack, legalBitWidth_iff.mpr hown, h, ownReply]
  | unpack ew bw => simp [exec, execUnpack, legalBitWidth_iff.mpr hown, h, ownReply]
  | gvci => simp [exec, execGvci, Decidable.not_not.mp hown, h, ownReply]
  | pfbits ew =>
    rw [exec, execPfbits, if_neg hown, h]
    rfl
  | pfenc ew =>
    rw [exec, execPfenc, if_neg (fun hlen => hown (hlen.imp_left Nat.lt_one_iff.mp)), h]
    rfl
  | gvdi => simp [exec, execGvdi, h, ownReply]
  | gvc => simp [exec, execGvc, h, ownReply]
  | gvd => simp [exec, execGvd, h, ownReply]
  | pfdec ew => simp [exec, execPfdec, h, ownReply]
  | pfcomp ew => simp [exec, execPfcomp, h, ownReply]
  | pfdecomp ew => simp [exec, execPfdecomp, h, ownReply]

/-- A command without regions passes the region checks. -/
theorem regionsLegal_hbi (s : State) : regionsLegal .hbi s = true := by
  simp [regionsLegal, passesTop, overlap, sourceBytes, destBytes, sourceUnit, destUnit]

theorem paramCause_iff {i : Instr} {s : State} : ParamCause i s ↔ ParamOwnCause i s ∨ regionsLegal i s = false := by
  rw [ParamCause, ← Bool.not_eq_true, regionsLegal_iff, not_and_or, not_and_or, Classical.not_imp, Classical.not_imp,
    Nat.not_le, Nat.not_le, not_forall_not]

/-- What a command can do: fault entry with `E_PARAM` for a cause of R264, else its own reply. -/
theorem exec_cases (i : Instr) (s : State) :
    (ParamCause i s ∧ exec i s = .next (s.raise .param)) ∨
    (¬ParamOwnCause i s ∧ regionsLegal i s = true ∧ exec i s = .next (s.finish (ownReply i s))) := by
  by_cases hown : ParamOwnCause i s
  · exact .inl ⟨.inl hown, exec_of_param hown⟩
  · cases hlegal : regionsLegal i s with
    | true => exact .inr ⟨hown, rfl, exec_of_legal hown hlegal⟩
    | false =>
      refine .inl ⟨paramCause_iff.mpr (.inr hlegal), exec_of_regions_illegal (fun hi => ?_) hlegal⟩
      rw [hi, regionsLegal_hbi] at hlegal
      cases hlegal

/-! ### The reply stays within the regions (R30, R262, R263, R269) -/

/-- How many bytes from `DST` on an answer touches. -/
def Reply.touched : Reply → Nat
  | .done out _ _ => out.length
  | .fail _ spoiled => spoiled

/-- An answer writes no byte past the destination region, consumes no byte past the source region, and faults, if it
does, with `E_CAPACITY` or `E_CORRUPT`. -/
def ReplyWithin (i : Instr) (s : State) (r : Reply) : Prop :=
  r.touched ≤ destBytes i s ∧
    match r with
    | .done _ _ rcons => rcons ≤ sourceBytes i s
    | .fail e _ => e = .capacity ∨ e = .corrupt

theorem replyWithin_fail_capacity_zero (i : Instr) (s : State) : ReplyWithin i s (.fail .capacity 0) :=
  ⟨Nat.zero_le _, .inl rfl⟩

@[simp] theorem length_sourceStream (s : State) : (sourceStream s).length = s.slen.toNat :=
  Memory.length_readBytes _ _ _

@[simp] theorem length_sourceElems (w : Nat) (s : State) : (sourceElems w s).length = s.slen.toNat :=
  length_loadElems _ _ _ _

theorem replyWithin_streamReply {i : Instr} {s : State} (out : List Byte) (hunit : destUnit i = 1) :
    ReplyWithin i s (streamReply s out) := by
  unfold streamReply
  split_ifs with hroom
  · exact replyWithin_fail_capacity_zero i s
  · refine ⟨?_, Nat.zero_le _⟩
    rw [destBytes, hunit, Nat.mul_one]
    exact Nat.not_lt.mp hroom

theorem replyWithin_packReply (ew : ElemWidth) (bw : Nat) (s : State) :
    ReplyWithin (.pack ew bw) s (packReply ew bw s) := by
  simp only [packReply]
  split_ifs with hroom
  · exact replyWithin_fail_capacity_zero _ s
  · refine ⟨?_, Nat.zero_le _⟩
    rw [Reply.touched, length_elemBytes, length_packBits, length_sourceElems]
    exact Nat.mul_le_mul_right 4 (Nat.not_lt.mp hroom)

theorem replyWithin_unpackReply (ew : ElemWidth) (bw : Nat) (s : State) :
    ReplyWithin (.unpack ew bw) s (unpackReply ew bw s) := by
  simp only [unpackReply]
  split_ifs with hshort hroom
  · exact ⟨Nat.zero_le _, .inr rfl⟩
  · exact replyWithin_fail_capacity_zero _ s
  · refine ⟨?_, ?_⟩
    · rw [Reply.touched, length_elemBytes, unpackBits, length_cutFields]
      exact Nat.mul_le_mul_right _ (Nat.not_lt.mp hroom)
    · rw [Nat.mul_comm]
      exact Nat.mul_le_mul_right 4 (Nat.not_lt.mp hshort)

theorem replyWithin_gvdiReply (s : State) : ReplyWithin .gvdi s (gvdiReply s) := by
  unfold gvdiReply
  split_ifs with hroom
  · exact replyWithin_fail_capacity_zero _ s
  · cases hdec : gvItemDec (sourceStream s) with
    | error e => exact ⟨Nat.zero_le _, .inr (gvItemDec_gives.error hdec)⟩
    | ok r =>
      refine ⟨?_, ?_⟩
      · rw [Reply.touched, length_elemBytes, gvItemDec_gives.count hdec]
        exact Nat.mul_le_mul_right 4 (Nat.not_lt.mp hroom)
      · simpa [sourceBytes, sourceUnit] using gvItemDec_gives.within hdec

theorem replyWithin_gvdReply (s : State) : ReplyWithin .gvd s (gvdReply s) := by
  simp only [gvdReply]
  split_ifs with hroom
  · exact replyWithin_fail_capacity_zero _ s
  · have hfit : s.arg.toNat * 4 ≤ destBytes .gvd s := Nat.mul_le_mul_right 4 (Nat.not_lt.mp hroom)
    cases hdec : gvDec (sourceStream s) s.arg.toNat with
    | error e => exact ⟨(Nat.mul_comm 4 _).trans_le hfit, .inr ((gvDec_gives _).error hdec)⟩
    | ok r =>
      refine ⟨?_, ?_⟩
      · rwa [Reply.touched, length_elemBytes, (gvDec_gives _).count hdec]
      · simpa [sourceBytes, sourceUnit] using (gvDec_gives _).within hdec

theorem replyWithin_pfdecReply (ew : ElemWidth) (s : State) : ReplyWithin (.pfdec ew) s (pfdecReply ew s) := by
  unfold pfdecReply
  cases hdec : pfBlockDec (sourceStream s) s.dcap.toNat ew with
  | error f =>
    obtain ⟨hcode, hroom, -⟩ := pfBlockDec_error hdec
    refine ⟨Nat.mul_le_mul_right _ hroom, ?_⟩
    obtain hcode | rfl := hcode
    · exact .inr hcode
    · exact .inl rfl
  | ok r =>
    obtain ⟨-, hroom, -, -, hlen⟩ := pfBlockDec_ok_bounds hdec
    refine ⟨?_, ?_⟩
    · rw [Reply.touched, length_elemBytes]
      exact Nat.mul_le_mul_right _ hroom
    · simpa [sourceBytes, sourceUnit] using hlen

theorem replyWithin_pfcompReply (ew : ElemWidth) (s : State) : ReplyWithin (.pfcomp ew) s (pfcompReply ew s) := by
  simp only [pfcompReply]
  split_ifs with hroom
  · exact ⟨le_rfl, .inl rfl⟩
  · refine ⟨?_, Nat.zero_le _⟩
    simpa [Reply.touched, destBytes, destUnit] using hroom

theorem replyWithin_pfdecompReply (ew : ElemWidth) (s : State) :
    ReplyWithin (.pfdecomp ew) s (pfdecompReply ew s) := by
  unfold pfdecompReply
  cases hdec : pfStreamDec (sourceStream s) s.dcap.toNat ew with
  | error e => exact ⟨le_rfl, pfBlocksDec_error hdec⟩
  | ok r =>
    obtain ⟨hroom, -, hused⟩ := pfBlocksDec_ok hdec
    refine ⟨?_, ?_⟩
    · rw [Reply.touched, length_elemBytes]
      exact Nat.mul_le_mul_right _ hroom
    · simpa [sourceBytes, sourceUnit] using hused.le

theorem ownReply_within (i : Instr) (s : State) : ReplyWithin i s (ownReply i s) := by
  cases i with
  | hbi => exact ⟨Nat.zero_le _, Nat.zero_le _⟩
  | pack ew bw => exact replyWithin_packReply ew bw s
  | unpack ew bw => exact replyWithin_unpackReply ew bw s
  | gvci => exact replyWithin_streamReply _ rfl
  | gvdi => exact replyWithin_gvdiReply s
  | gvc => exact replyWithin_streamReply _ rfl
  | gvd => exact replyWithin_gvdReply s
  | pfbits ew => exact ⟨Nat.zero_le _, Nat.zero_le _⟩
  | pfenc ew => exact replyWithin_streamReply _ rfl
  | pfdec ew => exact replyWithin_pfdecReply ew s
  | pfcomp ew => exact replyWithin_pfcompReply ew s
  | pfdecomp ew => exact replyWithin_pfdecompReply ew s

/-! ### The state an answer leaves (R267, R269) -/

/-- A byte the answer does not touch reads as before. -/
theorem State.finish_unchangedOutside (s : State) (r : Reply) :
    UnchangedOutside s (s.finish r) s.dst.toNat r.touched := by
  intro a ha
  cases r with
  | done out rcnt rcons => exact (s.finish_done_read out rcnt rcons a).trans (if_neg ha)
  | fail e spoiled => exact s.finish_fail_read_outside e spoiled ha

theorem UnchangedOutside.mono {s t : State} {base len len' : Nat} (h : UnchangedOutside s t base len)
    (hle : len ≤ len') : UnchangedOutside s t base len' := fun a ha => h a (by omega)

theorem State.finish_succeeds (s : State) (out : List Byte) {rcnt rcons : Nat} (hcnt : rcnt < 2 ^ 32)
    (hcons : rcons < 2 ^ 32) : Succeeds s (s.finish (.done out rcnt rcons)) out rcnt rcons := by
  refine ⟨rfl, Nat.mod_eq_of_lt hcnt, Nat.mod_eq_of_lt hcons, s.finish_keepsHostSide _, rfl, fun j hj => ?_,
    s.finish_unchangedOutside _⟩
  rw [State.finish_done_read, if_pos (by omega), Nat.add_sub_cancel_left]

theorem State.finish_endsInFault (s : State) (e : ErrCode) (spoiled : Nat) :
    EndsInFault s (s.finish (.fail e spoiled)) e := ⟨rfl, rfl, rfl, s.finish_keepsHostSide _⟩

/-- An array of elements that fit their width reads back from `DST` on. -/
theorem State.finish_elemsAt (s : State) {w : Nat} {vs : List Nat} (rcnt rcons : Nat) (h : AllBelow (8 * w) vs) :
    ElemsAt (s.finish (.done (elemBytes w vs) rcnt rcons)).mem s.dst.toNat w vs := fun _ hi =>
  readLe_finish_elemBytes h hi

theorem statusFault_inj (e e' : ErrCode) : statusFault e = statusFault e' → e = e' := by
  cases e <;> cases e' <;> decide

theorem statusFault_ne_ok (e : ErrCode) : statusFault e ≠ 0x01 := by cases e <;> decide

/-- A command that succeeded has answered so, on legal operands. -/
theorem exec_success {i : Instr} {s t : State} (h : exec i s = .next t) (hok : t.status = 0x01) :
    ∃ out rcnt rcons, ownReply i s = .done out rcnt rcons ∧ t = s.finish (.done out rcnt rcons) := by
  obtain ⟨-, hexec⟩ | ⟨-, -, hexec⟩ := exec_cases i s
  · rw [hexec] at h
    obtain rfl := Host.Outcome.next.inj h
    exact absurd hok (statusFault_ne_ok _)
  · rw [hexec] at h
    obtain rfl := Host.Outcome.next.inj h
    cases hreply : ownReply i s with
    | done out rcnt rcons => exact ⟨out, rcnt, rcons, rfl, rfl⟩
    | fail e spoiled =>
      rw [hreply] at hok
      exact absurd hok (statusFault_ne_ok _)

/-! ### `E_PARAM` (R264) -/

/-- The reply of a command on legal operands is no `E_PARAM`. -/
theorem finish_ownReply_status_ne (i : Instr) (s : State) : (s.finish (ownReply i s)).status ≠ 0x32 := by
  have hwithin := ownReply_within i s
  cases hreply : ownReply i s with
  | done out rcnt rcons => exact (by decide : statusOk ≠ 0x32)
  | fail e spoiled =>
    rw [hreply] at hwithin
    obtain ⟨-, rfl | rfl⟩ := hwithin
    · exact (by decide : statusFault .capacity ≠ 0x32)
    · exact (by decide : statusFault .corrupt ≠ 0x32)

/-- Settles O20: the causes are those of the checks, and a check that fails is fault entry alone. -/
theorem parameterFaults : Obligations.ParameterFaults := by
  intro i s t h
  obtain ⟨hcause, hexec⟩ | ⟨hown, hlegal, hexec⟩ := exec_cases i s
  · rw [hexec] at h
    obtain rfl := Host.Outcome.next.inj h
    exact ⟨iff_of_true rfl hcause, fun _ => rfl⟩
  · rw [hexec] at h
    obtain rfl := Host.Outcome.next.inj h
    have hstatus := finish_ownReply_status_ne i s
    refine ⟨iff_of_false hstatus fun hcause => ?_, fun heq => absurd heq hstatus⟩
    rw [paramCause_iff, hlegal] at hcause
    exact hcause.elim hown (fun heq => nomatch heq)

end Sys2Proof.Machine
end

section
/-! PROOFS, 10_state.md. The register map, the invariant of every step, and what a command touches, depends on and
consumes: each follows from the one reply a command gives. -/

namespace Sys2Proof.Machine

/-! ### The register map (R21, R31) -/

theorem State.readReg_of_nine_le (s : State) {j : Nat} (h : 9 ≤ j) : s.readReg j = 0 := by
  unfold State.readReg
  split
  case h_10 => rfl
  all_goals omega

theorem State.writeReg_of_six_le (s : State) {i : Nat} (v : Word) (h : 6 ≤ i) : s.writeReg i v = s := by
  obtain ⟨n, rfl⟩ := Nat.exists_eq_add_of_le' h
  rfl

theorem State.readReg_writeReg_same (s : State) {i : Nat} (v : Word) (h : i ≤ 5) : (s.writeReg i v).readReg i = v := by
  interval_cases i <;> rfl

theorem State.readReg_writeReg_other (s : State) {i j : Nat} (v : Word) (h : j ≠ i) :
    (s.writeReg i v).readReg j = s.readReg j := by
  unfold State.writeReg
  split
  case h_7 => rfl
  all_goals
    unfold State.readReg
    split <;> simp_all

theorem State.readReg_writeReg (s : State) (i j : Nat) (v : Word) :
    (s.writeReg i v).readReg j = if j = i ∧ i ≤ 5 then v else s.readReg j := by
  split_ifs with h
  · obtain ⟨rfl, hi⟩ := h
    exact s.readReg_writeReg_same v hi
  · by_cases hj : j = i
    · rw [s.writeReg_of_six_le v (by omega)]
    · exact s.readReg_writeReg_other v hj

/-- Settles O7: a host write is `writeReg`, a host read is `readReg`. -/
theorem hostReachesTheRegisters : Obligations.HostReachesTheRegisters := by
  refine ⟨fun s index v rest hpending hindex => ?_, fun s index rest hpending => ?_⟩
  · exact ⟨_, step_of_operand_write hindex hpending, fun j => s.readReg_writeReg index j v, s.writeReg_mem index v, rfl,
      s.writeReg_readData index v, s.writeReg_drawn index v⟩
  · refine ⟨s.readReg index, step_of_pending hpending, ?_, ?_, ?_, ?_, ?_, ?_, ?_, ?_, ?_, s.readReg_of_nine_le⟩
    all_goals rintro rfl; rfl

/-! ### The invariant (R28 to R30, R50) -/

/-- Settles O10. -/
theorem resetMeetsTheInvariant : Obligations.ResetMeetsTheInvariant :=
  ⟨⟨List.Pairwise.nil, List.forall_mem_nil _⟩, .inl rfl, fun _ => ⟨rfl, rfl⟩⟩

theorem legalStatus_statusFault (e : ErrCode) : LegalStatus (statusFault e) := by cases e <;> decide

/-- An answer that stays inside the address space leaves a state of the invariant. -/
theorem State.finish_inv {s : State} {r : Reply} (hmem : s.mem.wf)
    (hfit : 0 < r.touched → s.dst.toNat + r.touched ≤ Config.memoryBytes) : (s.finish r).Inv := by
  have hstore : ∀ bs : List Byte, bs.length = r.touched → (s.mem.writeBytes s.dst.toNat bs).wf := fun bs hlen =>
    Memory.writeBytes_wf hmem fun hne => hlen ▸ hfit (hlen ▸ List.length_pos_of_ne_nil hne)
  cases r with
  | done out rcnt rcons => exact ⟨hstore out rfl, .inr (.inl rfl), fun hne => absurd rfl hne⟩
  | fail e spoiled => exact ⟨hstore _ (length_freeBytes _ _), legalStatus_statusFault e, fun _ => ⟨rfl, rfl⟩⟩

theorem State.raise_inv {s : State} (e : ErrCode) (hmem : s.mem.wf) : (s.raise e).Inv :=
  State.finish_inv (r := .fail e 0) hmem fun hpos => absurd hpos (lt_irrefl 0)

theorem exec_inv {i : Instr} {s t : State} (hmem : s.mem.wf) (h : exec i s = .next t) : t.Inv := by
  obtain ⟨-, hexec⟩ | ⟨-, hlegal, hexec⟩ := exec_cases i s <;> obtain rfl := Host.Outcome.next.inj (hexec ▸ h)
  · exact State.raise_inv _ hmem
  · obtain ⟨-, hdest, -⟩ := regionsLegal_iff.mp hlegal
    have htouched := (ownReply_within i s).1
    exact State.finish_inv hmem fun hpos =>
      (Nat.add_le_add_left htouched _).trans (hdest (hpos.trans_le htouched))

theorem startCommand_inv {w : Word} {s t : State} (hmem : s.mem.wf) (h : startCommand w s = .next t) : t.Inv := by
  obtain ⟨i, -, hstart⟩ | ⟨-, -, hstart⟩ := startCommand_cases w s
  · exact exec_inv (s := s.writeReg 0 w) hmem (hstart ▸ h)
  · obtain rfl := Host.Outcome.next.inj (hstart ▸ h)
    exact State.raise_inv (s := s.writeReg 0 w) _ hmem

/-- The invariant speaks of four fields. -/
theorem State.Inv.congr {s t : State} (h : s.Inv) (hmem : t.mem.wf) (hstatus : t.status = s.status)
    (hrcnt : t.rcnt = s.rcnt) (hrcons : t.rcons = s.rcons) : t.Inv :=
  have ⟨_, hlegal, hresults⟩ := h
  ⟨hmem, hstatus ▸ hlegal, fun hne => hrcnt ▸ hrcons ▸ hresults (hstatus ▸ hne)⟩

theorem hostAccess_inv {a : HostAccess} {s t : State} (hs : s.Inv) (h : hostAccess a s = .next t) : t.Inv := by
  have hmem : s.mem.wf := hs.1
  obtain ⟨v, -, hstart⟩ | ⟨i, v, -, -, rfl⟩ | ⟨i, -, rfl⟩ | ⟨b, v, -, hb, rfl⟩ | ⟨b, -, -, rfl⟩ | ⟨-, rfl⟩ :=
    hostAccess_cases h
  · exact startCommand_inv hmem hstart
  · exact hs.congr (s.writeReg_mem i v ▸ hmem) (s.writeReg_status i v) (s.writeReg_rcnt i v) (s.writeReg_rcons i v)
  · exact hs.congr hmem rfl rfl rfl
  · exact hs.congr (Memory.write_wf v hmem hb) rfl rfl rfl
  · exact hs.congr hmem rfl rfl rfl
  · exact ⟨hmem, .inl rfl, fun _ => ⟨rfl, rfl⟩⟩

/-- Settles O11: an idle step changes nothing, and no access of the host breaks the invariant. -/
theorem stepKeepsTheInvariant : Obligations.StepKeepsTheInvariant := by
  intro s t hs h
  obtain ⟨-, hstep⟩ | ⟨a, rest, -, hstep⟩ := step_cases s
  · obtain rfl := Host.Outcome.next.inj (hstep ▸ h)
    exact hs
  · exact hostAccess_inv (s := { s with pending := rest }) hs (hstep ▸ h)

/-! ### What a command touches (R60, R269) -/

/-- Settles O13: fault entry touches no byte, and a reply none outside the destination region. -/
theorem onlyTheDestinationChanges : Obligations.OnlyTheDestinationChanges := by
  intro i s t h
  obtain ⟨-, hexec⟩ | ⟨-, -, hexec⟩ := exec_cases i s <;> obtain rfl := Host.Outcome.next.inj (hexec ▸ h)
  · exact fun _ _ => rfl
  · exact (s.finish_unchangedOutside _).mono (ownReply_within i s).1

/-! ### What a command consumes (R30, R32) -/

theorem streamReply_eq_done {s : State} {bs out : List Byte} {rcnt rcons : Nat}
    (h : streamReply s bs = .done out rcnt rcons) :
    out = bs ∧ rcnt = bs.length ∧ rcons = 0 ∧ bs.length ≤ s.dcap.toNat := by
  unfold streamReply at h
  split_ifs at h with hroom
  obtain ⟨rfl, rfl, rfl⟩ := Reply.done.inj h
  exact ⟨rfl, rfl, rfl, Nat.not_lt.mp hroom⟩

theorem streamReply_rcons {s : State} {bs out : List Byte} {rcnt rcons : Nat}
    (h : streamReply s bs = .done out rcnt rcons) : rcons = 0 := by
  obtain ⟨-, -, hzero, -⟩ := streamReply_eq_done h
  exact hzero

/-- An encoder or a width command consumes nothing. -/
theorem ownReply_rcons_zero {i : Instr} {s : State} {out : List Byte} {rcnt rcons : Nat}
    (h : ownReply i s = .done out rcnt rcons)
    (hi : ∃ ew bw, i = .hbi ∨ i = .pack ew bw ∨ i = .gvci ∨ i = .gvc ∨ i = .pfbits ew ∨ i = .pfenc ew ∨
      i = .pfcomp ew) : rcons = 0 := by
  obtain ⟨ew, bw, rfl | rfl | rfl | rfl | rfl | rfl | rfl⟩ := hi
  · cases h
    rfl
  · simp only [ownReply, packReply] at h
    split_ifs at h
    cases h
    rfl
  · exact streamReply_rcons h
  · exact streamReply_rcons h
  · cases h
    rfl
  · exact streamReply_rcons h
  · simp only [ownReply, pfcompReply] at h
    split_ifs at h
    cases h
    rfl

theorem pfdecompReply_eq_done {ew : ElemWidth} {s : State} {out : List Byte} {rcnt rcons : Nat}
    (h : pfdecompReply ew s = .done out rcnt rcons) :
    ∃ vs, pfStreamDec (sourceStream s) s.dcap.toNat ew = .ok (vs, rcons) := by
  unfold pfdecompReply at h
  cases hdec : pfStreamDec (sourceStream s) s.dcap.toNat ew with
  | error e => simp [hdec] at h
  | ok r =>
    rw [hdec] at h
    obtain ⟨rfl, rfl, rfl⟩ := Reply.done.inj h
    exact ⟨r.1, rfl⟩

/-- Settles O15. -/
theorem consumedBytes : Obligations.ConsumedBytes := by
  intro i s t h hok
  obtain ⟨out, rcnt, rcons, hreply, rfl⟩ := exec_success h hok
  rw [State.finish_done_rcons]
  refine ⟨?_, fun ew bw hi => ?_, fun ew hi => ?_⟩
  · have hwithin := ownReply_within i s
    rw [hreply] at hwithin
    exact (Nat.mod_le _ _).trans hwithin.2
  · rw [ownReply_rcons_zero hreply ⟨ew, bw, hi⟩]
    rfl
  · subst hi
    obtain ⟨vs, hdec⟩ := pfdecompReply_eq_done hreply
    obtain ⟨-, -, rfl⟩ := pfBlocksDec_ok hdec
    rw [length_sourceStream, BitVec.ofNat_toNat, BitVec.setWidth_eq]

/-! ### What a command depends on (R25, R35, R268) -/

/-- Two states give a command the same operands: the operand registers, the bytes of its source region, and the count
of free bytes drawn (log 3). -/
structure SameOperands (i : Instr) (s u : State) : Prop where
  dst : u.dst = s.dst
  dcap : u.dcap = s.dcap
  src : u.src = s.src
  slen : u.slen = s.slen
  arg : u.arg = s.arg
  drawn : u.drawn = s.drawn
  source : ∀ a, InSource i s a → u.mem.read a = s.mem.read a

section
variable {i : Instr} {s u : State}

theorem SameOperands.readBytes (h : SameOperands i s u) {base len : Nat} (hlow : s.src.toNat ≤ base)
    (hhigh : base + len ≤ s.src.toNat + sourceBytes i s) : u.mem.readBytes base len = s.mem.readBytes base len :=
  Memory.readBytes_congr fun b hb hb' => h.source b ⟨by omega, by omega⟩

theorem SameOperands.loadElems (h : SameOperands i s u) {w n : Nat} (hlen : n * w ≤ sourceBytes i s) :
    loadElems u.mem w s.src.toNat n = loadElems s.mem w s.src.toNat n := by
  rw [loadElems_eq_slotValues, loadElems_eq_slotValues, h.readBytes le_rfl (by omega)]

theorem SameOperands.sourceElems (h : SameOperands i s u) (w : Nat) (hunit : sourceUnit i = w) :
    sourceElems w u = sourceElems w s := by
  rw [Machine.sourceElems, Machine.sourceElems, h.src, h.slen, h.loadElems (by rw [sourceBytes, hunit])]

theorem SameOperands.sourceStream (h : SameOperands i s u) (hunit : sourceUnit i = 1) :
    sourceStream u = sourceStream s := by
  rw [Machine.sourceStream, Machine.sourceStream, h.src, h.slen,
    h.readBytes le_rfl (by rw [sourceBytes, hunit, Nat.mul_one])]

theorem SameOperands.unpackReply {ew : ElemWidth} {bw : Nat} (h : SameOperands (.unpack ew bw) s u) :
    unpackReply ew bw u = unpackReply ew bw s := by
  simp only [Machine.unpackReply, h.arg, h.slen, h.dcap, h.src]
  split_ifs with hshort
  · rfl
  · rfl
  · rw [h.loadElems (Nat.mul_le_mul_right 4 (Nat.not_lt.mp hshort))]

theorem SameOperands.gvciReply (h : SameOperands .gvci s u) (hlen : s.slen.toNat = 4) : gvciReply u = gvciReply s := by
  have hword : ∀ k, k < 4 → u.mem.readLe (s.src.toNat + 4 * k) 4 = s.mem.readLe (s.src.toNat + 4 * k) 4 := fun k hk =>
    congrArg leValue (h.readBytes (by omega) (by rw [sourceBytes, hlen, sourceUnit]; omega))
  simp only [Machine.gvciReply, streamReply, h.src, h.dcap, hword 0 (by decide), hword 1 (by decide),
    hword 2 (by decide), hword 3 (by decide)]

theorem SameOperands.ownReply (h : SameOperands i s u) (hown : ¬ParamOwnCause i s) : ownReply i u = ownReply i s := by
  cases i with
  | hbi => simp only [Machine.ownReply, h.arg]
  | pack ew bw => simp only [Machine.ownReply, packReply, h.slen, h.dcap, h.sourceElems ew.bytes rfl]
  | unpack ew bw => exact h.unpackReply
  | gvci => exact h.gvciReply (Decidable.not_not.mp hown)
  | gvdi => simp only [Machine.ownReply, gvdiReply, h.dcap, h.sourceStream rfl]
  | gvc => simp only [Machine.ownReply, gvcReply, streamReply, h.dcap, h.sourceElems 4 rfl]
  | gvd => simp only [Machine.ownReply, gvdReply, h.arg, h.dcap, h.sourceStream rfl]
  | pfbits ew => simp only [Machine.ownReply, h.sourceElems ew.bytes rfl]
  | pfenc ew => simp only [Machine.ownReply, pfencReply, streamReply, h.dcap, h.sourceElems ew.bytes rfl]
  | pfdec ew => simp only [Machine.ownReply, pfdecReply, h.dcap, h.sourceStream rfl]
  | pfcomp ew => simp only [Machine.ownReply, pfcompReply, destBytes, h.dcap, h.sourceElems ew.bytes rfl]
  | pfdecomp ew => simp only [Machine.ownReply, pfdecompReply, destBytes, h.dcap, h.sourceStream rfl]

theorem SameOperands.paramOwnCause (h : SameOperands i s u) : ParamOwnCause i u ↔ ParamOwnCause i s := by
  cases i <;> simp only [ParamOwnCause, h.slen]

theorem SameOperands.regionsLegal (h : SameOperands i s u) : regionsLegal i u = regionsLegal i s := by
  simp only [Machine.regionsLegal, sourceBytes, destBytes, h.src, h.slen, h.dst, h.dcap]

/-- A command that gets the same operands gives the same answer. -/
theorem SameOperands.exec (h : SameOperands i s u) :
    ∃ r, exec i s = .next (s.finish r) ∧ exec i u = .next (u.finish r) := by
  obtain ⟨hcause, hexec⟩ | ⟨hown, hlegal, hexec⟩ := exec_cases i s
  · refine ⟨.fail .param 0, hexec, ?_⟩
    obtain ⟨-, hexec'⟩ | ⟨hown', hlegal', -⟩ := exec_cases i u
    · exact hexec'
    · rw [paramCause_iff, ← h.paramOwnCause, ← h.regionsLegal, hlegal'] at hcause
      exact hcause.elim (fun hc => absurd hc hown') (fun hc => nomatch hc)
  · refine ⟨_, hexec, ?_⟩
    rw [exec_of_legal (mt h.paramOwnCause.mp hown) (h.regionsLegal.trans hlegal), h.ownReply hown]

/-- One answer at one `DST`: what is stored is the same, what is kept agrees where it agreed. -/
theorem SameOperands.finish (h : SameOperands i s u) (r : Reply) :
    (u.finish r).status = (s.finish r).status ∧ (u.finish r).rcnt = (s.finish r).rcnt ∧
      (u.finish r).rcons = (s.finish r).rcons ∧ (u.finish r).drawn = (s.finish r).drawn ∧
      ∀ a, u.mem.read a = s.mem.read a → (u.finish r).mem.read a = (s.finish r).mem.read a := by
  cases r with
  | done out rcnt rcons =>
    refine ⟨rfl, rfl, rfl, h.drawn, fun a ha => ?_⟩
    rw [State.finish_done_read, State.finish_done_read, h.dst, ha]
  | fail e spoiled =>
    refine ⟨rfl, rfl, rfl, congrArg (· + spoiled) h.drawn, fun a ha => ?_⟩
    rw [State.finish_fail_mem, State.finish_fail_mem, Memory.read_writeBytes, Memory.read_writeBytes, h.dst, h.drawn,
      ha]

end

/-- Settles O14. -/
theorem onlyOperandsAndSourceMatter : Obligations.OnlyOperandsAndSourceMatter := by
  intro i s u hdst hdcap hsrc hslen harg hdrawn hsource
  have hsame : SameOperands i s u := ⟨hdst, hdcap, hsrc, hslen, harg, hdrawn, hsource⟩
  obtain ⟨r, hexec, hexec'⟩ := hsame.exec
  exact ⟨_, _, hexec, hexec', hsame.finish r⟩

end Sys2Proof.Machine
end

section
/-! PROOFS, 40_bitpack.md. What `HBI`, `PACK` and `UNPACK` leave in the registers and in memory. -/

namespace Sys2Proof.Machine

/-! ### Commands on elements that a statement names -/

/-- Elements that stand in memory are the elements loaded. -/
theorem loadElems_eq_of_elemsAt {m : Memory} {base w : Nat} {vs : List Nat} (h : ElemsAt m base w vs) :
    loadElems m w base vs.length = vs := by
  refine List.ext_getElem (length_loadElems _ _ _ _) fun i hi hi' => ?_
  rw [← List.getD_eq_getElem _ 0 hi, ← List.getD_eq_getElem _ 0 hi', loadElems_getD _ _ _ hi', h i hi']

theorem sourceElems_eq_of_elemsAt {s : State} {w : Nat} {vs : List Nat} (hlen : vs.length = s.slen.toNat)
    (h : ElemsAt s.mem s.src.toNat w vs) : sourceElems w s = vs := by
  rw [sourceElems, ← hlen, loadElems_eq_of_elemsAt h]

/-- A command that answers with bytes and counts that fit a register succeeds. -/
theorem exec_succeeds {i : Instr} {s : State} {out : List Byte} {rcnt rcons : Nat} (hown : ¬ParamOwnCause i s)
    (hlegal : regionsLegal i s = true) (hreply : ownReply i s = .done out rcnt rcons) (hcnt : rcnt < 2 ^ 32)
    (hcons : rcons < 2 ^ 32) :
    exec i s = .next (s.finish (.done out rcnt rcons)) ∧
      Succeeds s (s.finish (.done out rcnt rcons)) out rcnt rcons :=
  ⟨hreply ▸ exec_of_legal hown hlegal, s.finish_succeeds out hcnt hcons⟩

/-! ### `HBI` (R121) -/

/-- Settles O25. -/
theorem hbiReportsTheBitLength : Obligations.HbiReportsTheBitLength := by
  intro s
  have hle : highBitIdx s.arg.toNat ≤ 32 := highBitIdx_le (by decide) s.arg.isLt
  obtain ⟨hexec, hok⟩ := exec_succeeds (i := .hbi) (s := s) not_false (regionsLegal_hbi s) rfl
    (hle.trans_lt (by decide)) (by decide)
  have hmem : (s.finish (.done [] (highBitIdx s.arg.toNat) 0)).mem = s.mem := rfl
  generalize s.finish (.done [] (highBitIdx s.arg.toNat) 0) = t at hexec hok hmem
  have hcnt : t.rcnt.toNat = highBitIdx s.arg.toNat := hok.2.1
  refine ⟨t, hexec, hcnt ▸ hok, hmem, hcnt ▸ one_le_highBitIdx _, hcnt ▸ hle, fun h0 => ?_, fun hne => ?_⟩
  · rw [h0] at hcnt
    exact BitVec.eq_of_toNat_eq hcnt
  · have hne : s.arg.toNat ≠ 0 := fun h0 => hne (BitVec.eq_of_toNat_eq h0)
    exact hcnt ▸ ⟨pow_highBitIdx_sub_one_le hne, lt_pow_highBitIdx _⟩

/-! ### `PACK` (R124) -/

theorem not_paramOwnCause_bitWidth {bw : Nat} (hpos : 1 ≤ bw) (hbw : bw ≤ 32) : ¬(bw = 0 ∨ 32 < bw) := by omega

theorem packReply_of_room {ew : ElemWidth} {bw : Nat} {s : State} (h : ceilDiv (s.slen.toNat * bw) 32 ≤ s.dcap.toNat) :
    packReply ew bw s =
      .done (elemBytes 4 (packBits (sourceElems ew.bytes s) bw)) (ceilDiv (s.slen.toNat * bw) 32) 0 :=
  if_neg (Nat.not_lt.mpr h)

/-- Settles O30. -/
theorem packStoresThePackedWords : Obligations.PackStoresThePackedWords := by
  intro ew bw s vs hpos hbw hlegal hlen helems hroom
  have hvs := sourceElems_eq_of_elemsAt hlen helems
  have hreply := packReply_of_room (ew := ew) (hlen ▸ hroom)
  rw [hvs, ← hlen] at hreply
  obtain ⟨hexec, hok⟩ := exec_succeeds (i := .pack ew bw) (not_paramOwnCause_bitWidth hpos hbw) hlegal hreply
    (hroom.trans_lt s.dcap.isLt) (by decide)
  exact ⟨_, hexec, hok, s.finish_elemsAt _ _ (allBelow_packBits vs bw)⟩

/-! ### `UNPACK` (R125) -/

theorem leBytes_mod (n v : Nat) : leBytes n (v % 256 ^ n) = leBytes n v := by
  have hbytes := leBytes_leValue (leBytes n v)
  rwa [length_leBytes, leValue_leBytes] at hbytes

/-- The bytes of an element array hold the low bits of each value. -/
theorem elemBytes_map_mod (w : Nat) (vs : List Nat) : elemBytes w (vs.map (· % 2 ^ (8 * w))) = elemBytes w vs := by
  have hmod : ∀ v, v % 2 ^ (8 * w) = v % 256 ^ w := fun v => by rw [Nat.pow_mul]
  simp only [elemBytes, List.flatMap_map, hmod, leBytes_mod]

theorem unpackReply_of_room {ew : ElemWidth} {bw : Nat} {s : State}
    (hsrc : ceilDiv (s.arg.toNat * bw) 32 ≤ s.slen.toNat) (hroom : s.arg.toNat ≤ s.dcap.toNat) :
    unpackReply ew bw s =
      .done (elemBytes ew.bytes (unpackBits (loadElems s.mem 4 s.src.toNat (ceilDiv (s.arg.toNat * bw) 32)) bw
        s.arg.toNat)) s.arg.toNat (4 * ceilDiv (s.arg.toNat * bw) 32) :=
  (if_neg (Nat.not_lt.mpr hsrc)).trans (if_neg (Nat.not_lt.mpr hroom))

/-- A source region beside a destination that is not empty is shorter than the address space. -/
theorem sourceBytes_lt {i : Instr} {s : State} (hlegal : regionsLegal i s = true) (hdest : 0 < destBytes i s) :
    sourceBytes i s < 2 ^ 32 := by
  obtain ⟨hsrc, -, hapart⟩ := regionsLegal_iff.mp hlegal
  by_contra hall
  have hbase : s.src.toNat = 0 := by omega
  have := s.dst.isLt
  exact hapart s.dst.toNat ⟨⟨by omega, by omega⟩, ⟨le_rfl, by omega⟩⟩

theorem elemWidth_bytes_pos (ew : ElemWidth) : 0 < ew.bytes := by cases ew <;> decide

/-- The bytes `UNPACK` consumes fit `RCONS`: it consumes some only beside a destination that is not empty (log 13). -/
theorem unpack_consumed_lt {ew : ElemWidth} {bw : Nat} {s : State} (hlegal : regionsLegal (.unpack ew bw) s = true)
    (hsrc : ceilDiv (s.arg.toNat * bw) 32 ≤ s.slen.toNat) (hroom : s.arg.toNat ≤ s.dcap.toNat) :
    4 * ceilDiv (s.arg.toNat * bw) 32 < 2 ^ 32 := by
  by_cases harg : s.arg.toNat = 0
  · rw [harg, Nat.zero_mul]
    decide
  · have hdest : 0 < destBytes (.unpack ew bw) s := Nat.mul_pos (by omega) (elemWidth_bytes_pos ew)
    have hlt : s.slen.toNat * 4 < 2 ^ 32 := sourceBytes_lt hlegal hdest
    omega

/-- Settles O31. -/
theorem unpackStoresTheFields : Obligations.UnpackStoresTheFields := by
  intro ew bw s wd hpos hbw hlegal hlen hsrc helems hroom
  have hwd := loadElems_eq_of_elemsAt helems
  rw [hlen] at hsrc hwd
  have hreply := unpackReply_of_room (ew := ew) hsrc hroom
  rw [hwd, ← hlen] at hreply
  obtain ⟨hexec, hok⟩ := exec_succeeds (i := .unpack ew bw) (not_paramOwnCause_bitWidth hpos hbw) hlegal hreply
    s.arg.isLt (hlen ▸ unpack_consumed_lt hlegal hsrc hroom)
  refine ⟨_, hexec, hok, ?_⟩
  rw [← elemBytes_map_mod]
  refine s.finish_elemsAt _ _ fun v hv => ?_
  obtain ⟨f, -, rfl⟩ := List.mem_map.mp hv
  exact Nat.mod_lt _ (Nat.two_pow_pos _)

end Sys2Proof.Machine
end

section
/-! PROOFS, 41_groupvarint.md. What `GVCI`, `GVDI`, `GVC` and `GVD` leave in the registers and in memory. -/

namespace Sys2Proof.Machine

/-! ### Encoders (R152, R157) -/

theorem streamReply_of_room {s : State} {out : List Byte} (h : out.length ≤ s.dcap.toNat) :
    streamReply s out = .done out out.length 0 := if_neg (Nat.not_lt.mpr h)

theorem streamReply_of_no_room {s : State} {out : List Byte} (h : s.dcap.toNat < out.length) :
    streamReply s out = .fail .capacity 0 := if_pos h

/-- A command whose reply is a byte string that fits stores it and reports its length. -/
theorem exec_stores_stream {i : Instr} {s : State} {out : List Byte} (hown : ¬ParamOwnCause i s)
    (hlegal : regionsLegal i s = true) (hreply : ownReply i s = .done out out.length 0)
    (hroom : out.length ≤ s.dcap.toNat) : ∃ t, exec i s = .next t ∧ Succeeds s t out out.length 0 :=
  ⟨_, exec_succeeds hown hlegal hreply (hroom.trans_lt s.dcap.isLt) (by decide)⟩

theorem gvciReply_eq {s : State} {v0 v1 v2 v3 : Nat} (h : ElemsAt s.mem s.src.toNat 4 [v0, v1, v2, v3]) :
    gvciReply s = streamReply s (gvItemEnc v0 v1 v2 v3) := by
  have h0 : s.mem.readLe (s.src.toNat + 4 * 0) 4 = v0 := h 0 (by simp)
  have h1 : s.mem.readLe (s.src.toNat + 4 * 1) 4 = v1 := h 1 (by simp)
  have h2 : s.mem.readLe (s.src.toNat + 4 * 2) 4 = v2 := h 2 (by simp)
  have h3 : s.mem.readLe (s.src.toNat + 4 * 3) 4 = v3 := h 3 (by simp)
  simp only [gvciReply, h0, h1, h2, h3]

/-- Settles O37. -/
theorem gvciStoresTheGroup : Obligations.GvciStoresTheGroup := by
  intro s v0 v1 v2 v3 hlen hlegal helems hroom
  exact exec_stores_stream (i := .gvci) (not_not_intro hlen) hlegal
    ((gvciReply_eq helems).trans (streamReply_of_room hroom)) hroom

/-- Settles O39. -/
theorem gvcStoresTheStream : Obligations.GvcStoresTheStream := by
  intro s vs hlegal hlen helems hroom
  have hreply : ownReply .gvc s = streamReply s (gvEnc vs) := by
    rw [ownReply, gvcReply, sourceElems_eq_of_elemsAt hlen helems]
  exact exec_stores_stream not_false hlegal (hreply.trans (streamReply_of_room hroom)) hroom

/-! ### `GVDI` (R154) -/

/-- A slot of the bytes in memory is the little-endian value that stands there. -/
theorem slotValues_readBytes (m : Memory) (a : Nat) {l n : Nat} (ls : List Nat) (h : l ≤ n) :
    slotValues (l :: ls) (m.readBytes a n) = m.readLe a l :: slotValues ls (m.readBytes (a + l) (n - l)) := by
  obtain ⟨k, rfl⟩ := Nat.exists_eq_add_of_le h
  rw [Memory.readBytes_append, slotValues, List.take_left' (m.length_readBytes _ _),
    List.drop_left' (m.length_readBytes _ _), Nat.add_sub_cancel_left]
  rfl

section
variable {len off : Nat → Nat}

/-- Consecutive slots in memory, where `off` is the running sum of their lengths. -/
theorem slotValues_readBytes_map (m : Memory) (a : Nat) (hstep : ∀ j, off (j + 1) = off j + len j) {i k n : Nat}
    (h : off (i + k) ≤ off i + n) :
    slotValues ((List.range' i k).map len) (m.readBytes (a + off i) n) =
      (List.range' i k).map (fun j => m.readLe (a + off j) (len j)) := by
  induction k generalizing i n with
  | zero => rfl
  | succ k ih =>
    have hmono : Monotone off := monotone_nat_of_le_succ fun j => by rw [hstep]; omega
    have hnext : off (i + 1) ≤ off (i + (k + 1)) := hmono (by omega)
    have hoff := hstep i
    have hrest := ih (i := i + 1) (n := n - len i) (by rw [Nat.add_assoc, Nat.add_comm 1]; omega)
    rw [List.range'_succ, List.map_cons, List.map_cons, slotValues_readBytes _ _ _ (by omega), Nat.add_assoc, ← hoff,
      hrest]

/-- A whole group in memory: its selector gives the lengths, and so the offsets, of its four slots (R90, R91). -/
theorem gvItemDec_readBytes (m : Memory) (a n : Nat) (hlen : ∀ j, len j = (m.read a).toNat / 4 ^ j % 4 + 1)
    (hoff : off 0 = 1) (hstep : ∀ j, off (j + 1) = off j + len j) (h : off 4 ≤ n) :
    gvItemDec (m.readBytes a n) = .ok ((List.range' 0 4).map (fun j => m.readLe (a + off j) (len j)), off 4) := by
  have hlens : selectorLengths (m.read a).toNat = (List.range' 0 4).map len := by
    simp [selectorLengths, List.range', hlen]
  have hsum : off 4 = 1 + ((List.range' 0 4).map len).sum := by
    rw [show List.range' 0 4 = [0, 1, 2, 3] from rfl, hstep 3, hstep 2, hstep 1, hstep 0, hoff]
    simp [Nat.add_assoc]
  obtain ⟨k, rfl⟩ := Nat.exists_eq_add_of_le' (show 1 ≤ n by omega)
  have hslots := slotValues_readBytes_map m a hstep (i := 0) (k := 4) (n := k) (by rw [Nat.zero_add]; omega)
  rw [hoff, ← hlens] at hslots
  rw [← hlens] at hsum
  refine gvItemDec_eq_ok_iff.mpr ⟨m.read a, m.readBytes (a + 1) k, rfl, ?_, hslots.symm, hsum⟩
  rw [Memory.length_readBytes]
  omega

end

theorem gvdiReply_of_ok {s : State} {vs : List Nat} {used : Nat} (hroom : 4 ≤ s.dcap.toNat)
    (hdec : gvItemDec (sourceStream s) = .ok (vs, used)) : gvdiReply s = .done (elemBytes 4 vs) 4 used := by
  rw [gvdiReply, if_neg (Nat.not_lt.mpr hroom), hdec]

/-- Settles O38. -/
theorem gvdiStoresTheSlots : Obligations.GvdiStoresTheSlots := by
  intro s len off hlen hoff hstep hlegal hroom hfit
  have hdec := gvItemDec_readBytes s.mem s.src.toNat s.slen.toNat hlen hoff hstep hfit
  obtain ⟨hexec, hstatus, hcnt, hcons, hhost, hdrawn, -, houtside⟩ :=
    exec_succeeds (i := .gvdi) not_false hlegal (gvdiReply_of_ok hroom hdec) (by decide) (hfit.trans_lt s.slen.isLt)
  refine ⟨_, hexec, hstatus, hcnt, hcons, hhost, hdrawn, by simpa using houtside, fun j hj => ?_⟩
  rw [Nat.mul_comm 4 j, s.finish_elemsAt (w := 4) _ _ (gvItemDec_gives.below hdec) j (by simpa using hj)]
  simp [hj]

/-! ### `GVD` (R158) -/

theorem gvdReply_of_ok {s : State} {vs : List Nat} {used : Nat} (hroom : s.arg.toNat ≤ s.dcap.toNat)
    (hdec : gvDec (sourceStream s) s.arg.toNat = .ok (vs, used)) :
    gvdReply s = .done (elemBytes 4 vs) s.arg.toNat used := by
  simp only [gvdReply, if_neg (Nat.not_lt.mpr hroom), hdec]

theorem gvdReply_of_error {s : State} {e : ErrCode} (hroom : s.arg.toNat ≤ s.dcap.toNat)
    (hdec : gvDec (sourceStream s) s.arg.toNat = .error e) : gvdReply s = .fail .corrupt (4 * s.arg.toNat) := by
  simp only [gvdReply, if_neg (Nat.not_lt.mpr hroom), hdec, (gvDec_gives _).error hdec]

theorem used_lt_of_le_length {s : State} {used : Nat} (h : used ≤ (sourceStream s).length) : used < 2 ^ 32 :=
  (h.trans_eq (length_sourceStream s)).trans_lt s.slen.isLt

/-- Settles O40. -/
theorem gvdStoresTheValues : Obligations.GvdStoresTheValues := by
  intro s vs used hlegal hroom hdec
  obtain ⟨hexec, hok⟩ := exec_succeeds (i := .gvd) not_false hlegal (gvdReply_of_ok hroom hdec) s.arg.isLt
    (used_lt_of_le_length ((gvDec_gives _).within hdec))
  exact ⟨_, hexec, hok, (gvDec_gives _).count hdec, s.finish_elemsAt _ _ ((gvDec_gives _).below hdec)⟩

/-- A command whose reply is a fault ends in it, and changes no byte but the spoiled ones (R267, R269). -/
theorem exec_faults {i : Instr} {s : State} {e : ErrCode} {spoiled : Nat} (hown : ¬ParamOwnCause i s)
    (hlegal : regionsLegal i s = true) (hreply : ownReply i s = .fail e spoiled) :
    ∃ t, exec i s = .next t ∧ EndsInFault s t e ∧ UnchangedOutside s t s.dst.toNat spoiled :=
  ⟨_, hreply ▸ exec_of_legal hown hlegal, s.finish_endsInFault e spoiled, s.finish_unchangedOutside (.fail e spoiled)⟩

/-- Settles O41: the three clauses are failures of `GvDec`. -/
theorem gvdOnACutStreamFaults : Obligations.GvdOnACutStreamFaults := by
  have hfault : ∀ (s : State) (e : ErrCode), regionsLegal .gvd s = true → s.arg.toNat ≤ s.dcap.toNat →
      gvDec (sourceStream s) s.arg.toNat = .error e →
      ∃ t, exec .gvd s = .next t ∧ EndsInFault s t .corrupt ∧
        UnchangedOutside s t s.dst.toNat (4 * s.arg.toNat) := fun s e hlegal hroom hdec =>
    exec_faults (i := .gvd) not_false hlegal (gvdReply_of_error hroom hdec)
  refine ⟨fun s vs k hlegal hvs harg hroom hk hsource => ?_,
    fun s vs bad e hlegal hvs hroom hcount hgroups hsource hbad => ?_, hfault⟩
  · have hwhole := gvDec_gvEnc [] hvs
    rw [List.append_nil] at hwhole
    have hcut := (gvDec_gives vs.length).error_of_take hwhole hk
    rw [← hsource, ← harg] at hcut
    exact harg ▸ hfault s .corrupt hlegal (harg ▸ hroom) hcut
  · exact hfault s .corrupt hlegal hroom (hsource ▸ gvDec_gvEnc_error hvs hcount hgroups hbad)

end Sys2Proof.Machine
end

section
/-! PROOFS, 42_pfordelta_block.md. What `PFBITS`, `PFENC` and `PFDEC` leave in the registers and in memory, and how
`PFDEC` fails. -/

namespace Sys2Proof.Machine

/-! ### `PFBITS` and `PFENC` (R191, R196) -/

theorem allBelow_sourceElems (ew : ElemWidth) (s : State) : AllBelow ew.bits (sourceElems ew.bytes s) :=
  allBelow_loadElems _ _ _ _

theorem one_le_elemWidth_bits (ew : ElemWidth) : 1 ≤ ew.bits := by cases ew <;> decide

/-- Settles O43. -/
theorem pfbitsReportsTheWidth : Obligations.PfbitsReportsTheWidth := by
  intro ew s vs hlen hlegal hcount helems
  have hvs := sourceElems_eq_of_elemsAt hcount helems
  have hbelow : AllBelow ew.bits vs := hvs ▸ allBelow_sourceElems ew s
  have hshort : vs.length ≤ 128 := hcount ▸ hlen
  obtain ⟨hpos, -⟩ := maxBitNumIsTheSmallestWidth vs hshort (hbelow.mono (elemWidth_bits_le ew))
  have hle := maxBitNum_le hshort (one_le_elemWidth_bits ew) (elemWidth_bits_le ew) hbelow
  have hlt : maxBitNum vs < 2 ^ 32 := (hle.trans (elemWidth_bits_le ew)).trans_lt (by decide)
  have hreply : ownReply (.pfbits ew) s = .done [] (maxBitNum vs) 0 := by rw [ownReply, hvs]
  obtain ⟨hexec, hok⟩ := exec_succeeds (i := .pfbits ew) (Nat.not_lt.mpr hlen) hlegal hreply hlt (by decide)
  have hcnt := hok.2.1
  exact ⟨_, hexec, hok, rfl, hpos.trans_eq hcnt.symm, hcnt.trans_le hle⟩

/-- Settles O47. -/
theorem pfencStoresTheBlock : Obligations.PfencStoresTheBlock := by
  intro ew s vs hpos hlen hlegal hcount helems hroom
  have hreply : ownReply (.pfenc ew) s = streamReply s (pfBlockEnc vs) := by
    rw [ownReply, pfencReply, sourceElems_eq_of_elemsAt hcount helems]
  have hown : ¬(s.slen.toNat = 0 ∨ 128 < s.slen.toNat) := by omega
  exact exec_stores_stream (i := .pfenc ew) hown hlegal (hreply.trans (streamReply_of_room hroom)) hroom

/-! ### `PFDEC` on a block that decodes (R203, R204) -/

theorem pfdecReply_of_ok {ew : ElemWidth} {s : State} {vs : List Nat} {len : Nat}
    (h : pfBlockDec (sourceStream s) s.dcap.toNat ew = .ok (vs, len)) :
    pfdecReply ew s = .done (elemBytes ew.bytes vs) vs.length len := by
  rw [pfdecReply, h]

theorem pfdecReply_of_error {ew : ElemWidth} {s : State} {f : BlockFailure}
    (h : pfBlockDec (sourceStream s) s.dcap.toNat ew = .error f) :
    pfdecReply ew s = .fail f.code (f.spoiled * ew.bytes) := by
  rw [pfdecReply, h]

/-- The first byte of a source that is not empty stands at `SRC`. -/
theorem sourceStream_getD_zero {s : State} (h : 0 < s.slen.toNat) :
    (sourceStream s).getD 0 0 = s.mem.read s.src.toNat :=
  s.mem.readBytes_getD _ _ 0 h

/-- Settles O48. -/
theorem pfdecStoresTheValues : Obligations.PfdecStoresTheValues := by
  intro ew s vs len hlegal hdec
  obtain ⟨hcount, hroom, hbelow, hfour, hlen⟩ := pfBlockDec_ok_bounds hdec
  have hsource : 0 < s.slen.toNat := (Nat.zero_lt_of_lt hfour).trans_le (length_sourceStream s ▸ hlen)
  rw [sourceStream_getD_zero hsource] at hcount
  obtain ⟨hexec, hok⟩ := exec_succeeds (i := .pfdec ew) not_false hlegal (pfdecReply_of_ok hdec)
    (hroom.trans_lt s.dcap.isLt) (used_lt_of_le_length hlen)
  exact ⟨_, hexec, hok, hcount, s.finish_elemsAt _ _ hbelow⟩

/-! ### `PFDEC` on a block that fails at its header (R200, R201) -/

/-- The header bytes of a source of four bytes or more, and the bytes after them. -/
theorem sourceStream_eq_header {s : State} (h : 4 ≤ s.slen.toNat) :
    sourceStream s = s.mem.read s.src.toNat :: s.mem.read (s.src.toNat + 1) :: s.mem.read (s.src.toNat + 2) ::
      s.mem.read (s.src.toNat + 3) :: s.mem.readBytes (s.src.toNat + 4) (s.slen.toNat - 4) := by
  obtain ⟨k, hk⟩ := Nat.exists_eq_add_of_le' h
  rw [sourceStream, hk]
  rfl

/-- A reply that spoils nothing is fault entry alone. -/
theorem exec_raises {i : Instr} {s : State} {e : ErrCode} (hown : ¬ParamOwnCause i s) (hlegal : regionsLegal i s = true)
    (hreply : ownReply i s = .fail e 0) : exec i s = .next (s.raise e) := by
  rw [exec_of_legal hown hlegal, hreply, State.finish_fail_zero]

theorem exec_pfdec_raises {ew : ElemWidth} {s : State} {e : ErrCode} (hlegal : regionsLegal (.pfdec ew) s = true)
    (h : pfBlockDec (sourceStream s) s.dcap.toNat ew = .error ⟨e, 0⟩) : exec (.pfdec ew) s = .next (s.raise e) :=
  exec_raises not_false hlegal ((pfdecReply_of_error h).trans (congrArg _ (Nat.zero_mul _)))

/-- Settles O49. -/
theorem blockHeaderIsChecked : Obligations.BlockHeaderIsChecked := by
  intro ew s n bw k first hlegal hn hbw hk hfirst
  refine ⟨fun hbad => ?_, fun hfour hn' hbw1 hbw32 hkn hfirst' => ?_⟩
  · refine exec_pfdec_raises (e := .corrupt) hlegal ?_
    by_cases hfour : 4 ≤ s.slen.toNat
    · rw [sourceStream_eq_header hfour]
      refine pfBlockDec_of_header_bad _ _ ?_
      rw [← hn, ← hbw, ← hk, ← hfirst]
      omega
    · exact pfBlockDec_of_short _ _ (length_sourceStream s ▸ Nat.not_le.mp hfour)
  · have hok : HeaderOk n bw k first := ⟨hn', hbw1, hbw32, hkn, hfirst'⟩
    subst hn hbw hk hfirst
    refine ⟨fun hcap => exec_pfdec_raises (e := .capacity) hlegal ?_,
      fun hcap hshort => exec_pfdec_raises (e := .corrupt) hlegal ?_⟩
    · rw [sourceStream_eq_header hfour, pfBlockDec_of_no_room ew hok hcap]
    · have hlen : (s.mem.readBytes (s.src.toNat + 4) (s.slen.toNat - 4)).length <
          4 * wordsFor (s.mem.read s.src.toNat).toNat (s.mem.read (s.src.toNat + 1)).toNat := by
        rw [Memory.length_readBytes, wordsFor]
        omega
      rw [sourceStream_eq_header hfour,
        pfBlockDec_of_not_holds hok hcap fun vs used hbody => absurd hbody.payload (Nat.not_le.mpr hlen), if_pos hlen]

/-! ### `PFDEC` on a block that fails later (R202, R207, R269) -/

/-- The words of the payload, as they stand in memory. -/
theorem payloadFields_readBytes {m : Memory} {a n bw len : Nat} {wd : List Nat} (hlen : wd.length = wordsFor n bw)
    (hfit : 4 * wd.length ≤ len) (h : ElemsAt m a 4 wd) :
    payloadFields n bw (m.readBytes a len) = unpackBits wd bw n := by
  obtain ⟨more, rfl⟩ := Nat.exists_eq_add_of_le hfit
  have hwords := loadElems_eq_of_elemsAt h
  rw [loadElems_eq_slotValues, Nat.mul_comm] at hwords
  rw [payloadFields, Memory.readBytes_append, slotValues_append _ (by simp [hlen, Nat.mul_comm]), ← hlen, hwords]

/-- The three late causes of R263: the side buffer, the chain, the element width. -/
theorem not_bodyHolds_of_cause {n bw k first : Nat} {body : List Byte} {ew : ElemWidth}
    (hcause : (∃ e, gvDec (body.drop (4 * wordsFor n bw)) k = .error e) ∨
      (∃ xs used, gvDec (body.drop (4 * wordsFor n bw)) k = .ok (xs, used) ∧
        chainWalk xs first (payloadFields n bw body) = none) ∨
      (∃ xs used w v, gvDec (body.drop (4 * wordsFor n bw)) k = .ok (xs, used) ∧
        chainWalk xs first (payloadFields n bw body) = some w ∧ v ∈ w ∧ 2 ^ ew.bits ≤ v))
    (vs : List Nat) (used : Nat) : ¬BodyHolds n bw k first body ew vs used := by
  intro hbody
  obtain ⟨xs, side, hside, hwalk, -⟩ := hbody.decoded
  obtain ⟨e, hside'⟩ | ⟨xs', used', hside', hwalk'⟩ | ⟨xs', used', w, v, hside', hwalk', hv, hbig⟩ := hcause
  · rw [hside] at hside'
    cases hside'
  · obtain ⟨rfl, -⟩ := Prod.mk.inj (Except.ok.inj (hside.symm.trans hside'))
    rw [hwalk] at hwalk'
    cases hwalk'
  · obtain ⟨rfl, -⟩ := Prod.mk.inj (Except.ok.inj (hside.symm.trans hside'))
    obtain rfl := Option.some.inj (hwalk.symm.trans hwalk')
    exact (hbody.fits v hv).not_ge hbig

/-- However `PFDEC` fails on a block, it spoils at most the elements the header counts. -/
theorem spoiled_le_header {ew : ElemWidth} {s : State} {f : BlockFailure}
    (h : pfBlockDec (sourceStream s) s.dcap.toNat ew = .error f) : f.spoiled ≤ (s.mem.read s.src.toNat).toNat := by
  obtain ⟨-, -, hspoiled⟩ := pfBlockDec_error h
  obtain hzero | hpos := Nat.eq_zero_or_pos s.slen.toNat
  · have hnil : sourceStream s = [] := List.length_eq_zero_iff.mp ((length_sourceStream s).trans hzero)
    rw [hnil] at hspoiled
    exact hspoiled.trans (Nat.zero_le _)
  · rwa [sourceStream_getD_zero hpos] at hspoiled

/-- `PFDEC` ends with the code of the failure of its block and spoils the elements the failure names. -/
theorem exec_pfdec_faults {ew : ElemWidth} {s : State} {f : BlockFailure} (hlegal : regionsLegal (.pfdec ew) s = true)
    (h : pfBlockDec (sourceStream s) s.dcap.toNat ew = .error f) :
    ∃ t, exec (.pfdec ew) s = .next t ∧ EndsInFault s t f.code ∧
      UnchangedOutside s t s.dst.toNat (f.spoiled * ew.bytes) :=
  exec_faults not_false hlegal (pfdecReply_of_error h)

/-- A command that ended in `E_CORRUPT` answered so. -/
theorem exec_corrupt {i : Instr} {s t : State} (h : exec i s = .next t) (hstatus : t.status = 0x22) :
    ∃ spoiled, ownReply i s = .fail .corrupt spoiled ∧ t = s.finish (.fail .corrupt spoiled) := by
  obtain ⟨-, hexec⟩ | ⟨-, -, hexec⟩ := exec_cases i s <;> obtain rfl := Host.Outcome.next.inj (hexec ▸ h)
  · exact absurd hstatus (by decide : statusFault .param ≠ 0x22)
  · cases hreply : ownReply i s with
    | done out rcnt rcons =>
      rw [hreply] at hstatus
      exact absurd hstatus (by decide : statusOk ≠ 0x22)
    | fail e spoiled =>
      rw [hreply] at hstatus
      obtain rfl := statusFault_inj e .corrupt hstatus
      exact ⟨spoiled, rfl, rfl⟩

theorem pfdecReply_eq_fail {ew : ElemWidth} {s : State} {e : ErrCode} {spoiled : Nat}
    (h : pfdecReply ew s = .fail e spoiled) :
    ∃ f, pfBlockDec (sourceStream s) s.dcap.toNat ew = .error f ∧ spoiled = f.spoiled * ew.bytes := by
  unfold pfdecReply at h
  cases hdec : pfBlockDec (sourceStream s) s.dcap.toNat ew with
  | ok r => simp [hdec] at h
  | error f =>
    rw [hdec] at h
    obtain ⟨-, rfl⟩ := Reply.fail.inj h
    exact ⟨f, rfl, rfl⟩

/-- Settles O50: the late causes, then every failure of `PfBlockDec`, then every end in `E_CORRUPT`. -/
theorem corruptBlockKeepsTheRest : Obligations.CorruptBlockKeepsTheRest := by
  refine ⟨?_, fun ew s f hlegal hdec => ?_, fun ew s t hexec hstatus => ?_⟩
  · intro ew s n bw k first wd side hlegal hn hbw hk hfirst hn' hbw1 hbw32 hkn hfirst' hroom hlen hfit helems hside
      hcause
    have hfour : 4 ≤ s.slen.toNat := by omega
    have hok : HeaderOk n bw k first := ⟨hn', hbw1, hbw32, hkn, hfirst'⟩
    have hpay : 4 * wd.length ≤ s.slen.toNat - 4 := by omega
    have hlong : ¬(s.mem.readBytes (s.src.toNat + 4) (s.slen.toNat - 4)).length < 4 * wordsFor n bw := by
      rw [Memory.length_readBytes, wordsFor, ← hlen]
      omega
    rw [sourceStream_eq_header hfour, ← List.drop_drop, hlen] at hside
    have hbody := not_bodyHolds_of_cause (ew := ew) (n := n) (bw := bw) (k := k) (first := first)
      (body := s.mem.readBytes (s.src.toNat + 4) (s.slen.toNat - 4))
      (by rw [payloadFields_readBytes hlen hpay helems]; exact hside ▸ hcause)
    subst hn hbw hk hfirst
    have hdec := pfBlockDec_of_not_holds hok hroom hbody
    rw [← sourceStream_eq_header hfour, if_neg hlong] at hdec
    exact exec_pfdec_faults hlegal hdec
  · obtain ⟨t, hexec, hfault, houtside⟩ := exec_pfdec_faults hlegal hdec
    obtain ⟨hcode, -⟩ := pfBlockDec_error hdec
    refine ⟨t, hexec, hfault, hcode.imp_right fun hf => ?_, spoiled_le_header hdec, houtside⟩
    have hnone : f.spoiled * ew.bytes = 0 := by simp [hf]
    exact ⟨congrArg BlockFailure.code hf, fun a => houtside a (by omega)⟩
  · obtain ⟨spoiled, hreply, rfl⟩ := exec_corrupt hexec hstatus
    obtain ⟨f, hdec, rfl⟩ := pfdecReply_eq_fail hreply
    exact ⟨s.finish_endsInFault _ _, (s.finish_unchangedOutside (.fail .corrupt (f.spoiled * ew.bytes))).mono
      (Nat.mul_le_mul_right _ (spoiled_le_header hdec))⟩

end Sys2Proof.Machine
end

section
/-! PROOFS, 43_pfordelta_stream.md. What `PFCOMP` and `PFDECOMP` leave in the registers and in memory, and how they
fail. -/

namespace Sys2Proof.Machine

/-! ### `PFCOMP` (R241) -/

theorem pfcompReply_of_room {ew : ElemWidth} {s : State}
    (h : (pfStreamEnc (sourceElems ew.bytes s)).length ≤ s.dcap.toNat) :
    pfcompReply ew s =
      .done (pfStreamEnc (sourceElems ew.bytes s)) (pfStreamEnc (sourceElems ew.bytes s)).length 0 :=
  if_neg (Nat.not_lt.mpr h)

/-- Settles O56. -/
theorem pfcompStoresTheStream : Obligations.PfcompStoresTheStream := by
  intro ew s vs hlegal hlen helems hroom
  obtain rfl := sourceElems_eq_of_elemsAt hlen helems
  exact exec_stores_stream (i := .pfcomp ew) not_false hlegal (pfcompReply_of_room hroom) hroom

/-! ### `PFDECOMP` (R243) -/

/-- Settles O57. -/
theorem pfdecompStoresTheValues : Obligations.PfdecompStoresTheValues := by
  intro ew s vs used hlegal hdec
  obtain ⟨hroom, hbelow, hused⟩ := pfBlocksDec_ok hdec
  rw [length_sourceStream] at hused
  subst hused
  refine ⟨_, exec_pfdecomp_of_ok hlegal hdec, s.finish_succeeds _ (hroom.trans_lt s.dcap.isLt) s.slen.isLt, rfl,
    s.finish_elemsAt _ _ hbelow⟩

/-- `PFDECOMP` ends with the code of the failure of its stream (R244). -/
theorem exec_pfdecomp_faults {ew : ElemWidth} {s : State} {e : ErrCode} (hlegal : regionsLegal (.pfdecomp ew) s = true)
    (hdec : pfStreamDec (sourceStream s) s.dcap.toNat ew = .error e) :
    ∃ t, exec (.pfdecomp ew) s = .next t ∧ EndsInFault s t e ∧
      UnchangedOutside s t s.dst.toNat (s.dcap.toNat * ew.bytes) :=
  exec_faults not_false hlegal (by rw [ownReply, pfdecompReply, hdec]; rfl)

/-- Settles O58: each clause on `PFDECOMP` is a failure of `PfStreamDec`. -/
theorem streamFaultsKeepTheRest : Obligations.StreamFaultsKeepTheRest := by
  refine ⟨fun ew s vs more hlegal hvs hsource => ⟨fun hroom hpos hshort => ?_, fun hcap => ?_⟩,
    fun ew s vs bad f hlegal hvs hroom hne hsource hbad => ?_, fun ew s e => exec_pfdecomp_faults,
    fun ew s vs hlegal hlen helems hcap => ?_⟩
  · have hstray := pfBlockDec_of_short (s.dcap.toNat - vs.length) ew (bs := more) (by omega)
    exact exec_pfdecomp_faults hlegal
      (hsource ▸ pfStreamDec_pfStreamEnc_bad hvs hroom (List.length_pos_iff.mp hpos) hstray)
  · exact exec_pfdecomp_faults hlegal (hsource ▸ pfStreamDec_pfStreamEnc_no_room more hvs hcap)
  · exact exec_pfdecomp_faults hlegal (hsource ▸ pfStreamDec_pfStreamEnc_bad hvs hroom hne hbad)
  · obtain rfl := sourceElems_eq_of_elemsAt hlen helems
    obtain ⟨t, hexec, hfault, houtside⟩ :=
      exec_faults (i := .pfcomp ew) (s := s) not_false hlegal (if_pos hcap : pfcompReply ew s = _)
    rw [destBytes, destUnit, Nat.mul_one] at houtside
    exact ⟨t, hexec, hfault, houtside⟩

end Sys2Proof.Machine
end

section
/-! PROOFS, 60_exceptions.md. Destinations too small and sources too short, found before any byte is written. -/

namespace Sys2Proof.Machine

theorem unpackReply_of_short {ew : ElemWidth} {bw : Nat} {s : State}
    (h : s.slen.toNat < ceilDiv (s.arg.toNat * bw) 32) : unpackReply ew bw s = .fail .corrupt 0 := if_pos h

theorem unpackReply_of_no_room {ew : ElemWidth} {bw : Nat} {s : State}
    (hsrc : ceilDiv (s.arg.toNat * bw) 32 ≤ s.slen.toNat) (h : s.dcap.toNat < s.arg.toNat) :
    unpackReply ew bw s = .fail .capacity 0 := (if_neg (Nat.not_lt.mpr hsrc)).trans (if_pos h)

/-- Settles O21: each of the seven answers `E_CAPACITY` and spoils nothing. -/
theorem capacityFaultsWriteNothing : Obligations.CapacityFaultsWriteNothing := by
  intro s
  refine ⟨fun ew bw hpos hbw hlegal hroom => ?_, fun ew bw hpos hbw hlegal hsrc hroom => ?_,
    fun v0 v1 v2 v3 hlegal hlen helems hroom => ?_, fun hlegal hroom => ?_, fun vs hlegal hlen helems hroom => ?_,
    fun hlegal hroom => ?_, fun ew vs hlegal hpos hshort hlen helems hroom => ?_⟩
  · exact exec_raises (i := .pack ew bw) (not_paramOwnCause_bitWidth hpos hbw) hlegal (if_pos hroom)
  · exact exec_raises (i := .unpack ew bw) (not_paramOwnCause_bitWidth hpos hbw) hlegal
      (unpackReply_of_no_room hsrc hroom)
  · exact exec_raises (i := .gvci) (not_not_intro hlen) hlegal
      ((gvciReply_eq helems).trans (streamReply_of_no_room hroom))
  · exact exec_raises (i := .gvdi) not_false hlegal (if_pos hroom)
  · obtain rfl := sourceElems_eq_of_elemsAt hlen helems
    exact exec_raises (i := .gvc) not_false hlegal (streamReply_of_no_room hroom)
  · exact exec_raises (i := .gvd) not_false hlegal (if_pos hroom)
  · have hown : ¬(s.slen.toNat = 0 ∨ 128 < s.slen.toNat) := by omega
    obtain rfl := sourceElems_eq_of_elemsAt hlen helems
    exact exec_raises (i := .pfenc ew) hown hlegal (streamReply_of_no_room hroom)

/-- A source that is empty or shorter than its group is no group. -/
theorem gvItemDec_sourceStream_short {s : State} (h : s.slen.toNat = 0 ∨
    s.slen.toNat < 1 + (selectorLengths (s.mem.read s.src.toNat).toNat).sum) :
    gvItemDec (sourceStream s) = .error .corrupt := by
  unfold sourceStream
  cases hlen : s.slen.toNat with
  | zero => rfl
  | succ k =>
    have hshort : (s.mem.readBytes (s.src.toNat + 1) k).length <
        (selectorLengths (s.mem.read s.src.toNat).toNat).sum := by
      rw [Memory.length_readBytes]
      omega
    rw [Memory.readBytes, gvItemDec_cons, if_pos hshort]

/-- Settles O22. -/
theorem shortSourceFaults : Obligations.ShortSourceFaults := by
  refine fun s => ⟨fun ew bw hpos hbw hlegal hshort => ?_, fun hlegal hroom hshort => ?_⟩
  · exact exec_raises (i := .unpack ew bw) (not_paramOwnCause_bitWidth hpos hbw) hlegal (unpackReply_of_short hshort)
  · refine exec_raises (i := .gvdi) (e := .corrupt) not_false hlegal ?_
    rw [ownReply, gvdiReply, if_neg (Nat.not_lt.mpr hroom), gvItemDec_sourceStream_short hshort]

end Sys2Proof.Machine
end

section
/-! PROOFS, 70_reset_and_hazards.md. The sizes of R295 are bounds of what the encoders write. -/

namespace Sys2Proof.Machine

theorem exec_stores_stream_status {i : Instr} {s : State} {out : List Byte} (hown : ¬ParamOwnCause i s)
    (hlegal : regionsLegal i s = true) (hreply : ownReply i s = .done out out.length 0)
    (hroom : out.length ≤ s.dcap.toNat) : ∃ t, exec i s = .next t ∧ t.status = 0x01 :=
  (exec_stores_stream hown hlegal hreply hroom).imp fun _ ⟨hexec, hok⟩ => ⟨hexec, hok.1⟩

/-- Settles O23. -/
theorem preSizedDestinationSuffices : Obligations.PreSizedDestinationSuffices := by
  refine fun s => ⟨fun hlegal hroom => ?_, fun ew hlegal hpos hlen hroom => ?_, fun ew hlegal hroom => ?_⟩
  · have hsize := (length_gvEnc (sourceElems 4 s)).2
    rw [length_sourceElems] at hsize
    have hfits := hsize.trans hroom
    exact exec_stores_stream_status (i := .gvc) not_false hlegal (streamReply_of_room hfits) hfits
  · have hbelow := (allBelow_sourceElems ew s).mono (elemWidth_bits_le ew)
    have hfits := (length_pfBlockEnc_le ((length_sourceElems _ s).trans_le hlen) hbelow).trans hroom
    have hown : ¬(s.slen.toNat = 0 ∨ 128 < s.slen.toNat) := by omega
    exact exec_stores_stream_status (i := .pfenc ew) hown hlegal (streamReply_of_room hfits) hfits
  · have hsize := length_pfWindowsEnc_le (ceilDiv (sourceElems ew.bytes s).length 128)
      ((allBelow_sourceElems ew s).mono (elemWidth_bits_le ew))
    rw [length_sourceElems] at hsize
    have hfits : (pfStreamEnc (sourceElems ew.bytes s)).length ≤ s.dcap.toNat := by
      rw [pfStreamEnc, length_sourceElems]
      exact hsize.trans hroom
    exact exec_stores_stream_status (i := .pfcomp ew) not_false hlegal (pfcompReply_of_room hfits) hfits

end Sys2Proof.Machine
end

section
/-! PROOFS, 00_scope.md. `GVC` then `GVD`, and `PFENC` then `PFDEC`: the encoder stored a byte string, and the decoder
gives back what it was made of. -/

namespace Sys2Proof.Machine

/-- What an encoder that succeeded stored is the source of the unit pointed at it. -/
theorem sourceStream_eq_of_encoded {enc : Instr} {s t u : State} {bytes : List Byte}
    (hreply : ownReply enc s = streamReply s bytes) (henc : exec enc s = .next t) (hok : t.status = 0x01)
    (hmem : ∀ a, s.dst.toNat ≤ a → a < s.dst.toNat + t.rcnt.toNat → u.mem.read a = t.mem.read a) (hsrc : u.src = s.dst)
    (hslen : u.slen = t.rcnt) : sourceStream u = bytes ∧ t.rcnt = BitVec.ofNat 32 bytes.length := by
  obtain ⟨out, rcnt, rcons, hdone, rfl⟩ := exec_success henc hok
  obtain ⟨rfl, rfl, rfl, hfits⟩ := streamReply_eq_done (hreply ▸ hdone)
  have hrcnt : (s.finish (.done out out.length 0)).rcnt.toNat = out.length :=
    Nat.mod_eq_of_lt (hfits.trans_lt s.dcap.isLt)
  rw [hrcnt] at hmem
  exact ⟨sourceStream_eq_of_stored rfl (hslen ▸ hrcnt) hsrc hmem, rfl⟩

/-- A decoder that answers the elements of `s` has restored them. -/
theorem exec_restores {dec : Instr} {w rcons : Nat} {s u : State} (hown : ¬ParamOwnCause dec u)
    (hlegal : regionsLegal dec u = true)
    (hreply : ownReply dec u = .done (elemBytes w (sourceElems w s)) s.slen.toNat rcons) :
    ∃ v, exec dec u = .next v ∧ v.status = 0x01 ∧ v.rcnt = s.slen ∧ v.rcons = BitVec.ofNat 32 rcons ∧
      ∀ i, i < s.slen.toNat →
        v.mem.readLe (u.dst.toNat + i * w) w = s.mem.readLe (s.src.toNat + i * w) w := by
  refine ⟨_, hreply ▸ exec_of_legal hown hlegal, rfl, ?_, rfl, fun i hi => ?_⟩
  · rw [State.finish_done_rcnt, BitVec.ofNat_toNat, BitVec.setWidth_eq]
  · have hbelow : AllBelow (8 * w) (sourceElems w s) := allBelow_loadElems _ _ _ _
    rw [u.finish_elemsAt _ _ hbelow i (by rwa [length_sourceElems]), sourceElems, loadElems_getD _ _ _ hi]

theorem gvc_gvd_restores : Restores .gvc .gvd 4 := by
  intro s t u henc hok hmem hsrc hslen hcap harg hlegal
  obtain ⟨hsource, hrcnt⟩ := sourceStream_eq_of_encoded (bytes := gvEnc (sourceElems 4 s)) rfl henc hok hmem hsrc hslen
  have hdec := gvDec_gvEnc [] (allBelow_sourceElems .w s)
  have harg : u.arg = s.slen := harg rfl
  rw [List.append_nil, ElemWidth.bytes, length_sourceElems, ← harg, ← hsource] at hdec
  have hreply := gvdReply_of_ok (harg ▸ hcap) hdec
  rw [harg] at hreply
  exact hrcnt ▸ hsource ▸ exec_restores (dec := .gvd) not_false hlegal hreply

theorem pfenc_pfdec_restores (ew : ElemWidth) : Restores (.pfenc ew) (.pfdec ew) ew.bytes := by
  intro s t u henc hok hmem hsrc hslen hcap _ hlegal
  have hlen : s.slen.toNat ≤ 128 := by
    obtain ⟨hcause, hexec⟩ | ⟨hown, -, -⟩ := exec_cases (.pfenc ew) s
    · obtain rfl := Host.Outcome.next.inj (hexec ▸ henc)
      exact absurd hok (statusFault_ne_ok _)
    · exact Nat.not_lt.mp (not_or.mp hown).2
  obtain ⟨hsource, hrcnt⟩ := sourceStream_eq_of_encoded (bytes := pfBlockEnc (sourceElems ew.bytes s)) rfl henc hok hmem
    hsrc hslen
  have hdec := pfBlockDec_pfBlockEnc [] ((length_sourceElems _ s).trans_le hlen) (allBelow_sourceElems ew s)
    ((length_sourceElems _ s).trans_le hcap)
  rw [List.append_nil, ← hsource] at hdec
  have hreply := pfdecReply_of_ok hdec
  rw [length_sourceElems] at hreply
  exact hrcnt ▸ hsource ▸ exec_restores (dec := .pfdec ew) not_false hlegal hreply

/-- Settles O59. -/
theorem groupVarintAndBlocksRestore : Obligations.GroupVarintAndBlocksRestore :=
  ⟨gvc_gvd_restores, pfenc_pfdec_restores⟩

end Sys2Proof.Machine
end
